-- ==== Sys2Proof/Word.lean ====
section
/-! DEFINITION. The word types of the engine (spec/00_scope.md R8, R9, R12): every value is unsigned, bit 0 is the
least significant bit. -/

namespace Sys2Proof

/-- A 32-bit host word: every register, command word and bus transfer (R8, R70). -/
abbrev Word := BitVec 32

/-- One byte lane of a host word (R72). -/
abbrev Byte := BitVec 8

/-- A byte offset into the 4 KiB host window (R8). -/
abbrev Offset := BitVec 12

/-- A field element or hexbit: a raw 6-bit value (R12, R130). -/
abbrev Elem := BitVec 6

/-- The number of a polynomial register P0..P7 (R107). -/
abbrev RegNo := Fin 8

/-- A coefficient index as a command word holds it, 0..63 (R107): 36..63 are encodable and out of range. -/
abbrev CoeffIdx := Fin 64

/-- The exponent of GF.EXP, 0..255 (R104). -/
abbrev Exponent := Fin 256

/-- The three Reed-Solomon codes (R7). -/
inductive Code
  | short
  | medium
  | long
deriving DecidableEq, Repr

/-- A polynomial register: coefficient `i` is the coefficient of `x^i`, capacity 36 (R47, R160). -/
abbrev PolyReg := Vector Elem 36

/-- The symbol buffer SYM[0..35] (R46). -/
abbrev SymBuf := Vector Elem 36

/-- `zext_32(v)` (R9). -/
abbrev zext {n : Nat} (v : BitVec n) : Word := v.setWidth 32

end Sys2Proof
end

