-- ==== Sys2Proof/Config.lean ====
section
/-! DEFINITION. What one engine fixes: the parameters of spec/00_scope.md R6 to R8, the identity words of
spec/10_state.md R33 to R35, and the one value the spec leaves undefined (LOG[0], R131). -/

namespace Sys2Proof

/-- `FIELD_POLY` (R6), bit `i` the coefficient of `x^i`. Every table of the model is computed from it by the rules
that define it, so this is the one place another primitive polynomial would be written. -/
def Config.fieldPoly : BitVec 7 := 0x43#7

/-- `ALPHA`, the class of `x` (R6). -/
def Config.alpha : Elem := 2#6

/-- The multiplicative order of alpha (R6). -/
def Config.order : Nat := 63

/-- `POLY_CAP` (R8). The types `PolyReg` and `SymBuf` write the number out. -/
def Config.polyCap : Nat := 36

/-- `NPOLY` (R8). -/
def Config.npoly : Nat := 8

/-- `SYM_LEN` (R8). -/
def Config.symLen : Nat := 36

/-- `ERRLIST_LEN` (R8). -/
def Config.errListLen : Nat := 36

/-- The number of codes (R7, R35). -/
def Config.ncodes : Nat := 3

/-- The parameters `(n, k, t2)` of a code (R7). -/
structure CodeParams where
  n : Nat
  k : Nat
  t2 : Nat
deriving DecidableEq, Repr

/-- The number of correctable symbols `t = t2/2` (R7). -/
def CodeParams.t (q : CodeParams) : Nat := q.t2 / 2

/-- The distance `t2 + 1` (R7). -/
def CodeParams.distance (q : CodeParams) : Nat := q.t2 + 1

/-- `params(CODE)` (R7, R230). -/
def Config.params : Code → CodeParams
  | .short => ⟨24, 12, 12⟩
  | .medium => ⟨24, 16, 8⟩
  | .long => ⟨36, 20, 16⟩

/-- ID, the ASCII bytes G F 6 4 (R1, R33). -/
def Config.idWord : Word := 0x47463634#32

/-- VERSION (R1, R34). -/
def Config.versionWord : Word := 0x00000001#32

/-- CONFIG, assembled from its fields (R35): bit 31 reserved, [30:24] FIELD_POLY, [23:16] ERRLIST_LEN, [15:12] NCODES,
[11:8] NPOLY, [7:0] POLY_CAP. -/
def Config.configWord : Word :=
  (zext Config.fieldPoly <<< 24) ||| (BitVec.ofNat 32 Config.errListLen <<< 16) |||
    (BitVec.ofNat 32 Config.ncodes <<< 12) ||| (BitVec.ofNat 32 Config.npoly <<< 8) ||| BitVec.ofNat 32 Config.polyCap

/-- LOG[0], which R131 leaves undefined: a free value with no body. No command consults it (R141, R142, R144, R145;
notes/assumptions/4.md), and no proof can learn what it is. Safe. -/
opaque Config.logOfZero : Nat

end Sys2Proof
end

