-- ==== Sys2Proof/Syntax.lean ====
section
/-! DEFINITION. The commands of the engine: one constructor per row of spec/opcode_table.json (spec/30_encoding.md R109),
with the operand fields of R107. -/

namespace Sys2Proof

/-- A command. Fields stand in the order of the assembler (R114): destination register first. -/
inductive Instr
  /-- `nop` (R260). -/
  | nop
  /-- `gf.add A, B` (R140). -/
  | gfAdd (a b : Elem)
  /-- `gf.mul A, B` (R141). -/
  | gfMul (a b : Elem)
  /-- `gf.div A, B` (R142). -/
  | gfDiv (a b : Elem)
  /-- `gf.inv A` (R144). -/
  | gfInv (a : Elem)
  /-- `gf.log A` (R145). -/
  | gfLog (a : Elem)
  /-- `gf.exp E` (R143). -/
  | gfExp (e : Exponent)
  /-- `gf.isz A` (R146). -/
  | gfIsz (a : Elem)
  /-- `poly.clr pD` (R165). -/
  | polyClr (rd : RegNo)
  /-- `poly.add pD, pA, pB` (R166). -/
  | polyAdd (rd ra rb : RegNo)
  /-- `poly.mul pD, pA, pB` (R167). -/
  | polyMul (rd ra rb : RegNo)
  /-- `poly.eval pA, VAL` (R168). -/
  | polyEval (ra : RegNo) (val : Elem)
  /-- `poly.deg pA` (R169). -/
  | polyDeg (ra : RegNo)
  /-- `poly.getc pA, IDX` (R170). -/
  | polyGetc (ra : RegNo) (idx : CoeffIdx)
  /-- `poly.setc pD, IDX, VAL` (R171). -/
  | polySetc (rd : RegNo) (idx : CoeffIdx) (val : Elem)
  /-- `rs.enc code` (R236). -/
  | rsEnc (c : Code)
  /-- `rs.dec code` (R238). -/
  | rsDec (c : Code)
  /-- `rs.synd code, pD` (R200). -/
  | rsSynd (c : Code) (rd : RegNo)
  /-- `rs.elp code, pD, pA` (R202). -/
  | rsElp (c : Code) (rd ra : RegNo)
  /-- `rs.chien pA` (R204). -/
  | rsChien (ra : RegNo)
  /-- `rs.forney code, pA, pB` (R207): pA the locator, pB the syndromes. -/
  | rsForney (c : Code) (ra rb : RegNo)
deriving DecidableEq, Repr

end Sys2Proof
end

