-- ==== Sys2Proof/WellFormed.lean ====
section
/-! DEFINITION. Commands as a programmer writes them (spec/30_encoding.md R114, R115), whose operands are plain numbers
and so can be out of range, and the check that refuses such a command. A command of `Instr` holds its operands in types
that have exactly the values of R107, so it is well formed by construction; its check is the check of its written form. -/

namespace Sys2Proof

/-- A field-element operand as it is written (R114): a number, or `a^k` for a power of alpha. -/
inductive ElemLit
  | num (n : Nat)
  | alphaPow (k : Int)
deriving DecidableEq, Repr

/-- A written command: the 21 commands of R114 and the six pseudo-commands of R115. -/
inductive Asm
  | nop
  | gfAdd (a b : ElemLit)
  | gfMul (a b : ElemLit)
  | gfDiv (a b : ElemLit)
  | gfInv (a : ElemLit)
  | gfLog (a : ElemLit)
  | gfExp (e : Nat)
  | gfIsz (a : ElemLit)
  | polyClr (rd : Nat)
  | polyAdd (rd ra rb : Nat)
  | polyMul (rd ra rb : Nat)
  | polyEval (ra : Nat) (val : ElemLit)
  | polyDeg (ra : Nat)
  | polyGetc (ra idx : Nat)
  | polySetc (rd idx : Nat) (val : ElemLit)
  | rsEnc (c : Code)
  | rsDec (c : Code)
  | rsSynd (c : Code) (rd : Nat)
  | rsElp (c : Code) (rd ra : Nat)
  | rsChien (ra : Nat)
  | rsForney (c : Code) (ra rb : Nat)
  /-- `gf.sub A, B`: `gf.add A, B` (R115). -/
  | gfSub (a b : ElemLit)
  /-- `gf.neg A`: `gf.add A, 0` (R115). -/
  | gfNeg (a : ElemLit)
  /-- `gf.sqr A`: `gf.mul A, A` (R115). -/
  | gfSqr (a : ElemLit)
  /-- `gf.one`: `gf.exp 0` (R115). -/
  | gfOne
  /-- `poly.zero pD`: `poly.clr pD` (R115). -/
  | polyZero (rd : Nat)
  /-- `poly.sqr pD, pA`: `poly.mul pD, pA, pA` (R115). -/
  | polySqr (rd ra : Nat)
deriving DecidableEq, Repr

/-- A written element is 0..63, or any power of alpha (R114). -/
def ElemLit.wellFormed : ElemLit → Bool
  | .num n => decide (n ≤ 63)
  | .alphaPow _ => true

/-- A register operand is p0..p7 (R114). -/
def regWellFormed (r : Nat) : Bool := decide (r ≤ 7)

/-- An index operand is 0..63 (R114). -/
def idxWellFormed (i : Nat) : Bool := decide (i ≤ 63)

/-- An exponent operand is 0..255 (R114). -/
def expWellFormed (e : Nat) : Bool := decide (e ≤ 255)

/-- Every operand of a written command is one the assembler takes (R114). -/
def Asm.wellFormed : Asm → Bool
  | .nop => true
  | .gfAdd a b => a.wellFormed && b.wellFormed
  | .gfMul a b => a.wellFormed && b.wellFormed
  | .gfDiv a b => a.wellFormed && b.wellFormed
  | .gfInv a => a.wellFormed
  | .gfLog a => a.wellFormed
  | .gfExp e => expWellFormed e
  | .gfIsz a => a.wellFormed
  | .polyClr rd => regWellFormed rd
  | .polyAdd rd ra rb => regWellFormed rd && regWellFormed ra && regWellFormed rb
  | .polyMul rd ra rb => regWellFormed rd && regWellFormed ra && regWellFormed rb
  | .polyEval ra val => regWellFormed ra && val.wellFormed
  | .polyDeg ra => regWellFormed ra
  | .polyGetc ra idx => regWellFormed ra && idxWellFormed idx
  | .polySetc rd idx val => regWellFormed rd && idxWellFormed idx && val.wellFormed
  | .rsEnc _ => true
  | .rsDec _ => true
  | .rsSynd _ rd => regWellFormed rd
  | .rsElp _ rd ra => regWellFormed rd && regWellFormed ra
  | .rsChien ra => regWellFormed ra
  | .rsForney _ ra rb => regWellFormed ra && regWellFormed rb
  | .gfSub a b => a.wellFormed && b.wellFormed
  | .gfNeg a => a.wellFormed
  | .gfSqr a => a.wellFormed
  | .gfOne => true
  | .polyZero rd => regWellFormed rd
  | .polySqr rd ra => regWellFormed rd && regWellFormed ra

/-- The written form of an element: its number. -/
def ElemLit.ofElem (v : Elem) : ElemLit := .num v.toNat

/-- The written form of a command, one plain command each (R114). -/
def Asm.ofInstr : Instr → Asm
  | .nop => .nop
  | .gfAdd a b => .gfAdd (.ofElem a) (.ofElem b)
  | .gfMul a b => .gfMul (.ofElem a) (.ofElem b)
  | .gfDiv a b => .gfDiv (.ofElem a) (.ofElem b)
  | .gfInv a => .gfInv (.ofElem a)
  | .gfLog a => .gfLog (.ofElem a)
  | .gfExp e => .gfExp e.val
  | .gfIsz a => .gfIsz (.ofElem a)
  | .polyClr rd => .polyClr rd.val
  | .polyAdd rd ra rb => .polyAdd rd.val ra.val rb.val
  | .polyMul rd ra rb => .polyMul rd.val ra.val rb.val
  | .polyEval ra val => .polyEval ra.val (.ofElem val)
  | .polyDeg ra => .polyDeg ra.val
  | .polyGetc ra idx => .polyGetc ra.val idx.val
  | .polySetc rd idx val => .polySetc rd.val idx.val (.ofElem val)
  | .rsEnc c => .rsEnc c
  | .rsDec c => .rsDec c
  | .rsSynd c rd => .rsSynd c rd.val
  | .rsElp c rd ra => .rsElp c rd.val ra.val
  | .rsChien ra => .rsChien ra.val
  | .rsForney c ra rb => .rsForney c ra.val rb.val

/-- A command is well formed when its written form is. -/
def Instr.wellFormed (i : Instr) : Bool := (Asm.ofInstr i).wellFormed

end Sys2Proof
end

