-- ==== Sys2Proof/Decode.lean ====
section
/-! DEFINITION. Command words (spec/30_encoding.md): the opcode table of R109, the decode procedure of R100, total on
every word and rejecting by name (R110, R111), and after it the encoder of R114. -/

namespace Sys2Proof

/-- Why a command word is illegal (R111). -/
inductive DecodeReject
  /-- The opcode is one of the 43 unassigned values (R110). -/
  | unassignedOpcode
  /-- A field the command does not use is not zero (R100, R111). -/
  | unusedFieldNonZero
  /-- A format C word with CODE = 3 (R106, R111). -/
  | reservedCode
  /-- Fewer than the four bytes of a command word (R101). -/
  | truncated
deriving DecidableEq, Repr

/-- w[31:26] (R101). -/
def fieldOp (w : Word) : BitVec 6 := w.extractLsb' 26 6

/-- w[11:6], the operand A (R103). -/
def fieldA (w : Word) : Elem := w.extractLsb' 6 6

/-- w[5:0], the operand B or VAL (R103, R105). -/
def fieldB (w : Word) : Elem := w.extractLsb' 0 6

/-- w[7:0], the exponent (R104). -/
def fieldE (w : Word) : Exponent := (w.extractLsb' 0 8).toFin

/-- w[23:21] (R105). -/
def fieldRD (w : Word) : RegNo := (w.extractLsb' 21 3).toFin

/-- w[20:18] (R105). -/
def fieldRA (w : Word) : RegNo := (w.extractLsb' 18 3).toFin

/-- w[17:15] (R105). -/
def fieldRB (w : Word) : RegNo := (w.extractLsb' 15 3).toFin

/-- w[11:6] as a coefficient index (R105). -/
def fieldIdx (w : Word) : CoeffIdx := (w.extractLsb' 6 6).toFin

/-- w[25:24]; the value 3 names no code (R106). -/
def fieldCode (w : Word) : Option Code :=
  match (w.extractLsb' 24 2).toNat with
  | 0 => some .short
  | 1 => some .medium
  | 2 => some .long
  | _ => none

/-- A row of the table of R109: `build` reads the fields of R107 and answers none only for a reserved code. -/
structure OpRow where
  mnemonic : String
  opcode : BitVec 6
  matchBits : Word
  maskBits : Word
  build : Word → Option Instr

/-- The 21 rows of R109, in its order. -/
def opTable : List OpRow :=
  [ ⟨"nop", 0x00, 0x00000000, 0xFFFFFFFF, fun _ => some .nop⟩,
    ⟨"gf.add", 0x01, 0x04000000, 0xFFFFF000, fun w => some (.gfAdd (fieldA w) (fieldB w))⟩,
    ⟨"gf.mul", 0x02, 0x08000000, 0xFFFFF000, fun w => some (.gfMul (fieldA w) (fieldB w))⟩,
    ⟨"gf.div", 0x03, 0x0C000000, 0xFFFFF000, fun w => some (.gfDiv (fieldA w) (fieldB w))⟩,
    ⟨"gf.inv", 0x04, 0x10000000, 0xFFFFF03F, fun w => some (.gfInv (fieldA w))⟩,
    ⟨"gf.log", 0x05, 0x14000000, 0xFFFFF03F, fun w => some (.gfLog (fieldA w))⟩,
    ⟨"gf.exp", 0x06, 0x18000000, 0xFFFFFF00, fun w => some (.gfExp (fieldE w))⟩,
    ⟨"gf.isz", 0x07, 0x1C000000, 0xFFFFF03F, fun w => some (.gfIsz (fieldA w))⟩ ] ++
  [ ⟨"poly.clr", 0x10, 0x40000000, 0xFF1FFFFF, fun w => some (.polyClr (fieldRD w))⟩,
    ⟨"poly.add", 0x11, 0x44000000, 0xFF007FFF, fun w => some (.polyAdd (fieldRD w) (fieldRA w) (fieldRB w))⟩,
    ⟨"poly.mul", 0x12, 0x48000000, 0xFF007FFF, fun w => some (.polyMul (fieldRD w) (fieldRA w) (fieldRB w))⟩,
    ⟨"poly.eval", 0x13, 0x4C000000, 0xFFE3FFC0, fun w => some (.polyEval (fieldRA w) (fieldB w))⟩,
    ⟨"poly.deg", 0x14, 0x50000000, 0xFFE3FFFF, fun w => some (.polyDeg (fieldRA w))⟩,
    ⟨"poly.getc", 0x15, 0x54000000, 0xFFE3F03F, fun w => some (.polyGetc (fieldRA w) (fieldIdx w))⟩,
    ⟨"poly.setc", 0x16, 0x58000000, 0xFF1FF000, fun w => some (.polySetc (fieldRD w) (fieldIdx w) (fieldB w))⟩ ] ++
  [ ⟨"rs.enc", 0x20, 0x80000000, 0xFCFFFFFF, fun w => (fieldCode w).map fun c => .rsEnc c⟩,
    ⟨"rs.dec", 0x21, 0x84000000, 0xFCFFFFFF, fun w => (fieldCode w).map fun c => .rsDec c⟩,
    ⟨"rs.synd", 0x22, 0x88000000, 0xFC1FFFFF, fun w => (fieldCode w).map fun c => .rsSynd c (fieldRD w)⟩,
    ⟨"rs.elp", 0x23, 0x8C000000, 0xFC03FFFF, fun w => (fieldCode w).map fun c => .rsElp c (fieldRD w) (fieldRA w)⟩,
    ⟨"rs.chien", 0x24, 0x90000000, 0xFFE3FFFF, fun w => some (.rsChien (fieldRA w))⟩,
    ⟨"rs.forney", 0x25, 0x94000000, 0xFCE07FFF,
      fun w => (fieldCode w).map fun c => .rsForney c (fieldRA w) (fieldRB w)⟩ ]

/-- The decode procedure of R100: opcode, then the fields the command does not use, then the reserved code. -/
def decode (w : Word) : Except DecodeReject Instr :=
  match opTable.find? fun row => row.opcode == fieldOp w with
  | none => .error .unassignedOpcode
  | some row =>
    if w &&& row.maskBits ≠ row.matchBits then .error .unusedFieldNonZero
    else
      match row.build w with
      | none => .error .reservedCode
      | some i => .ok i

/-- Four byte lanes as a word, lane 0 the least significant (R72). -/
def wordOfBytes (b0 b1 b2 b3 : Byte) : Word :=
  zext b0 ||| (zext b1 <<< 8) ||| (zext b2 <<< 16) ||| (zext b3 <<< 24)

/-- Byte lane `j` of a word: bits [8j+7:8j] (R72). -/
def byteLane (w : Word) (j : Nat) : Byte := w.extractLsb' (8 * j) 8

/-- A word as the bytes at off, off+1, off+2, off+3 (R72). -/
def bytesOfWord (w : Word) : List Byte := [byteLane w 0, byteLane w 1, byteLane w 2, byteLane w 3]

/-- The decoder on bytes: the first four are the command word (R72, R101), the rest is handed back. -/
def decodeBytes : List Byte → Except DecodeReject (Instr × List Byte)
  | b0 :: b1 :: b2 :: b3 :: rest =>
    match decode (wordOfBytes b0 b1 b2 b3) with
    | .ok i => .ok (i, rest)
    | .error e => .error e
  | _ => .error .truncated

/-- The instruction the decoder reads from the `nbits` low bits of `w`, every higher bit of the word 0. A number that
does not fit one 32-bit word is no command (R101). -/
def decodeTableWord (nbits w : Nat) : Option Instr :=
  if w % 2 ^ nbits < 2 ^ 32 then
    match decodeBytes (bytesOfWord (BitVec.ofNat 32 (w % 2 ^ nbits))) with
    | .ok (i, _) => some i
    | .error _ => none
  else none

/-- A field value moved to its place in the word. -/
def place {n : Nat} (v : BitVec n) (lo : Nat) : Word := zext v <<< lo

/-- CODE as R106 numbers it. -/
def codeBits : Code → BitVec 2
  | .short => 0
  | .medium => 1
  | .long => 2

/-- A register number as three bits. -/
def regBits (r : RegNo) : BitVec 3 := BitVec.ofNat 3 r.val

/-- A coefficient index as six bits. -/
def idxBits (i : CoeffIdx) : BitVec 6 := BitVec.ofNat 6 i.val

/-- The command word of an instruction: the match word of its row of R109, with the named fields filled and every
other field zero (R114). -/
def encode : Instr → Word
  | .nop => 0x00000000#32
  | .gfAdd a b => 0x04000000#32 ||| place a 6 ||| place b 0
  | .gfMul a b => 0x08000000#32 ||| place a 6 ||| place b 0
  | .gfDiv a b => 0x0C000000#32 ||| place a 6 ||| place b 0
  | .gfInv a => 0x10000000#32 ||| place a 6
  | .gfLog a => 0x14000000#32 ||| place a 6
  | .gfExp e => 0x18000000#32 ||| place (BitVec.ofNat 8 e.val) 0
  | .gfIsz a => 0x1C000000#32 ||| place a 6
  | .polyClr rd => 0x40000000#32 ||| place (regBits rd) 21
  | .polyAdd rd ra rb => 0x44000000#32 ||| place (regBits rd) 21 ||| place (regBits ra) 18 ||| place (regBits rb) 15
  | .polyMul rd ra rb => 0x48000000#32 ||| place (regBits rd) 21 ||| place (regBits ra) 18 ||| place (regBits rb) 15
  | .polyEval ra val => 0x4C000000#32 ||| place (regBits ra) 18 ||| place val 0
  | .polyDeg ra => 0x50000000#32 ||| place (regBits ra) 18
  | .polyGetc ra idx => 0x54000000#32 ||| place (regBits ra) 18 ||| place (idxBits idx) 6
  | .polySetc rd idx val => 0x58000000#32 ||| place (regBits rd) 21 ||| place (idxBits idx) 6 ||| place val 0
  | .rsEnc c => 0x80000000#32 ||| place (codeBits c) 24
  | .rsDec c => 0x84000000#32 ||| place (codeBits c) 24
  | .rsSynd c rd => 0x88000000#32 ||| place (codeBits c) 24 ||| place (regBits rd) 21
  | .rsElp c rd ra => 0x8C000000#32 ||| place (codeBits c) 24 ||| place (regBits rd) 21 ||| place (regBits ra) 18
  | .rsChien ra => 0x90000000#32 ||| place (regBits ra) 18
  | .rsForney c ra rb => 0x94000000#32 ||| place (codeBits c) 24 ||| place (regBits ra) 18 ||| place (regBits rb) 15

end Sys2Proof
end

