-- ==== Sys2Proof/Machine/Field.lean ====
section
/-! DEFINITION. The field GF(64) (spec/40_gf.md R130 to R136), its tables computed from FIELD_POLY by the rule that
defines them. -/

namespace Sys2Proof.Machine

open Sys2Proof

/-- One turn of the loop of R131: shift left into 7 bits, reduce by FIELD_POLY. It is the product by alpha. -/
def timesAlpha (v : Elem) : Elem :=
  let w : BitVec 7 := v.setWidth 7 <<< 1
  (if w.getLsbD 6 then w ^^^ Config.fieldPoly else w).setWidth 6

/-- `n` successive entries of the antilog table from the entry `v` on (R131). -/
def expFrom : Nat → Elem → List Elem
  | 0, _ => []
  | n + 1, v => v :: expFrom n (timesAlpha v)

/-- EXP[0..62] (R131). -/
def expTable : List Elem := expFrom Config.order 1

/-- Elements as one read-only number, entry `i` in bits [6i+5:6i] (R49: the tables stand in read-only storage). -/
def packElems (l : List Elem) : Nat := l.foldr (fun v rom => rom <<< 6 ||| v.toNat) 0

/-- The storage of EXP. -/
def expRom : Nat := packElems expTable

/-- EXP[i], for i in 0..62 (R131). -/
def gfExp (i : Nat) : Elem := BitVec.ofNat 6 (expRom >>> (6 * i))

/-- The storage of LOG, filled by the second loop of R131: for i in 0..62, LOG[EXP[i]] <- i. -/
def logRom : Nat := (List.range Config.order).foldl (fun rom i => rom ||| i <<< (6 * (gfExp i).toNat)) 0

/-- LOG[v] (R131). LOG[0] is the free value `Config.logOfZero`, which no command consults. -/
def gfLog (v : Elem) : Nat := if v = 0 then Config.logOfZero else (logRom >>> (6 * v.toNat)) % 64

/-- `a ⊕ b` (R133). -/
def gfAdd (a b : Elem) : Elem := a ^^^ b

/-- `a ⊗ b` (R134). -/
def gfMul (a b : Elem) : Elem := if a = 0 ∨ b = 0 then 0 else gfExp ((gfLog a + gfLog b) % Config.order)

/-- `gf_inv(a)`, for a non-zero (R135). -/
def gfInv (a : Elem) : Elem := gfExp ((Config.order - gfLog a) % Config.order)

/-- `gf_div(a, b)`, for b non-zero (R135). -/
def gfDiv (a b : Elem) : Elem := gfMul a (gfInv b)

/-- `alpha^e` (R136). -/
def alphaPow (e : Nat) : Elem := gfExp (e % Config.order)

/-- `alpha^(-p)` (R136). -/
def alphaNeg (p : Nat) : Elem := gfExp ((Config.order - p % Config.order) % Config.order)

/-- The field sum of `f 0, …, f (n-1)`. -/
def gfSum (n : Nat) (f : Nat → Elem) : Elem := (List.range n).foldl (fun acc i => gfAdd acc (f i)) 0

end Sys2Proof.Machine
end

