-- ==== Sys2Proof/Machine/Poly.lean ====
section
/-! DEFINITION. The polynomial functions (spec/41_poly.md R161 to R164) on registers of capacity 36. -/

namespace Sys2Proof.Machine

open Sys2Proof

/-- Coefficient `i`; there is none at an index of 36 or more, so it is 0 there (R160). -/
def coeff (p : PolyReg) (i : Nat) : Elem := if h : i < 36 then p[i] else 0

/-- The polynomial with coefficient `i` replaced; an index of 36 or more has no slot. -/
def setCoeff (p : PolyReg) (i : Nat) (v : Elem) : PolyReg := if h : i < 36 then p.set i v else p

/-- The polynomial with the given coefficients. -/
def polyOf (f : Nat → Elem) : PolyReg := Vector.ofFn fun i : Fin 36 => f i.val

/-- The zero polynomial. -/
def polyZero : PolyReg := Vector.replicate 36 0

/-- The polynomial 1. -/
def polyOne : PolyReg := polyOf fun i => if i = 0 then 1 else 0

/-- deg(p): the highest index with a non-zero coefficient, none (UNDEF) for the zero polynomial (R161). -/
def deg (p : PolyReg) : Option Nat := (List.range 36).reverse.find? fun i => coeff p i != 0

/-- Horner's method over the capacity `c`, from the highest index down (R162). -/
def evalCap (c : Nat) (p : PolyReg) (x : Elem) : Elem :=
  (p.toList.take c).foldr (fun a acc => gfAdd (gfMul acc x) a) 0

/-- eval(p, x) over the capacity 36 of a register (R162). -/
def eval (p : PolyReg) (x : Elem) : Elem := evalCap 36 p x

/-- padd(a, b) (R163). -/
def padd (a b : PolyReg) : PolyReg := polyOf fun i => gfAdd (coeff a i) (coeff b i)

/-- pmul(a, b), the convolution (R163); R167 calls it only where no term falls beyond the capacity. -/
def pmul (a b : PolyReg) : PolyReg := polyOf fun m => gfSum (m + 1) fun i => gfMul (coeff a i) (coeff b (m - i))

/-- The formal derivative: coefficient j is p[j+1] when j+1 is odd, else 0 (R164). -/
def deriv (p : PolyReg) : PolyReg := polyOf fun j => if (j + 1) % 2 = 1 then coeff p (j + 1) else 0

/-- The product degree of two non-zero polynomials exceeds POLY_CAP - 1 (R167). -/
def mulOverflows (a b : PolyReg) : Bool :=
  match deg a, deg b with
  | some da, some db => decide (35 < da + db)
  | _, _ => false

end Sys2Proof.Machine
end

