-- ==== Sys2Proof/Machine/Bmcf.lean ====
section
/-! DEFINITION. The decoding functions (spec/42_bmcf.md R191 to R198): syndromes, Berlekamp-Massey, Chien, Forney. -/

namespace Sys2Proof.Machine

open Sys2Proof

/-- The syndromes s_1..s_t2 of a word polynomial over the logical capacity n (R191); entry i of the list is s_(i+1). -/
def syndromes (q : CodeParams) (r : PolyReg) : List Elem :=
  (List.range q.t2).map fun i => evalCap q.n r (alphaPow (i + 1))

/-- Every syndrome is zero: the word is a codeword (R191). -/
def allZero (s : List Elem) : Bool := s.all fun v => v == 0

/-- The syndrome polynomial: coefficient i-1 is s_i, every coefficient from t2 on is 0 (R192). -/
def synPoly (s : List Elem) : PolyReg := polyOf fun i => s.getD i 0

/-- The syndromes a register holds in the layout of R192: s_i is coefficient i-1, for i in 1..t2. -/
def synOfReg (t2 : Nat) (p : PolyReg) : List Elem := (List.range t2).map fun i => coeff p i

/-- The variables of the loop of R193. -/
structure BmState where
  sigma : PolyReg
  prev : PolyReg
  len : Nat
  shift : Nat
  disc : Elem
deriving DecidableEq, Repr

/-- C = B = 1, L = 0, m = 1, b = 1 (R193). -/
def bmInit : BmState := ⟨polyOne, polyOne, 0, 1, 1⟩

/-- delta of step r: s[r+1] ⊕ the sum over j in 1..L of C[j] ⊗ s[r+1-j] (R193). -/
def bmDelta (s : List Elem) (b : BmState) (r : Nat) : Elem :=
  gfAdd (s.getD r 0) (gfSum b.len fun j => gfMul (coeff b.sigma (j + 1)) (s.getD (r - (j + 1)) 0))

/-- C ⊕ coef ⊗ B, shifted up by m (R193). -/
def bmUpdate (b : BmState) (coef : Elem) : PolyReg :=
  polyOf fun i =>
    if i < b.shift then coeff b.sigma i else gfAdd (coeff b.sigma i) (gfMul coef (coeff b.prev (i - b.shift)))

/-- Step r of the loop of R193. -/
def bmStep (s : List Elem) (b : BmState) (r : Nat) : BmState :=
  let delta := bmDelta s b r
  if delta = 0 then { b with shift := b.shift + 1 }
  else
    let next := bmUpdate b (gfDiv delta b.disc)
    if 2 * b.len ≤ r then ⟨next, b.sigma, r + 1 - b.len, 1, delta⟩
    else { b with sigma := next, shift := b.shift + 1 }

/-- The loop variables after the steps 0..r-1 (R193). -/
def bmRun (s : List Elem) (r : Nat) : BmState := (List.range r).foldl (bmStep s) bmInit

/-- bm(s[1..t2]): the locator σ and the LFSR length L are `.sigma` and `.len` (R193). -/
def bm (s : List Elem) : BmState := bmRun s s.length

/-- chien(σ): the positions 0..62, ascending, whose alpha^(-p) is a root (R195). -/
def chien (sigma : PolyReg) : List Nat := (List.range 63).filter fun p => eval sigma (alphaNeg p) == 0

/-- The error evaluator: S·σ below degree t2 (R197). -/
def evaluator (syn sigma : PolyReg) (t2 : Nat) : PolyReg :=
  polyOf fun i => if i < t2 then gfSum (i + 1) fun j => gfMul (coeff syn j) (coeff sigma (i - j)) else 0

/-- The denominator at a position (R198). -/
def forneyDen (sigma : PolyReg) (p : Nat) : Elem := eval (deriv sigma) (alphaNeg p)

/-- The error magnitude at a position (R198), used only where the denominator is not zero (R208). -/
def forneyMag (omega sigma : PolyReg) (p : Nat) : Elem := gfDiv (eval omega (alphaNeg p)) (forneyDen sigma p)

end Sys2Proof.Machine
end

