-- ==== Sys2Proof/Machine/Flags.lean ====
section
/-! DEFINITION. STATUS words and their fields (spec/10_state.md R38 to R40), fault kinds and their bits
(spec/60_exceptions.md R274). -/

namespace Sys2Proof.Machine

open Sys2Proof

/-- The failure codes 1..6 (R40); 0 is no failure and 7 is never produced. -/
inductive FailCode
  | bounds
  | locatorInvalid
  | rootMismatch
  | forneyZero
  | positionOob
  | locatorZero
deriving DecidableEq, Repr

/-- The number of a failure code (R40). -/
def failNumber : FailCode → BitVec 3
  | .bounds => 1
  | .locatorInvalid => 2
  | .rootMismatch => 3
  | .forneyZero => 4
  | .positionOob => 5
  | .locatorZero => 6

/-- The six fault kinds (R274). -/
inductive FaultKind
  | illegal
  | logZero
  | divZero
  | polyOvf
  | range
  | busErr
deriving DecidableEq, Repr

/-- The FAULT bit of a kind (R42, R274). -/
def faultBit : FaultKind → Nat
  | .illegal => 0
  | .logZero => 1
  | .divZero => 2
  | .polyOvf => 3
  | .range => 4
  | .busErr => 5

/-- 1 << bit(KIND) in the six implemented bits of FAULT (R272). -/
def faultMask (k : FaultKind) : BitVec 6 := 1#6 <<< faultBit k

/-- STATUS after `ok()` (R275). -/
def statusOk : Word := 0x00000001#32

/-- STATUS after a command that found every syndrome zero: OK and SYNZERO (R200, R238). -/
def statusOkSynZero : Word := 0x00000009#32

/-- STATUS after POLY.DEG of the zero polynomial: OK and DEGUNDEF (R169). -/
def statusOkDegUndef : Word := 0x00000011#32

/-- STATUS after a fault: FAULTED (R272). -/
def statusFaulted : Word := 0x00000004#32

/-- STATUS after `fail(c)` (R276). -/
def statusFail (c : FailCode) : Word := 0x00000002#32 ||| (zext (failNumber c) <<< 8)

/-- STATUS.OK (R38). -/
def statusOK (w : Word) : Bool := w.getLsbD 0

/-- STATUS.FAIL (R38). -/
def statusFAIL (w : Word) : Bool := w.getLsbD 1

/-- STATUS.FAULTED (R38). -/
def statusFAULTED (w : Word) : Bool := w.getLsbD 2

/-- STATUS.SYNZERO (R38). -/
def statusSYNZERO (w : Word) : Bool := w.getLsbD 3

/-- STATUS.DEGUNDEF (R38). -/
def statusDEGUNDEF (w : Word) : Bool := w.getLsbD 4

/-- STATUS.FAILCODE (R38). -/
def statusFAILCODE (w : Word) : BitVec 3 := w.extractLsb' 8 3

end Sys2Proof.Machine
end

