-- ==== Sys2Proof/Machine/State.lean ====
section
/-! DEFINITION. The state of the engine (spec/10_state.md R30), the reasons a step can stop, and the state after reset
(spec/70_reset_and_hazards.md R302). ID, VERSION, CONFIG and the tables EXP, LOG and GEN are constants of the machine
(R33 to R35, R49): they stand in Config.lean and Machine/Field.lean and Machine/Codec.lean, and IRQ is a function of the
state (R51). -/

namespace Sys2Proof.Machine

open Sys2Proof

/-- The engine has no fault that stops it: every fault of the spec is a sticky FAULT bit and the machine goes on
(spec/60_exceptions.md R273). So this type has no constructor, and no step answers a fault (DEDUCED, notes/assumptions/14.md). -/
inductive Fault
deriving DecidableEq, Repr

/-- Why a step has no meaning. -/
inductive Refusal
  /-- An instruction without a meaning yet; no arm of exec raises it. Safe. -/
  | notModelled (mnemonic : String)
  /-- A host access while `rst_n` = 0, raised by the bus: R300 says a model refuses it. Safe. -/
  | accessInReset
  /-- An access by a second bus master, raised by the bus: R84 says a model refuses it. Safe. -/
  | secondMaster
deriving DecidableEq, Repr

/-- An entry of the error list: POS a degree index, MAG an error magnitude (R48). -/
structure ErrEntry where
  pos : BitVec 6
  mag : Elem
deriving DecidableEq, Repr

/-- What the outside does to the engine's ports (spec/20_memory.md R70): one transaction or one change of a pin. -/
inductive HostEvent
  /-- The host reads the word at a byte offset: sel = 1, we = 0. -/
  | read (off : Offset)
  /-- The host writes a word at a byte offset: sel = 1, we = 1. -/
  | write (off : Offset) (v : Word)
  /-- `rst_n` is driven to a level (R300). -/
  | resetPin (level : Bool)
  /-- A bus master other than the engine's one host presents an access (R84). -/
  | otherMaster (off : Offset)
deriving DecidableEq, Repr

/-- What the ports `ready` and `rdata` show after a step (R70). -/
inductive BusReply
  /-- `ready` is not asserted: the step performed no access. -/
  | idle
  /-- A read completed with this word on `rdata`. -/
  | readDone (v : Word)
  /-- A write completed. -/
  | writeDone
deriving DecidableEq, Repr

/-- Everything the spec gives the engine that can change (R30), then three fields of the model's own: the level of the
pin `rst_n`, what the bus outputs show, and the host's accesses still to be performed, oldest first (R81). -/
structure State where
  /-- CTRL.FIE, the one stored bit of CTRL (R36). -/
  fie : Bool
  /-- CMD: the last word written to it (R37). -/
  cmd : Word
  /-- STATUS (R38). -/
  status : Word
  /-- RESULT (R41). -/
  result : Word
  /-- FAULT: its six implemented bits (R42). -/
  fault : BitVec 6
  /-- FAULTINFO (R43). -/
  faultInfo : Word
  /-- ERRCNT: its six implemented bits (R44). -/
  errCnt : BitVec 6
  /-- CMDCOUNT (R45). -/
  cmdCount : Word
  /-- SYM[0..35] (R46). -/
  sym : SymBuf
  /-- ERRLIST[0..35] (R48). -/
  errList : Vector ErrEntry 36
  /-- P[0..7][0..35] (R47). -/
  polys : Vector PolyReg 8
  /-- The level of `rst_n` (R70, R300). DESIGN CHOICE: held as state (notes/assumptions/2.md). -/
  rstN : Bool
  /-- The bus outputs (R70). DESIGN CHOICE: held as state (notes/assumptions/3.md). -/
  bus : BusReply
  /-- Host accesses and pin changes still to come, oldest first: the model's own field. DESIGN CHOICE
  (notes/assumptions/1.md). -/
  pending : List HostEvent
deriving DecidableEq, Repr

/-- The state after reset (R302): every mutable cell 0, `rst_n` high and the engine waiting for an access (R303). -/
def State.reset : State where
  fie := false
  cmd := 0
  status := 0
  result := 0
  fault := 0
  faultInfo := 0
  errCnt := 0
  cmdCount := 0
  sym := Vector.replicate 36 0
  errList := Vector.replicate 36 ⟨0, 0⟩
  polys := Vector.replicate 8 (Vector.replicate 36 0)
  rstN := true
  bus := .idle
  pending := []

/-- The interrupt output: IRQ = CTRL.FIE and (FAULT != 0), at every moment (R51, R279). -/
def State.irq (s : State) : Bool := s.fie && decide (s.fault ≠ 0)

end Sys2Proof.Machine
end

