-- ==== Sys2Proof/Machine/Operands.lean ====
section
/-! DEFINITION. How a command reads its operands from the state (spec/30_encoding.md R107, spec/43_rs.md R232). A scalar
operand is a field of the command itself (spec/10_state.md R31). -/

namespace Sys2Proof.Machine

open Sys2Proof

/-- SYM[i]; there is no slot at an index of 36 or more, so it is 0 there (R46). -/
def symAt (sym : SymBuf) (i : Nat) : Elem := if h : i < 36 then sym[i] else 0

/-- P[r] (R47). -/
def State.poly (s : State) (r : RegNo) : PolyReg := s.polys[r]

/-- word_poly(CODE): degree p holds buffer index n-1-p, and 0 from n on (R232). -/
def wordPoly (c : Code) (sym : SymBuf) : PolyReg :=
  polyOf fun p => if p < (Config.params c).n then symAt sym ((Config.params c).n - 1 - p) else 0

/-- The valid entries of the error list: entries 0..ERRCNT-1 (R44, R48). -/
def State.errEntries (s : State) : List ErrEntry := s.errList.toList.take s.errCnt.toNat

end Sys2Proof.Machine
end

