-- ==== Sys2Proof/Machine/Ops.lean ====
section
/-! DEFINITION. The operations the commands share: one setter per register, the outcomes of spec/60_exceptions.md
(ok R275, fail R276, raise Fault R272, bus_fault R281), write_errlist (spec/42_bmcf.md R205) and the reset of
spec/70_reset_and_hazards.md R301. The engine has no trap entry and no return: a fault saves no program counter, changes
no mode and transfers no control (R277), and the one way back is the FAULT write, `clearFault`. -/

namespace Sys2Proof.Machine

open Sys2Proof

/-- CTRL.FIE <- b. -/
def State.setFie (b : Bool) (s : State) : State := { s with fie := b }

/-- STATUS <- w. -/
def State.setStatus (w : Word) (s : State) : State := { s with status := w }

/-- RESULT <- w. -/
def State.setResult (w : Word) (s : State) : State := { s with result := w }

/-- FAULT <- f. -/
def State.setFault (f : BitVec 6) (s : State) : State := { s with fault := f }

/-- FAULTINFO <- w. -/
def State.setFaultInfo (w : Word) (s : State) : State := { s with faultInfo := w }

/-- SYM <- v, every slot. -/
def State.setSym (v : SymBuf) (s : State) : State := { s with sym := v }

/-- P[r] <- p. -/
def State.setPoly (r : RegNo) (p : PolyReg) (s : State) : State := { s with polys := s.polys.set r p }

/-- ERRLIST <- v, every entry. -/
def State.setErrList (v : Vector ErrEntry 36) (s : State) : State := { s with errList := v }

/-- ERRCNT <- n. -/
def State.setErrCnt (n : BitVec 6) (s : State) : State := { s with errCnt := n }

/-- What the bus outputs show. -/
def State.setBus (b : BusReply) (s : State) : State := { s with bus := b }

/-- CMD <- w; CMDCOUNT <- (CMDCOUNT + 1) mod 2^32 (R37). -/
def State.recordCommand (w : Word) (s : State) : State := { s with cmd := w, cmdCount := s.cmdCount + 1 }

/-- `ok()` (R275). -/
def ok (s : State) : State := s.setStatus statusOk

/-- `fail(c)` (R276). -/
def fail (c : FailCode) (s : State) : State := s.setStatus (statusFail c)

/-- RESULT <- w; ok(). -/
def okWith (w : Word) (s : State) : State := ok (s.setResult w)

/-- RESULT <- w; fail(c). -/
def failWith (w : Word) (c : FailCode) (s : State) : State := fail c (s.setResult w)

/-- FAULTINFO captures the cause only while FAULT = 0, then the kind's bit is set: the part R272 and R281 share
(R43, R278). -/
def recordFault (k : FaultKind) (info : Word) (s : State) : State :=
  (if s.fault = 0 then s.setFaultInfo info else s).setFault (s.fault ||| faultMask k)

/-- `raise Fault(KIND, info)` inside a command (R272): nothing else changes. -/
def raiseFault (k : FaultKind) (info : Word) (s : State) : State := (recordFault k info s).setStatus statusFaulted

/-- A command fault: info is the command word, which CMD holds when the command executes (R37, R274; DEDUCED,
notes/assumptions/5.md). -/
def commandFault (k : FaultKind) (s : State) : State := raiseFault k s.cmd s

/-- `bus_fault(KIND, off)` (R281): STATUS, RESULT, CMD and CMDCOUNT stay. -/
def busFault (k : FaultKind) (off : Offset) (s : State) : State := recordFault k (zext off) s

/-- The FAULT write: FAULT <- FAULT and not w[5:0] (R42, R277). -/
def clearFault (w : Word) (s : State) : State := s.setFault (s.fault &&& ~~~(w.extractLsb' 0 6))

/-- `write_errlist(list)` (R205). -/
def writeErrList (l : List ErrEntry) (s : State) : State :=
  (s.setErrList (Vector.ofFn fun j : Fin 36 => l.getD j.val ⟨0, 0⟩)).setErrCnt (BitVec.ofNat 6 l.length)

/-- Every piece of mutable state takes its reset value (R301, R302); the pin, the bus outputs and the host's accesses
are not the engine's state. -/
def resetEngine (s : State) : State := { State.reset with rstN := s.rstN, bus := s.bus, pending := s.pending }

/-- A write to CTRL (R36): bit 1 resets the engine, else bit 0 is FIE; the reserved bits are ignored. -/
def writeCtrl (w : Word) (s : State) : State := if w.getLsbD 1 then resetEngine s else s.setFie (w.getLsbD 0)

/-- `rst_n` is driven to a level (R300): the engine is held in reset while it is 0 and starts from the reset state when
it returns to 1. -/
def drivePin (level : Bool) (s : State) : State :=
  if level && s.rstN then s else { resetEngine s with rstN := level }

end Sys2Proof.Machine
end

