-- ==== Sys2Proof/Machine/BmcfCommands.lean ====
section
/-! DEFINITION. The decoder step commands (spec/42_bmcf.md R200 to R208). -/

namespace Sys2Proof.Machine

open Sys2Proof

/-- RS.SYND (R200). -/
def execRsSynd (c : Code) (rd : RegNo) (s : State) : Host.Outcome State Fault Refusal :=
  let syn := syndromes (Config.params c) (wordPoly c s.sym)
  let t := s.setPoly rd (synPoly syn)
  .next (if allZero syn then (t.setResult 1).setStatus statusOkSynZero else okWith 0 t)

/-- RS.ELP (R202, R203): RESULT = deg(σ) | L << 8. deg(σ) is always defined (R194 (d); notes/assumptions/11.md). -/
def execRsElp (c : Code) (rd ra : RegNo) (s : State) : Host.Outcome State Fault Refusal :=
  let b := bm (synOfReg (Config.params c).t2 (s.poly ra))
  let d := (deg b.sigma).getD 0
  .next (okWith (BitVec.ofNat 32 d ||| BitVec.ofNat 32 b.len <<< 8) (s.setPoly rd b.sigma))

/-- RS.CHIEN (R204): the error list is written even when the check fails. -/
def execRsChien (ra : RegNo) (s : State) : Host.Outcome State Fault Refusal :=
  match deg (s.poly ra) with
  | none => .next (failWith 0 .locatorZero (writeErrList [] s))
  | some d =>
    let roots := chien (s.poly ra)
    let t := (writeErrList (roots.map fun p => ⟨BitVec.ofNat 6 p, 0⟩) s).setResult (BitVec.ofNat 32 roots.length)
    .next (if roots.length ≠ d then fail .rootMismatch t else ok t)

/-- RS.FORNEY (R207, R208): no magnitude is written unless every denominator is non-zero. -/
def execRsForney (c : Code) (ra rb : RegNo) (s : State) : Host.Outcome State Fault Refusal :=
  let sigma := s.poly ra
  let omega := evaluator (s.poly rb) sigma (Config.params c).t2
  .next (if s.errEntries.any fun e => forneyDen sigma e.pos.toNat == 0 then failWith 0 .forneyZero s
    else okWith (zext s.errCnt) (s.setErrList (Vector.ofFn fun j : Fin 36 =>
      if j.val < s.errCnt.toNat then ⟨s.errList[j].pos, forneyMag omega sigma s.errList[j].pos.toNat⟩
      else s.errList[j])))

end Sys2Proof.Machine
end

