-- ==== Sys2Proof/Machine/Control.lean ====
section
/-! DEFINITION. The engine control command (spec/44_control.md). -/

namespace Sys2Proof.Machine

open Sys2Proof

/-- NOP (R260). -/
def execNop (s : State) : Host.Outcome State Fault Refusal := .next (okWith 0 s)

end Sys2Proof.Machine
end

