-- ==== Sys2Proof/Machine/GfCommands.lean ====
section
/-! DEFINITION. The GF scalar commands (spec/40_gf.md R140 to R146): each reads only its immediate fields. -/

namespace Sys2Proof.Machine

open Sys2Proof

/-- GF.ADD (R140). -/
def execGfAdd (a b : Elem) (s : State) : Host.Outcome State Fault Refusal := .next (okWith (zext (gfAdd a b)) s)

/-- GF.MUL (R141). -/
def execGfMul (a b : Elem) (s : State) : Host.Outcome State Fault Refusal := .next (okWith (zext (gfMul a b)) s)

/-- GF.DIV (R142): DIVZERO when B = 0. -/
def execGfDiv (a b : Elem) (s : State) : Host.Outcome State Fault Refusal :=
  .next (if b = 0 then commandFault .divZero s else okWith (zext (gfDiv a b)) s)

/-- GF.INV (R144): DIVZERO when A = 0. -/
def execGfInv (a : Elem) (s : State) : Host.Outcome State Fault Refusal :=
  .next (if a = 0 then commandFault .divZero s else okWith (zext (gfInv a)) s)

/-- GF.LOG (R145): LOGZERO when A = 0. -/
def execGfLog (a : Elem) (s : State) : Host.Outcome State Fault Refusal :=
  .next (if a = 0 then commandFault .logZero s else okWith (BitVec.ofNat 32 (gfLog a)) s)

/-- GF.EXP (R143). -/
def execGfExp (e : Exponent) (s : State) : Host.Outcome State Fault Refusal :=
  .next (okWith (zext (alphaPow e.val)) s)

/-- GF.ISZ (R146). -/
def execGfIsz (a : Elem) (s : State) : Host.Outcome State Fault Refusal := .next (okWith (if a = 0 then 1 else 0) s)

end Sys2Proof.Machine
end

