-- ==== Sys2Proof/Machine/PolyCommands.lean ====
section
/-! DEFINITION. The polynomial commands (spec/41_poly.md R165 to R171). Each reads its sources from the state before it
writes its destination (spec/00_scope.md R11). -/

namespace Sys2Proof.Machine

open Sys2Proof

/-- POLY.CLR (R165). -/
def execPolyClr (rd : RegNo) (s : State) : Host.Outcome State Fault Refusal :=
  .next (okWith 0 (s.setPoly rd polyZero))

/-- POLY.ADD (R166). -/
def execPolyAdd (rd ra rb : RegNo) (s : State) : Host.Outcome State Fault Refusal :=
  .next (okWith 0 (s.setPoly rd (padd (s.poly ra) (s.poly rb))))

/-- POLY.MUL (R167): POLYOVF when the degrees of two non-zero operands sum to more than 35. -/
def execPolyMul (rd ra rb : RegNo) (s : State) : Host.Outcome State Fault Refusal :=
  .next (if mulOverflows (s.poly ra) (s.poly rb) then commandFault .polyOvf s
    else okWith 0 (s.setPoly rd (pmul (s.poly ra) (s.poly rb))))

/-- POLY.EVAL (R168). -/
def execPolyEval (ra : RegNo) (val : Elem) (s : State) : Host.Outcome State Fault Refusal :=
  .next (okWith (zext (eval (s.poly ra) val)) s)

/-- POLY.DEG (R169): the zero polynomial is a defined result, with DEGUNDEF. -/
def execPolyDeg (ra : RegNo) (s : State) : Host.Outcome State Fault Refusal :=
  match deg (s.poly ra) with
  | none => .next ((s.setResult 0xFFFFFFFF#32).setStatus statusOkDegUndef)
  | some d => .next (okWith (BitVec.ofNat 32 d) s)

/-- POLY.GETC (R170): an index of 36 or more fails with BOUNDS. -/
def execPolyGetc (ra : RegNo) (idx : CoeffIdx) (s : State) : Host.Outcome State Fault Refusal :=
  .next (if 36 ≤ idx.val then failWith 0 .bounds s else okWith (zext (coeff (s.poly ra) idx.val)) s)

/-- POLY.SETC (R171): an index of 36 or more fails with BOUNDS and writes nothing. -/
def execPolySetc (rd : RegNo) (idx : CoeffIdx) (val : Elem) (s : State) : Host.Outcome State Fault Refusal :=
  .next (if 36 ≤ idx.val then failWith 0 .bounds s
    else okWith 0 (s.setPoly rd (setCoeff (s.poly rd) idx.val val)))

end Sys2Proof.Machine
end

