-- ==== Sys2Proof/Machine/Codec.lean ====
section
/-! DEFINITION. The Reed-Solomon codec (spec/43_rs.md): generator polynomial and matrices computed from their rules
(R233, R234), the parity of R236, and the decoder of R238 as a function of the buffer. -/

namespace Sys2Proof.Machine

open Sys2Proof

/-- g ⊗ (x ⊕ c). -/
def mulRoot (g : PolyReg) (c : Elem) : PolyReg :=
  polyOf fun i => gfAdd (if i = 0 then 0 else coeff g (i - 1)) (gfMul c (coeff g i))

/-- The generator polynomial g(x), the product of x ⊕ alpha^i for i in 1..t2 (R233). -/
def genPoly (t2 : Nat) : PolyReg := (List.range t2).foldl (fun g i => mulRoot g (alphaPow (i + 1))) polyOne

/-- x ⊗ p mod g, for a monic g of degree t2 and p of lower degree. -/
def timesXMod (g : PolyReg) (t2 : Nat) (p : PolyReg) : PolyReg :=
  polyOf fun i =>
    if i < t2 then gfAdd (if i = 0 then 0 else coeff p (i - 1)) (gfMul (coeff p (t2 - 1)) (coeff g i)) else 0

/-- `m` successive remainders x^e mod g, x^(e+1) mod g, … from the first one given. -/
def remaindersFrom (g : PolyReg) (t2 : Nat) : Nat → PolyReg → List PolyReg
  | 0, _ => []
  | m + 1, p => p :: remaindersFrom g t2 m (timesXMod g t2 p)

/-- x^0 mod g, …, x^(n-1) mod g for the code's g (R234), each from the one before it (DEDUCED,
notes/assumptions/12.md). -/
def remainders (q : CodeParams) : List PolyReg := remaindersFrom (genPoly q.t2) q.t2 q.n polyOne

/-- GEN as read-only storage: row j, column i at entry j*k+i holds the coefficient of x^(t2-1-j) in
x^(n-1-i) mod g(x) (R49, R234). -/
def genRomOf (q : CodeParams) : Nat :=
  let rems := remainders q
  packElems ((List.range q.t2).flatMap fun j =>
    (List.range q.k).map fun i => coeff (rems.getD (q.n - 1 - i) polyZero) (q.t2 - 1 - j))

/-- GEN_SHORT (R49). -/
def genShort : Nat := genRomOf (Config.params .short)

/-- GEN_MEDIUM (R49). -/
def genMedium : Nat := genRomOf (Config.params .medium)

/-- GEN_LONG (R49). -/
def genLong : Nat := genRomOf (Config.params .long)

/-- The storage of a code's generator matrix. -/
def genRom : Code → Nat
  | .short => genShort
  | .medium => genMedium
  | .long => genLong

/-- GEN[CODE][j][i] (R234). -/
def genEntry (c : Code) (j i : Nat) : Elem :=
  BitVec.ofNat 6 (genRom c >>> (6 * (j * (Config.params c).k + i)))

/-- The parity symbol of row j: the dot product of the row with the data symbols (R236). -/
def parity (c : Code) (sym : SymBuf) (j : Nat) : Elem :=
  gfSum (Config.params c).k fun i => gfMul (genEntry c j i) (symAt sym i)

/-- The buffer after RS.ENC: SYM[k..n-1] hold the parity, every other slot is as before (R231, R236). -/
def encodeBuf (c : Code) (sym : SymBuf) : SymBuf :=
  Vector.ofFn fun x : Fin 36 =>
    if (Config.params c).k ≤ x.val ∧ x.val < (Config.params c).n then parity c sym (x.val - (Config.params c).k)
    else sym[x]

/-- How RS.DEC ends (R238). -/
inductive DecOutcome
  /-- Every syndrome is zero: no correction. -/
  | clean
  /-- The failure exit of R241, with its code. -/
  | failed (c : FailCode)
  /-- The locator's degree and one entry per root, in ascending position. -/
  | corrected (d : Nat) (es : List ErrEntry)
deriving DecidableEq, Repr

/-- The checks and computations of RS.DEC in the order of R238 and R244. -/
def decodeBuf (c : Code) (sym : SymBuf) : DecOutcome :=
  let q := Config.params c
  let s := syndromes q (wordPoly c sym)
  if allZero s then .clean
  else
    let b := bm s
    match deg b.sigma with
    | none => .failed .locatorInvalid
    | some d =>
      if d ≠ b.len ∨ q.t < b.len then .failed .locatorInvalid
      else
        let roots := chien b.sigma
        if roots.length ≠ d then .failed .rootMismatch
        else if roots.any fun p => forneyDen b.sigma p == 0 then .failed .forneyZero
        else if roots.any fun p => decide (q.n ≤ p) then .failed .positionOob
        else
          let omega := evaluator (synPoly s) b.sigma q.t2
          .corrected d (roots.map fun p => ⟨BitVec.ofNat 6 p, forneyMag omega b.sigma p⟩)

/-- r[p] <- r[p] ⊕ mag[p] for each correction (R238). -/
def applyCorrections (r : PolyReg) (es : List ErrEntry) : PolyReg :=
  es.foldl (fun r e => setCoeff r e.pos.toNat (gfAdd (coeff r e.pos.toNat) e.mag)) r

/-- The buffer after a successful RS.DEC: SYM[i] <- r[n-1-i] for i in 0..k-1, every other slot as before (R240). -/
def correctBuf (c : Code) (sym : SymBuf) (es : List ErrEntry) : SymBuf :=
  let r := applyCorrections (wordPoly c sym) es
  Vector.ofFn fun i : Fin 36 =>
    if i.val < (Config.params c).k then coeff r ((Config.params c).n - 1 - i.val) else sym[i]

end Sys2Proof.Machine
end

