-- ==== Sys2Proof/Machine/RsCommands.lean ====
section
/-! DEFINITION. The codec commands (spec/43_rs.md R236, R238 to R241). -/

namespace Sys2Proof.Machine

open Sys2Proof

/-- RS.ENC (R236). -/
def execRsEnc (c : Code) (s : State) : Host.Outcome State Fault Refusal :=
  .next (okWith 0 (s.setSym (encodeBuf c s.sym)))

/-- `dec_fail(c)` (R241): no SYM slot and no polynomial register is written. -/
def decFail (c : FailCode) (s : State) : State := failWith 0 c (writeErrList [] s)

/-- RS.DEC (R238 to R244). -/
def execRsDec (c : Code) (s : State) : Host.Outcome State Fault Refusal :=
  match decodeBuf c s.sym with
  | .clean => .next (((writeErrList [] s).setResult 0).setStatus statusOkSynZero)
  | .failed f => .next (decFail f s)
  | .corrected d es => .next (okWith (BitVec.ofNat 32 d) (writeErrList es (s.setSym (correctBuf c s.sym es))))

end Sys2Proof.Machine
end

