-- ==== Sys2Proof/Machine/Dispatch.lean ====
section
/-! DEFINITION. One arm per command of spec/opcode_table.json, each a direct call of its meaning. -/

namespace Sys2Proof.Machine

open Sys2Proof

/-- The command `i`, executed on the state in which CMD and CMDCOUNT already record it (spec/10_state.md R37). -/
def exec (i : Instr) (s : State) : Host.Outcome State Fault Refusal :=
  match i with
  | .nop => Sys2Proof.Machine.execNop s
  | .gfAdd a b => Sys2Proof.Machine.execGfAdd a b s
  | .gfMul a b => Sys2Proof.Machine.execGfMul a b s
  | .gfDiv a b => Sys2Proof.Machine.execGfDiv a b s
  | .gfInv a => Sys2Proof.Machine.execGfInv a s
  | .gfLog a => Sys2Proof.Machine.execGfLog a s
  | .gfExp e => Sys2Proof.Machine.execGfExp e s
  | .gfIsz a => Sys2Proof.Machine.execGfIsz a s
  | .polyClr rd => Sys2Proof.Machine.execPolyClr rd s
  | .polyAdd rd ra rb => Sys2Proof.Machine.execPolyAdd rd ra rb s
  | .polyMul rd ra rb => Sys2Proof.Machine.execPolyMul rd ra rb s
  | .polyEval ra val => Sys2Proof.Machine.execPolyEval ra val s
  | .polyDeg ra => Sys2Proof.Machine.execPolyDeg ra s
  | .polyGetc ra idx => Sys2Proof.Machine.execPolyGetc ra idx s
  | .polySetc rd idx val => Sys2Proof.Machine.execPolySetc rd idx val s
  | .rsEnc c => Sys2Proof.Machine.execRsEnc c s
  | .rsDec c => Sys2Proof.Machine.execRsDec c s
  | .rsSynd c rd => Sys2Proof.Machine.execRsSynd c rd s
  | .rsElp c rd ra => Sys2Proof.Machine.execRsElp c rd ra s
  | .rsChien ra => Sys2Proof.Machine.execRsChien ra s
  | .rsForney c ra rb => Sys2Proof.Machine.execRsForney c ra rb s

end Sys2Proof.Machine
end

