-- ==== Sys2Proof/Machine/Bus.lean ====
section
/-! DEFINITION. The host window (spec/20_memory.md): the address map of R74, reads and writes with the checks of R75, a
command issued by a write to CMD (spec/10_state.md R37), and the window seen as bytes (R72). The window is the engine's
only address space (R79) and every cell of it is a register of State, so State holds no separate memory: the bytes are
computed (DESIGN CHOICE, notes/assumptions/8.md). -/

namespace Sys2Proof.Machine

open Sys2Proof

/-- A mapped cell of the window: a row of the map of R74. -/
inductive WindowCell
  | id
  | version
  | config
  | ctrl
  | cmd
  | status
  | result
  | fault
  | faultInfo
  | errCnt
  | cmdCount
  | sym (i : Fin 36)
  | errEntry (j : Fin 36)
  | coeff (r : RegNo) (i : Fin 36)
deriving DecidableEq, Repr

/-- The registers 0x000..0x028, by word index (R74). -/
def registerAt : Nat → Option WindowCell
  | 0 => some .id
  | 1 => some .version
  | 2 => some .config
  | 3 => some .ctrl
  | 4 => some .cmd
  | 5 => some .status
  | 6 => some .result
  | 7 => some .fault
  | 8 => some .faultInfo
  | 9 => some .errCnt
  | 10 => some .cmdCount
  | _ => none

/-- The decode of an aligned offset (R74); none for an unmapped one. -/
def decodeOffset (off : Offset) : Option WindowCell :=
  let o := off.toNat
  if o < 0x02C then registerAt (o / 4)
  else if h : 0x100 ≤ o ∧ o < 0x190 then some (.sym ⟨(o - 0x100) / 4, by omega⟩)
  else if h : 0x200 ≤ o ∧ o < 0x290 then some (.errEntry ⟨(o - 0x200) / 4, by omega⟩)
  else if h : (0x400 ≤ o ∧ o < 0xC00) ∧ (o - 0x400) % 0x100 < 0x90 then
    some (.coeff ⟨(o - 0x400) / 0x100, by omega⟩ ⟨(o - 0x400) % 0x100 / 4, by omega⟩)
  else none

/-- off[1:0] = 0 (R73). -/
def aligned (off : Offset) : Bool := off.extractLsb' 0 2 == 0

/-- The word an error-list entry reads as: POS in [13:8], MAG in [5:0] (R48). -/
def entryWord (e : ErrEntry) : Word := (zext e.pos <<< 8) ||| zext e.mag

/-- What a mapped cell reads as (R33 to R48, R74); reserved bits read 0. -/
def readCell (s : State) : WindowCell → Word
  | .id => Config.idWord
  | .version => Config.versionWord
  | .config => Config.configWord
  | .ctrl => if s.fie then 1 else 0
  | .cmd => s.cmd
  | .status => s.status
  | .result => s.result
  | .fault => zext s.fault
  | .faultInfo => s.faultInfo
  | .errCnt => zext s.errCnt
  | .cmdCount => s.cmdCount
  | .sym i => zext s.sym[i]
  | .errEntry j => entryWord s.errList[j]
  | .coeff r i => zext (s.poly r)[i]

/-- The cell an access at `off` reaches: none when it is misaligned or unmapped, checks 1 and 2 of R75. -/
def accessCell (off : Offset) : Option WindowCell := if aligned off then decodeOffset off else none

/-- MemRead(off, 4): a mapped cell reads without side effect (R76), any other access reads 0 and raises BUSERR
(R73, R74, R281). -/
def hostRead (off : Offset) (s : State) : State :=
  match accessCell off with
  | some cell => s.setBus (.readDone (readCell s cell))
  | none => (busFault .busErr off s).setBus (.readDone 0)

/-- The command word `w` is executed: an illegal word raises ILLEGAL (R100, R280). -/
def runCommand (w : Word) (s : State) : Host.Outcome State Fault Refusal :=
  match decode w with
  | .ok i => exec i s
  | .error _ => .next (raiseFault .illegal w s)

/-- A write to CMD: record the word, then execute it (R37). -/
def issueCommand (w : Word) (s : State) : Host.Outcome State Fault Refusal := runCommand w (s.recordCommand w)

/-- w[31:6] = 0: the value fits a 6-bit slot (R46). -/
def fitsSlot (w : Word) : Bool := w.extractLsb' 6 26 == 0

/-- A write to SYM[i] (R46, R282). -/
def writeSym (i : Fin 36) (off : Offset) (w : Word) (s : State) : State :=
  if fitsSlot w then s.setSym (s.sym.set i (w.extractLsb' 0 6)) else busFault .range off s

/-- A write to P[r][i] (R47, R282). -/
def writeCoeff (r : RegNo) (i : Fin 36) (off : Offset) (w : Word) (s : State) : State :=
  if fitsSlot w then s.setPoly r ((s.poly r).set i (w.extractLsb' 0 6)) else busFault .range off s

/-- A write to a mapped cell: checks 3 and 4 of R75, then the effect the cell's rule gives. -/
def writeCell (cell : WindowCell) (off : Offset) (w : Word) (s : State) : Host.Outcome State Fault Refusal :=
  match cell with
  | .ctrl => .next (writeCtrl w s)
  | .cmd => issueCommand w s
  | .fault => .next (clearFault w s)
  | .sym i => .next (writeSym i off w s)
  | .coeff r i => .next (writeCoeff r i off w s)
  | .id => .next (busFault .busErr off s)
  | .version => .next (busFault .busErr off s)
  | .config => .next (busFault .busErr off s)
  | .status => .next (busFault .busErr off s)
  | .result => .next (busFault .busErr off s)
  | .faultInfo => .next (busFault .busErr off s)
  | .errCnt => .next (busFault .busErr off s)
  | .cmdCount => .next (busFault .busErr off s)
  | .errEntry _ => .next (busFault .busErr off s)

/-- MemWrite(off, 4, w) with the checks of R75. -/
def hostWrite (off : Offset) (w : Word) (s : State) : Host.Outcome State Fault Refusal :=
  match accessCell off with
  | some cell => writeCell cell off w (s.setBus .writeDone)
  | none => .next (busFault .busErr off (s.setBus .writeDone))

/-- One event at the ports. An access while `rst_n` = 0 (R300) and an access by a second master (R84) are refused. -/
def hostEvent (e : HostEvent) (s : State) : Host.Outcome State Fault Refusal :=
  match e with
  | .read off => if s.rstN then .next (hostRead off s) else .refused .accessInReset
  | .write off w => if s.rstN then hostWrite off w s else .refused .accessInReset
  | .resetPin level => .next (drivePin level s)
  | .otherMaster _ => .refused .secondMaster

/-- The engine with no access to perform: it waits (R303). -/
def waitForHost (s : State) : State := s.setBus .idle

/-- The next event is taken off the host's accesses; the outputs show nothing until it is performed. -/
def takeEvent (rest : List HostEvent) (s : State) : State := { s with bus := .idle, pending := rest }

/-- Performs the oldest access the host has presented, one at a time and completely (R71, R80, R81). -/
def performNext (s : State) : Host.Outcome State Fault Refusal :=
  match s.pending with
  | [] => .next (waitForHost s)
  | e :: rest => hostEvent e (takeEvent rest s)

/-- The offset of CMD (R74). -/
def cmdOffset : Offset := 0x010#12

/-- A host program of plain accesses that runs a command word first: it writes it to CMD (R116: `cmd`). -/
def presentCommand (w : Word) (s : State) : State :=
  { s with rstN := true, pending := .write cmdOffset w :: s.pending }

/-- The word at the aligned offset that holds byte address `a` of the window, 0 where nothing is mapped. -/
def windowWord (s : State) (a : Nat) : Word :=
  match decodeOffset (BitVec.ofNat 12 (a / 4 * 4)) with
  | some cell => readCell s cell
  | none => 0

/-- The byte at address `a` of the window: byte lane a mod 4 of its word (R72). Addresses from 4096 on are outside the
window and read 0 like every unmapped one. -/
def windowByte (s : State) (a : Nat) : Byte := if a < 4096 then byteLane (windowWord s a) (a % 4) else 0

/-- A list of cells in canonical form: addresses strictly rising, no cell equal to the 0 an unlisted address reads. -/
def memoryWf (m : List Host.Cell) : Bool :=
  (m.zip m.tail).all (fun p => decide (p.1.1 < p.2.1)) && m.all fun c => c.2 != 0

/-- The window as a list of (address, byte) cells in canonical form, computed from the state. -/
def windowMemory (s : State) : List Host.Cell :=
  (List.range 4096).filterMap fun a => if windowByte s a = 0 then none else some (a, windowByte s a)

end Sys2Proof.Machine
end

