-- ==== Sys2Proof/Machine/Assembler.lean ====
section
/-! DEFINITION. The assembler (spec/30_encoding.md R114 to R116): written commands to command words, the expansion of
the pseudo-commands, and the host actions `wr`, `rd` and `cmd`. -/

namespace Sys2Proof.Machine

open Sys2Proof

/-- The value of a written element: `a^k` is EXP[k mod 63], the residue 0..62 for a negative k too (R114, R136; DEDUCED,
notes/assumptions/10.md). -/
def elemOf : ElemLit → Elem
  | .num n => BitVec.ofNat 6 n
  | .alphaPow k => gfExp (k % (Config.order : Int)).toNat

/-- A register operand. -/
def regOf (r : Nat) : RegNo := ⟨r % 8, Nat.mod_lt _ (by decide)⟩

/-- An index operand. -/
def idxOf (i : Nat) : CoeffIdx := ⟨i % 64, Nat.mod_lt _ (by decide)⟩

/-- An exponent operand. -/
def exponentOf (e : Nat) : Exponent := ⟨e % 256, Nat.mod_lt _ (by decide)⟩

/-- The command a written command stands for, its operands in range (R114, R115). -/
def expand : Asm → Instr
  | .nop => .nop
  | .gfAdd a b => .gfAdd (elemOf a) (elemOf b)
  | .gfMul a b => .gfMul (elemOf a) (elemOf b)
  | .gfDiv a b => .gfDiv (elemOf a) (elemOf b)
  | .gfInv a => .gfInv (elemOf a)
  | .gfLog a => .gfLog (elemOf a)
  | .gfExp e => .gfExp (exponentOf e)
  | .gfIsz a => .gfIsz (elemOf a)
  | .polyClr rd => .polyClr (regOf rd)
  | .polyAdd rd ra rb => .polyAdd (regOf rd) (regOf ra) (regOf rb)
  | .polyMul rd ra rb => .polyMul (regOf rd) (regOf ra) (regOf rb)
  | .polyEval ra val => .polyEval (regOf ra) (elemOf val)
  | .polyDeg ra => .polyDeg (regOf ra)
  | .polyGetc ra idx => .polyGetc (regOf ra) (idxOf idx)
  | .polySetc rd idx val => .polySetc (regOf rd) (idxOf idx) (elemOf val)
  | .rsEnc c => .rsEnc c
  | .rsDec c => .rsDec c
  | .rsSynd c rd => .rsSynd c (regOf rd)
  | .rsElp c rd ra => .rsElp c (regOf rd) (regOf ra)
  | .rsChien ra => .rsChien (regOf ra)
  | .rsForney c ra rb => .rsForney c (regOf ra) (regOf rb)
  | .gfSub a b => .gfAdd (elemOf a) (elemOf b)
  | .gfNeg a => .gfAdd (elemOf a) 0
  | .gfSqr a => .gfMul (elemOf a) (elemOf a)
  | .gfOne => .gfExp 0
  | .polyZero rd => .polyClr (regOf rd)
  | .polySqr rd ra => .polyMul (regOf rd) (regOf ra) (regOf ra)

/-- The word the assembler emits; none for a command with an operand out of range (R114). -/
def assemble (a : Asm) : Option Word := if a.wellFormed then some (encode (expand a)) else none

/-- The host action `cmd <command>`: a write of its word to CMD (R116); none for a command with an operand out of range. -/
def cmdAction (a : Asm) : Option HostEvent := (assemble a).map fun w => .write cmdOffset w

/-- The named offsets of R116. -/
def ctrlOffset : Offset := 0x00C#12
def statusOffset : Offset := 0x014#12
def resultOffset : Offset := 0x018#12
def faultOffset : Offset := 0x01C#12
def faultInfoOffset : Offset := 0x020#12
def errCntOffset : Offset := 0x024#12
def cmdCountOffset : Offset := 0x028#12
/-- SYM+i. -/
def symOffset (i : Fin 36) : Offset := BitVec.ofNat 12 (0x100 + 4 * i.val)
/-- ERR+j. -/
def errOffset (j : Fin 36) : Offset := BitVec.ofNat 12 (0x200 + 4 * j.val)
/-- P<r>+i. -/
def coeffOffset (r : RegNo) (i : Fin 36) : Offset := BitVec.ofNat 12 (0x400 + 0x100 * r.val + 4 * i.val)

end Sys2Proof.Machine
end

