-- ==== Sys2Proof/Safety.lean ====
section
/-! DEFINITION. The terms the claims about the engine use: the invariants of a reachable state, what the host must keep
for a step to have a meaning, which cells of the window a command may write, and the field and polynomial facts of the
spec written without the tables, to compare the tables with. -/

namespace Sys2Proof.Machine

open Sys2Proof

/-- STATUS is one of the words the rules write (spec/10_state.md R38, R39): 0 before the first command, else exactly one
of OK, FAIL and FAULTED; SYNZERO and DEGUNDEF only with OK; FAILCODE non-zero exactly with FAIL and never 7; every
reserved bit 0. -/
def statusLegal (w : Word) : Bool :=
  (w == 0 || (statusOK w && !statusFAIL w && !statusFAULTED w) || (!statusOK w && statusFAIL w && !statusFAULTED w) ||
      (!statusOK w && !statusFAIL w && statusFAULTED w)) &&
    (!statusSYNZERO w || statusOK w) && (!statusDEGUNDEF w || statusOK w) &&
    (statusFAIL w == (statusFAILCODE w != 0)) && statusFAILCODE w != 7 &&
    w.extractLsb' 5 3 == 0 && w.extractLsb' 11 21 == 0

/-- After a command STATUS is legal and exactly one of OK, FAIL and FAULTED is 1 (R39). -/
def statusOfCommand (w : Word) : Bool := statusLegal w && w != 0

/-- The error list is one the rules write (R44, R48, R205): at most 36 valid entries, positions 0..62 and ascending,
every entry from ERRCNT on 0. -/
def errListLegal (s : State) : Prop :=
  s.errCnt.toNat ≤ 36 ∧
    ∀ j : Fin 36,
      (s.errCnt.toNat ≤ j.val → s.errList[j] = ⟨0, 0⟩) ∧
      (j.val < s.errCnt.toNat → s.errList[j].pos.toNat ≤ 62) ∧
      ∀ i : Fin 36, i < j → j.val < s.errCnt.toNat → s.errList[i].pos.toNat < s.errList[j].pos.toNat

/-- What the host must keep (spec/70_reset_and_hazards.md R312 (e)): no access while `rst_n` = 0, whose level is the first
argument, and none by a second master. -/
def hostKeepsProtocol : Bool → List HostEvent → Bool
  | _, [] => true
  | level, .read _ :: es => level && hostKeepsProtocol level es
  | level, .write _ _ :: es => level && hostKeepsProtocol level es
  | _, .resetPin level :: es => hostKeepsProtocol level es
  | _, .otherMaster _ :: _ => false

/-- The accesses still to come keep the protocol. -/
def State.protocolKept (s : State) : Bool := hostKeepsProtocol s.rstN s.pending

/-- The event resets the engine: the pin (R300, a low level or the return from one) or a CTRL write with bit 1 set
(R301). -/
def resetsEngine (s : State) : HostEvent → Bool
  | .resetPin level => !(level && s.rstN)
  | .write off w => off == 0x00C#12 && w.getLsbD 1
  | .read _ => false
  | .otherMaster _ => false

/-- The cells of the window each command may write when it executes, by the command's rule. CMD and CMDCOUNT are written
by the access that issues the command (R37), not by the command. -/
def mayWrite : Instr → WindowCell → Bool
  | _, .status => true
  | _, .result => true
  | .gfDiv _ b, .fault => b == 0
  | .gfDiv _ b, .faultInfo => b == 0
  | .gfInv a, .fault => a == 0
  | .gfInv a, .faultInfo => a == 0
  | .gfLog a, .fault => a == 0
  | .gfLog a, .faultInfo => a == 0
  | .polyMul _ _ _, .fault => true
  | .polyMul _ _ _, .faultInfo => true
  | .polyClr rd, .coeff r _ => r == rd
  | .polyAdd rd _ _, .coeff r _ => r == rd
  | .polyMul rd _ _, .coeff r _ => r == rd
  | .polySetc rd idx _, .coeff r i => r == rd && i.val == idx.val
  | .rsSynd _ rd, .coeff r _ => r == rd
  | .rsElp _ rd _, .coeff r _ => r == rd
  | .rsChien _, .errCnt => true
  | .rsChien _, .errEntry _ => true
  | .rsForney _ _ _, .errEntry _ => true
  | .rsDec _, .errCnt => true
  | .rsDec _, .errEntry _ => true
  | .rsDec c, .sym i => decide (i.val < (Config.params c).k)
  | .rsEnc c, .sym i => decide ((Config.params c).k ≤ i.val ∧ i.val < (Config.params c).n)
  | _, _ => false

/-- The value of the CODE field that selects a code (spec/00_scope.md R7, spec/30_encoding.md R106). -/
def codeNumber : Code → Nat
  | .short => 0
  | .medium => 1
  | .long => 2

/-- Only RESULT and STATUS differ. -/
def OnlyResultAndStatus (s t : State) : Prop := t = { s with result := t.result, status := t.status }

/-- Only polynomial register `rd`, RESULT and STATUS differ. -/
def OnlyPolyRegister (rd : RegNo) (s t : State) : Prop :=
  t = { s with polys := t.polys, result := t.result, status := t.status } ∧
    ∀ r : RegNo, r ≠ rd → t.polys[r] = s.polys[r]

/-- Only the error list, its count, RESULT and STATUS differ. -/
def OnlyErrorList (s t : State) : Prop :=
  t = { s with errList := t.errList, errCnt := t.errCnt, result := t.result, status := t.status }

/-- The state a command fault leaves (spec/60_exceptions.md R272): STATUS = FAULTED, the fault's bit set, the command word
that CMD holds captured in FAULTINFO only if no fault was pending, nothing else changed. `bit` is the bit's mask. -/
def FaultedState (bit : BitVec 6) (s : State) : State :=
  { s with
    status := 0x00000004#32
    fault := s.fault ||| bit
    faultInfo := if s.fault = 0 then s.cmd else s.faultInfo }

/-- The state a bus fault leaves (R281), the access's offset captured only if no fault was pending. -/
def BusFaultedState (bit : BitVec 6) (off : Offset) (s : State) : State :=
  { s with
    fault := s.fault ||| bit
    faultInfo := if s.fault = 0 then zext off else s.faultInfo }

/-- With `rst_n` high and this read next, the step completes it with this word and changes nothing else. -/
def ReadsAs (s : State) (off : Offset) (v : Word) : Prop :=
  ∀ rest : List HostEvent,
    step { s with pending := .read off :: rest } = .next { s with bus := .readDone v, pending := rest }

/-- The product of two elements as polynomials over GF(2), before reduction (spec/40_gf.md R130): 11 bits. -/
def gf2Product (a b : Elem) : BitVec 12 :=
  (List.range 6).foldl (fun acc i => if b.getLsbD i then acc ^^^ (a.setWidth 12 <<< i) else acc) 0

/-- Reduction modulo FIELD_POLY, from the highest bit down (R130, R137). -/
def gf2Reduce (v : BitVec 12) : Elem :=
  ((List.range 6).foldl
    (fun acc i => if acc.getLsbD (11 - i) then acc ^^^ (Config.fieldPoly.setWidth 12 <<< (5 - i)) else acc) v).setWidth 6

/-- The power `x^n` of a field element as a repeated product. -/
def gfPow (x : Elem) : Nat → Elem
  | 0 => 1
  | n + 1 => gfMul (gfPow x n) x

/-- The value of a polynomial as its power sum p[0] ⊕ p[1]⊗x ⊕ … (R162). -/
def powerSum (p : PolyReg) (x : Elem) : Elem := gfSum 36 fun i => gfMul (coeff p i) (gfPow x i)

/-- The syndrome s_i of a buffer as a power sum: the sum over the degrees p of SYM[n-1-p] ⊗ (alpha^i)^p (R191, R232). -/
def syndromeSum (c : Code) (sym : SymBuf) (i : Nat) : Elem :=
  gfSum (Config.params c).n fun p => gfMul (symAt sym ((Config.params c).n - 1 - p)) (gfPow (alphaPow i) p)

/-- The buffer is a codeword of the code: every syndrome is zero (R191). -/
def IsCodeword (c : Code) (sym : SymBuf) : Prop :=
  ∀ i : Nat, 1 ≤ i → i ≤ (Config.params c).t2 → syndromeSum c sym i = 0

/-- The number of the code's symbols in which two buffers differ. -/
def changedSymbols (c : Code) (x y : SymBuf) : Nat :=
  ((List.finRange 36).filter fun i => decide (i.val < (Config.params c).n ∧ x[i] ≠ y[i])).length

/-- The symbolwise sum of two buffers. -/
def addBuf (x y : SymBuf) : SymBuf := Vector.ofFn fun i : Fin 36 => gfAdd x[i] y[i]

/-- The whole corrected word of a decode: every correction of the error list applied, the parity region too (R246). -/
def correctedWord (c : Code) (sym : SymBuf) (es : List ErrEntry) : SymBuf :=
  Vector.ofFn fun i : Fin 36 =>
    es.foldl (fun v e => if e.pos.toNat + i.val + 1 = (Config.params c).n then gfAdd v e.mag else v) sym[i]

end Sys2Proof.Machine
end

