-- ==== Sys2Proof/Certificates/Slice0/Obligations.lean ====
section
/-! DEFINITION. The statements about the engine, from the numbered rules of spec/. Where a statement's state is written
out as `{ s with … }`, every field it does not name is unchanged: that is its frame. A statement about a step
presents its access through the model's own field `pending`, and the step's reply stands in `bus` (DESIGN CHOICE,
notes/assumptions/1.md and 3.md). -/

open Sys2Proof Sys2Proof.Machine

/-! ## Encoding -/

/-- No bit of an encoding is dropped: every command is well formed and its word decodes to it (R109, R114). -/
def Obligations.DecodeOfEncodeIsTheCommand : Prop :=
  ∀ i : Instr, i.wellFormed = true ∧ decode (encode i) = .ok i

/-- Every legal word has one meaning: a word that decodes to a command is that command's word (D10, R111). -/
def Obligations.EncodeOfDecodeIsTheWord : Prop :=
  ∀ (w : Word) (i : Instr), decode w = .ok i → encode i = w

/-- The legal words are exactly those that select a row of R109: (match, mask, format C) of its 21 rows, with CODE ≠ 3
for format C (R100, R109, R111). -/
def Obligations.LegalWordsAreThoseOfTheTable : Prop :=
  ∀ w : Word,
    (∃ i, decode w = .ok i) ↔
      ∃ row ∈ ([ (0x00000000, 0xFFFFFFFF, false), (0x04000000, 0xFFFFF000, false), (0x08000000, 0xFFFFF000, false),
          (0x0C000000, 0xFFFFF000, false), (0x10000000, 0xFFFFF03F, false), (0x14000000, 0xFFFFF03F, false),
          (0x18000000, 0xFFFFFF00, false), (0x1C000000, 0xFFFFF03F, false), (0x40000000, 0xFF1FFFFF, false),
          (0x44000000, 0xFF007FFF, false), (0x48000000, 0xFF007FFF, false), (0x4C000000, 0xFFE3FFC0, false),
          (0x50000000, 0xFFE3FFFF, false), (0x54000000, 0xFFE3F03F, false), (0x58000000, 0xFF1FF000, false),
          (0x80000000, 0xFCFFFFFF, true), (0x84000000, 0xFCFFFFFF, true), (0x88000000, 0xFC1FFFFF, true),
          (0x8C000000, 0xFC03FFFF, true), (0x90000000, 0xFFE3FFFF, false),
          (0x94000000, 0xFCE07FFF, true) ] : List (Word × Word × Bool)),
        w &&& row.2.1 = row.1 ∧ (row.2.2 = true → w.extractLsb' 24 2 ≠ 3#2)

/-- Words written out from the examples of the command rules decode to the commands they stand for. -/
def Obligations.ExampleWordsDecode : Prop :=
  decode 0x00000000#32 = .ok .nop ∧ decode 0x04000A95#32 = .ok (.gfAdd 0x2A 0x15) ∧
  decode 0x0C000147#32 = .ok (.gfDiv 5 7) ∧ decode 0x180000FF#32 = .ok (.gfExp 255) ∧
  decode 0x44408000#32 = .ok (.polyAdd 2 0 1) ∧ decode 0x58000A01#32 = .ok (.polySetc 0 40 1) ∧
  decode 0x8D200000#32 = .ok (.rsElp .medium 1 0) ∧ decode 0x95040000#32 = .ok (.rsForney .medium 1 0) ∧
  decode 0x82000000#32 = .ok (.rsEnc .long) ∧ decode 0x83000000#32 = .error .reservedCode ∧
  decode 0x04001000#32 = .error .unusedFieldNonZero ∧ decode 0x20000000#32 = .error .unassignedOpcode

/-- The assembler emits a command's word for its written form (R114), and each pseudo-command expands to the one command
of R115. The written form `Asm`, and that an operand out of range has no word, are the model's DESIGN CHOICE
(notes/assumptions/15.md). -/
def Obligations.AssemblerEmitsAndExpands : Prop :=
  (∀ i : Instr, assemble (Asm.ofInstr i) = some (encode i)) ∧
  (∀ a b, assemble (.gfSub a b) = assemble (.gfAdd a b)) ∧ (∀ a, assemble (.gfNeg a) = assemble (.gfAdd a (.num 0))) ∧
  (∀ a, assemble (.gfSqr a) = assemble (.gfMul a a)) ∧ assemble .gfOne = assemble (.gfExp 0) ∧
  (∀ rd, assemble (.polyZero rd) = assemble (.polyClr rd)) ∧
  ∀ rd ra, assemble (.polySqr rd ra) = assemble (.polyMul rd ra ra)

/-! ## Issuing a command, reset and control -/

/-- A write of a legal word to CMD records it, counts it modulo 2^32 and executes it; the model's own fields say the
access is performed (R37). -/
def Obligations.CmdWriteExecutesTheDecodedCommand : Prop :=
  ∀ (s : State) (w : Word) (i : Instr) (rest : List HostEvent),
    s.rstN = true → s.pending = .write 0x010#12 w :: rest → decode w = .ok i →
      step s = exec i { s with cmd := w, cmdCount := s.cmdCount + 1, bus := .writeDone, pending := rest }

/-- An illegal word ends with the ILLEGAL fault: CMD and CMDCOUNT record it, STATUS is FAULTED, FAULT bit 0 is set,
FAULTINFO is the word if no fault was pending, nothing else changes (R111, R272, R280). -/
def Obligations.IllegalWordRaisesIllegal : Prop :=
  ∀ (s : State) (w : Word) (e : DecodeReject) (rest : List HostEvent),
    s.rstN = true → s.pending = .write 0x010#12 w :: rest → decode w = .error e →
      step s = .next { s with
        cmd := w, cmdCount := s.cmdCount + 1, status := 0x00000004#32, fault := s.fault ||| 0b000001#6,
        faultInfo := if s.fault = 0 then w else s.faultInfo, bus := .writeDone, pending := rest }

/-- After reset every mapped cell reads its reset value: the identity words, and 0 everywhere else; IRQ is 0 (R302). -/
def Obligations.ResetCellsReadTheirResetValues : Prop :=
  State.reset.irq = false ∧
    ∀ cell : WindowCell, readCell State.reset cell =
      if cell = .id then 0x47463634#32 else if cell = .version then 0x00000001#32
      else if cell = .config then 0x43243824#32 else 0#32

/-- A CTRL write with bit 1 set gives the reset state, FIE included, with IRQ 0; with bit 1 clear it sets FIE to bit 0 and
changes nothing else, and IRQ is 1 at once exactly if it sets FIE while a fault is pending (R36, R51, R279, R301). -/
def Obligations.CtrlWriteResetsOrSetsFie : Prop :=
  ∀ (s : State) (v : Word) (rest : List HostEvent),
    s.rstN = true → s.pending = .write 0x00C#12 v :: rest →
      (v.getLsbD 1 = true → ∃ t, step s = .next t ∧
        t = { State.reset with bus := .writeDone, pending := rest } ∧ t.irq = false) ∧
      (v.getLsbD 1 = false → ∃ t, step s = .next t ∧
        t = { s with fie := v.getLsbD 0, bus := .writeDone, pending := rest } ∧
        (t.irq = true ↔ v.getLsbD 0 = true ∧ s.fault ≠ 0))

/-- Driving `rst_n` to 0 holds the engine in the reset state, and when it returns to 1 the engine holds that state; while it
is 0 a host access is refused (R300). Driving it to 1 while it is 1 changes nothing but the outputs, and so does a step with
nothing presented: the engine waits (R303). An access by a second master is refused at either level (R84). The pin's level,
the state while it is 0, the events and the refusal at the access are the model's (notes/assumptions/1.md, 2.md, 3.md and
9.md). -/
def Obligations.ResetPinResetsAndForbiddenAccessIsRefused : Prop :=
  ∀ (s : State) (rest : List HostEvent),
    (s.pending = .resetPin false :: rest → step s = .next { State.reset with rstN := false, pending := rest }) ∧
    (s.rstN = false → s.pending = .resetPin true :: rest → step s = .next { State.reset with pending := rest }) ∧
    (s.rstN = true → s.pending = .resetPin true :: rest → step s = .next { s with bus := .idle, pending := rest }) ∧
    (s.pending = [] → step s = .next { s with bus := .idle }) ∧
    (∀ off, s.rstN = false → s.pending = .read off :: rest → step s = .refused .accessInReset) ∧
    (∀ off v, s.rstN = false → s.pending = .write off v :: rest → step s = .refused .accessInReset) ∧
    ∀ off, s.pending = .otherMaster off :: rest → step s = .refused .secondMaster

/-! ## The host window -/

/-- Every mapped offset reads as its row of R74 says, and the read changes no state (R33 to R48, R76). -/
def Obligations.MappedReadsReturnTheCell : Prop :=
  ∀ s : State, s.rstN = true →
    ReadsAs s 0x000#12 0x47463634#32 ∧ ReadsAs s 0x004#12 0x00000001#32 ∧ ReadsAs s 0x008#12 0x43243824#32 ∧
    ReadsAs s 0x00C#12 (if s.fie then 1#32 else 0#32) ∧ ReadsAs s 0x010#12 s.cmd ∧ ReadsAs s 0x014#12 s.status ∧
    ReadsAs s 0x018#12 s.result ∧ ReadsAs s 0x01C#12 (zext s.fault) ∧ ReadsAs s 0x020#12 s.faultInfo ∧
    ReadsAs s 0x024#12 (zext s.errCnt) ∧ ReadsAs s 0x028#12 s.cmdCount ∧
    (∀ i : Fin 36, ReadsAs s (BitVec.ofNat 12 (0x100 + 4 * i.val)) (zext s.sym[i])) ∧
    (∀ j : Fin 36, ReadsAs s (BitVec.ofNat 12 (0x200 + 4 * j.val))
      (BitVec.ofNat 32 (s.errList[j].pos.toNat * 256 + s.errList[j].mag.toNat))) ∧
    ∀ (r : Fin 8) (i : Fin 36), ReadsAs s (BitVec.ofNat 12 (0x400 + 0x100 * r.val + 4 * i.val)) (zext s.polys[r][i])

/-- A misaligned or unmapped access, and a write to a read-only row, raise BUSERR with the offset: a read returns 0, a
write stores nothing, and no other state changes (R73, R74, R281). The ranges are the unmapped rows of R74. -/
def Obligations.BadAccessRaisesBusErr : Prop :=
  ∀ (s : State) (off : Offset) (rest : List HostEvent), s.rstN = true →
    ((off.toNat % 4 ≠ 0 ∨ (0x02C ≤ off.toNat ∧ off.toNat < 0x100) ∨ (0x190 ≤ off.toNat ∧ off.toNat < 0x200) ∨
        (0x290 ≤ off.toNat ∧ off.toNat < 0x400) ∨
        (0x400 ≤ off.toNat ∧ off.toNat < 0xC00 ∧ 0x90 ≤ off.toNat % 0x100) ∨ 0xC00 ≤ off.toNat) →
      (s.pending = .read off :: rest →
        step s = .next { BusFaultedState 0b100000#6 off s with bus := .readDone 0, pending := rest }) ∧
      ∀ v, s.pending = .write off v :: rest →
        step s = .next { BusFaultedState 0b100000#6 off s with bus := .writeDone, pending := rest }) ∧
    ((off ∈ [0x000#12, 0x004#12, 0x008#12, 0x014#12, 0x018#12, 0x020#12, 0x024#12, 0x028#12] ∨
        ∃ j : Fin 36, off.toNat = 0x200 + 4 * j.val) →
      ∀ v, s.pending = .write off v :: rest →
        step s = .next { BusFaultedState 0b100000#6 off s with bus := .writeDone, pending := rest })

/-- A write to a symbol or coefficient slot stores a value below 64; any other value raises RANGE with the slot's offset
and leaves the slot (R46, R47, R282). -/
def Obligations.SlotWriteStoresOrRaisesRange : Prop :=
  ∀ (s : State) (v : Word) (rest : List HostEvent), s.rstN = true →
    (∀ i : Fin 36, s.pending = .write (BitVec.ofNat 12 (0x100 + 4 * i.val)) v :: rest →
      step s = .next (if v.toNat < 64 then
          { s with sym := s.sym.set i (BitVec.ofNat 6 v.toNat), bus := .writeDone, pending := rest }
        else { BusFaultedState 0b010000#6 (BitVec.ofNat 12 (0x100 + 4 * i.val)) s with
          bus := .writeDone, pending := rest })) ∧
    ∀ (r : Fin 8) (i : Fin 36),
      s.pending = .write (BitVec.ofNat 12 (0x400 + 0x100 * r.val + 4 * i.val)) v :: rest →
      step s = .next (if v.toNat < 64 then
          { s with polys := s.polys.set r (s.polys[r].set i (BitVec.ofNat 6 v.toNat)), bus := .writeDone, pending := rest }
        else { BusFaultedState 0b010000#6 (BitVec.ofNat 12 (0x400 + 0x100 * r.val + 4 * i.val)) s with
          bus := .writeDone, pending := rest })

/-- A FAULT write clears exactly the bits written as 1 and leaves FAULTINFO and everything else; IRQ is 1 after it exactly
if FIE is 1 and a bit is left, so it deasserts when the last bit goes (R42, R43, R51, R277, R279). -/
def Obligations.FaultWriteClearsWrittenBits : Prop :=
  ∀ (s : State) (v : Word) (rest : List HostEvent), s.rstN = true → s.pending = .write 0x01C#12 v :: rest →
    ∃ t, step s = .next t ∧ t = { s with fault := t.fault, bus := .writeDone, pending := rest } ∧
      (∀ i, i < 6 → t.fault.getLsbD i = (s.fault.getLsbD i && !v.getLsbD i)) ∧
      (t.irq = true ↔ s.fie = true ∧ t.fault ≠ 0)

/-! ## Whole-machine rules -/

/-- No command stops the engine: every one ends in a next state, and none writes CTRL, CMD or CMDCOUNT or the model's own
fields (R37, R270, R273). -/
def Obligations.EveryCommandEndsInANextState : Prop :=
  ∀ (i : Instr) (s : State), ∃ t, exec i s = .next t ∧ t.fie = s.fie ∧ t.cmd = s.cmd ∧ t.cmdCount = s.cmdCount ∧
    t.rstN = s.rstN ∧ t.bus = s.bus ∧ t.pending = s.pending

/-- After a command exactly one of OK, FAIL and FAULTED is 1, SYNZERO and DEGUNDEF are 1 only with OK, and FAILCODE is
non-zero exactly with FAIL (R39, R270). -/
def Obligations.CommandEndsInExactlyOneOutcome : Prop :=
  ∀ (i : Instr) (s t : State), exec i s = .next t → statusOfCommand t.status = true

/-- Faults are precise: a command that ends FAULTED changes nothing but STATUS, FAULT and FAULTINFO, and IRQ is 1 after it
exactly if FIE is 1 (R41, R272, R273, R279). A command that does not, a defined failure among them, changes neither FAULT
nor FAULTINFO nor IRQ (R276, R279). That FAULTINFO takes the word CMD holds is the model's deduction
(notes/assumptions/5.md). -/
def Obligations.OnlyFaultsTouchTheFaultRegisters : Prop :=
  ∀ (i : Instr) (s t : State), exec i s = .next t →
    (statusFAULTED t.status = true →
      (∃ bit ∈ [0b000010#6, 0b000100#6, 0b001000#6], t = FaultedState bit s) ∧ t.irq = s.fie) ∧
    (statusFAULTED t.status = false → t.fault = s.fault ∧ t.faultInfo = s.faultInfo ∧ t.irq = s.irq)

/-- FAULT bits are sticky: a step that clears one is a FAULT write with that bit 1 or a reset (R42, R278). -/
def Obligations.FaultBitsAreSticky : Prop :=
  ∀ (s t : State) (i : Nat), step s = .next t → s.fault.getLsbD i = true → t.fault.getLsbD i = false →
    ∃ e rest, s.pending = e :: rest ∧ (resetsEngine s e = true ∨ ∃ v, e = .write 0x01C#12 v ∧ v.getLsbD i = true)

/-- FAULTINFO holds the first fault: no step changes it while FAULT is not 0, nor without raising a fault, unless it resets
the engine; a step that raises the first fault captures the command word if it writes CMD, else the offset of its access
(R43). -/
def Obligations.FaultInfoCapturesTheFirstFault : Prop :=
  ∀ (s t : State) (e : HostEvent) (rest : List HostEvent), s.pending = e :: rest → resetsEngine s e = false →
    step s = .next t →
      (s.fault ≠ 0 ∨ t.fault = 0 → t.faultInfo = s.faultInfo) ∧
      (s.fault = 0 → t.fault ≠ 0 →
        (∃ w, e = .write 0x010#12 w ∧ t.faultInfo = w) ∨
        (∃ off, e = .read off ∧ t.faultInfo = zext off) ∨
        ∃ off v, e = .write off v ∧ off ≠ 0x010#12 ∧ t.faultInfo = zext off)

/-- A command leaves every byte of the host window as it was but those of the cells its rule writes (R41 to R48, R78). -/
def Obligations.CommandLeavesOtherWindowBytes : Prop :=
  ∀ (i : Instr) (s t : State) (a : Nat), exec i s = .next t →
    (∀ cell, decodeOffset (BitVec.ofNat 12 (a / 4 * 4)) = some cell → mayWrite i cell = false) →
      windowByte t a = windowByte s a

/-- A host that keeps the protocol never sees the engine stop: the step has a next state, and the rest of the accesses
keep the protocol too (R273, R300, R312 (e)). -/
def Obligations.ProtocolKeepingHostIsNeverRefused : Prop :=
  ∀ s : State, s.protocolKept = true → ∃ t, step s = .next t ∧ t.protocolKept = true

/-- STATUS stays one of the words the rules allow (R38, R39). -/
def Obligations.StepKeepsStatusLegal : Prop :=
  ∀ s t : State, statusLegal s.status = true → step s = .next t → statusLegal t.status = true

/-- The error list stays legal: at most 36 entries, ascending positions 0..62, zero from ERRCNT on (R44, R48, R205). -/
def Obligations.StepKeepsErrorListLegal : Prop :=
  ∀ s t : State, errListLegal s → step s = .next t → errListLegal t

/-- The reset state meets both invariants. -/
def Obligations.ResetMeetsTheInvariants : Prop :=
  statusLegal State.reset.status = true ∧ errListLegal State.reset ∧ State.reset.protocolKept = true

/-! ## The control and GF commands -/

/-- NOP (R260). -/
def Obligations.NopOnlyReportsOk : Prop :=
  ∀ s : State, encode .nop = 0x00000000#32 ∧
    exec .nop s = .next { s with result := 0#32, status := 0x00000001#32 }

/-- LOG and EXP are inverse, and EXP[0..62] are the 63 non-zero elements, once each (R132). -/
def Obligations.LogAndExpAreInverse : Prop :=
  (∀ v : Elem, v ≠ 0 → gfLog v < 63 ∧ gfExp (gfLog v) = v) ∧
  ∀ i, i < 63 → gfExp i ≠ 0 ∧ gfLog (gfExp i) = i

/-- The arithmetic laws of the field, and the product as that of polynomials over GF(2) modulo FIELD_POLY (R137). -/
def Obligations.FieldLaws : Prop :=
  (∀ a b, gfAdd a b = gfAdd b a) ∧ (∀ a b c, gfAdd (gfAdd a b) c = gfAdd a (gfAdd b c)) ∧ (∀ a, gfAdd a 0 = a) ∧
  (∀ a, gfAdd a a = 0) ∧ (∀ a b, gfMul a b = gfMul b a) ∧ (∀ a b c, gfMul (gfMul a b) c = gfMul a (gfMul b c)) ∧
  (∀ a, gfMul a 1 = a) ∧ (∀ a, gfMul a 0 = 0) ∧ (∀ a b c, gfMul a (gfAdd b c) = gfAdd (gfMul a b) (gfMul a c)) ∧
  (∀ a, a ≠ 0 → gfMul a (gfInv a) = 1) ∧ alphaPow 63 = 1 ∧ ∀ a b, gfMul a b = gf2Reduce (gf2Product a b)

/-- GF.ADD (R140). -/
def Obligations.GfAddXorsItsOperands : Prop :=
  ∀ (a b : Elem) (s : State), encode (.gfAdd a b) = 0x04000000#32 ||| (zext a <<< 6) ||| zext b ∧
    exec (.gfAdd a b) s = .next { s with result := zext (a ^^^ b), status := 0x00000001#32 }

/-- GF.MUL (R141): zero if an operand is zero, else the antilog of the sum of the logs mod 63. -/
def Obligations.GfMulAddsLogs : Prop :=
  ∀ (a b : Elem) (s : State), encode (.gfMul a b) = 0x08000000#32 ||| (zext a <<< 6) ||| zext b ∧
    exec (.gfMul a b) s = .next { s with
      result := if a = 0 ∨ b = 0 then 0#32 else zext (gfExp ((gfLog a + gfLog b) % 63)), status := 0x00000001#32 }

/-- GF.DIV (R142) and GF.INV (R144): DIVZERO for a zero divisor, whatever the dividend; else the quotient a ⊗ gf_inv(b),
whose product with B is A, and the inverse EXP[(63 - LOG A) mod 63], whose product with A is 1. On a fault FAULTINFO takes
the word CMD holds: the model's deduction (notes/assumptions/5.md). -/
def Obligations.DivisionInvertsOrRaisesDivZero : Prop :=
  ∀ (a b : Elem) (s : State), encode (.gfDiv a b) = 0x0C000000#32 ||| (zext a <<< 6) ||| zext b ∧
    encode (.gfInv a) = 0x10000000#32 ||| (zext a <<< 6) ∧
    (b = 0 → exec (.gfDiv a b) s = .next (FaultedState 0b000100#6 s)) ∧
    (b ≠ 0 → gfMul (gfMul a (gfInv b)) b = a ∧
      exec (.gfDiv a b) s = .next { s with result := zext (gfMul a (gfInv b)), status := 0x00000001#32 }) ∧
    (a = 0 → exec (.gfInv a) s = .next (FaultedState 0b000100#6 s)) ∧
    (a ≠ 0 → gfMul a (gfExp ((63 - gfLog a) % 63)) = 1 ∧
      exec (.gfInv a) s = .next { s with result := zext (gfExp ((63 - gfLog a) % 63)), status := 0x00000001#32 })

/-- GF.LOG (R145): LOGZERO for A = 0; else the exponent 0..62 whose power of alpha is A. On a fault FAULTINFO takes the
word CMD holds: the model's deduction (notes/assumptions/5.md). -/
def Obligations.GfLogIsTheDiscreteLogarithm : Prop :=
  ∀ (a : Elem) (s : State), encode (.gfLog a) = 0x14000000#32 ||| (zext a <<< 6) ∧
    (a = 0 → exec (.gfLog a) s = .next (FaultedState 0b000010#6 s)) ∧
    (a ≠ 0 → ∃ l, l < 63 ∧ gfExp l = a ∧ l = gfLog a ∧
      exec (.gfLog a) s = .next { s with result := BitVec.ofNat 32 l, status := 0x00000001#32 })

/-- GF.EXP (R143): EXP[E mod 63], which is 1 multiplied by alpha E times. -/
def Obligations.GfExpIsThePowerOfAlpha : Prop :=
  ∀ (e : Exponent) (s : State), encode (.gfExp e) = 0x18000000#32 ||| BitVec.ofNat 32 e.val ∧
    gfExp (e.val % 63) = timesAlpha^[e.val] 1 ∧
    exec (.gfExp e) s = .next { s with result := zext (gfExp (e.val % 63)), status := 0x00000001#32 }

/-- GF.ISZ (R146). -/
def Obligations.GfIszTestsZero : Prop :=
  ∀ (a : Elem) (s : State), encode (.gfIsz a) = 0x1C000000#32 ||| (zext a <<< 6) ∧
    exec (.gfIsz a) s = .next { s with result := if a = 0 then 1#32 else 0#32, status := 0x00000001#32 }

/-! ## The polynomial commands -/

/-- POLY.CLR (R165). -/
def Obligations.PolyClrZeroesTheRegister : Prop :=
  ∀ (rd : RegNo) (s : State), ∃ t, exec (.polyClr rd) s = .next t ∧ OnlyPolyRegister rd s t ∧
    (∀ i : Fin 36, t.polys[rd][i] = 0) ∧ t.result = 0 ∧ t.status = 0x00000001#32 ∧
    encode (.polyClr rd) = 0x40000000#32 ||| (BitVec.ofNat 32 rd.val <<< 21)

/-- POLY.ADD (R166): every coefficient the sum of the sources' as they were before, whatever registers coincide. -/
def Obligations.PolyAddAddsCoefficients : Prop :=
  ∀ (rd ra rb : RegNo) (s : State), ∃ t, exec (.polyAdd rd ra rb) s = .next t ∧ OnlyPolyRegister rd s t ∧
    (∀ i : Fin 36, t.polys[rd][i] = s.polys[ra][i] ^^^ s.polys[rb][i]) ∧ t.result = 0 ∧ t.status = 0x00000001#32 ∧
    encode (.polyAdd rd ra rb) = 0x44000000#32 ||| (BitVec.ofNat 32 rd.val <<< 21) |||
      (BitVec.ofNat 32 ra.val <<< 18) ||| (BitVec.ofNat 32 rb.val <<< 15)

/-- POLY.MUL (R167): POLYOVF when two non-zero coefficients have indices that sum to 36 or more; else the convolution of
the sources as they were before. On a fault FAULTINFO takes the word CMD holds: the model's deduction
(notes/assumptions/5.md). -/
def Obligations.PolyMulConvolvesOrRaisesPolyOvf : Prop :=
  ∀ (rd ra rb : RegNo) (s : State),
    encode (.polyMul rd ra rb) = 0x48000000#32 ||| (BitVec.ofNat 32 rd.val <<< 21) |||
      (BitVec.ofNat 32 ra.val <<< 18) ||| (BitVec.ofNat 32 rb.val <<< 15) ∧
    ((∃ i j : Fin 36, s.polys[ra][i] ≠ 0 ∧ s.polys[rb][j] ≠ 0 ∧ 35 < i.val + j.val) →
      exec (.polyMul rd ra rb) s = .next (FaultedState 0b001000#6 s)) ∧
    ((∀ i j : Fin 36, s.polys[ra][i] ≠ 0 → s.polys[rb][j] ≠ 0 → i.val + j.val ≤ 35) →
      ∃ t, exec (.polyMul rd ra rb) s = .next t ∧ OnlyPolyRegister rd s t ∧ t.result = 0 ∧ t.status = 0x00000001#32 ∧
        ∀ m : Fin 36, t.polys[rd][m] =
          gfSum (m.val + 1) fun i => gfMul (coeff s.polys[ra] i) (coeff s.polys[rb] (m.val - i)))

/-- The product register's value at every point is the product of the sources' values (R137, R162, R163). -/
def Obligations.PolyMulIsTheProductAtEveryPoint : Prop :=
  ∀ (rd ra rb : RegNo) (s t : State) (x : Elem), exec (.polyMul rd ra rb) s = .next t → statusOK t.status = true →
    eval t.polys[rd] x = gfMul (eval s.polys[ra] x) (eval s.polys[rb] x)

/-- POLY.EVAL (R162, R168): RESULT is the power sum of the coefficients at the point. -/
def Obligations.PolyEvalIsThePowerSum : Prop :=
  ∀ (ra : RegNo) (val : Elem) (s : State),
    encode (.polyEval ra val) = 0x4C000000#32 ||| (BitVec.ofNat 32 ra.val <<< 18) ||| zext val ∧
    exec (.polyEval ra val) s = .next { s with result := zext (powerSum s.polys[ra] val), status := 0x00000001#32 }

/-- POLY.DEG (R161, R169): the highest non-zero index, or 0xFFFFFFFF with DEGUNDEF for the zero polynomial. -/
def Obligations.PolyDegFindsTheHighestIndex : Prop :=
  ∀ (ra : RegNo) (s : State), encode (.polyDeg ra) = 0x50000000#32 ||| (BitVec.ofNat 32 ra.val <<< 18) ∧
    ((∀ i : Fin 36, s.polys[ra][i] = 0) →
      exec (.polyDeg ra) s = .next { s with result := 0xFFFFFFFF#32, status := 0x00000011#32 }) ∧
    ∀ d : Fin 36, s.polys[ra][d] ≠ 0 → (∀ i : Fin 36, d < i → s.polys[ra][i] = 0) →
      exec (.polyDeg ra) s = .next { s with result := BitVec.ofNat 32 d.val, status := 0x00000001#32 }

/-- POLY.GETC (R170). -/
def Obligations.PolyGetcReadsOrFailsBounds : Prop :=
  ∀ (ra : RegNo) (idx : CoeffIdx) (s : State),
    encode (.polyGetc ra idx) = 0x54000000#32 ||| (BitVec.ofNat 32 ra.val <<< 18) ||| (BitVec.ofNat 32 idx.val <<< 6) ∧
    (∀ h : idx.val < 36,
      exec (.polyGetc ra idx) s = .next { s with result := zext (s.polys[ra][idx.val]'h), status := 0x00000001#32 }) ∧
    (36 ≤ idx.val → exec (.polyGetc ra idx) s = .next { s with result := 0#32, status := 0x00000102#32 })

/-- POLY.SETC (R171). -/
def Obligations.PolySetcWritesOrFailsBounds : Prop :=
  ∀ (rd : RegNo) (idx : CoeffIdx) (val : Elem) (s : State),
    encode (.polySetc rd idx val) = 0x58000000#32 ||| (BitVec.ofNat 32 rd.val <<< 21) |||
      (BitVec.ofNat 32 idx.val <<< 6) ||| zext val ∧
    (∀ h : idx.val < 36, exec (.polySetc rd idx val) s = .next { s with
      polys := s.polys.set rd (s.polys[rd].set idx.val val h), result := 0#32, status := 0x00000001#32 }) ∧
    (36 ≤ idx.val → exec (.polySetc rd idx val) s = .next { s with result := 0#32, status := 0x00000102#32 })

/-! ## The decoder steps -/

/-- RS.SYND (R191, R192, R200): its word; coefficient i-1 of the destination is the power sum s_i, the rest 0; RESULT 1 and SYNZERO
exactly for a codeword. -/
def Obligations.RsSyndComputesTheSyndromes : Prop :=
  ∀ (c : Code) (rd : RegNo) (s : State),
    encode (.rsSynd c rd) = 0x88000000#32 ||| (BitVec.ofNat 32 (codeNumber c) <<< 24) |||
      (BitVec.ofNat 32 rd.val <<< 21) ∧
    ∃ t, exec (.rsSynd c rd) s = .next t ∧ OnlyPolyRegister rd s t ∧
    (∀ i : Fin 36, t.polys[rd][i] =
      if i.val < (Config.params c).t2 then syndromeSum c s.sym (i.val + 1) else 0) ∧
    (IsCodeword c s.sym → t.result = 1 ∧ t.status = 0x00000009#32) ∧
    (¬ IsCodeword c s.sym → t.result = 0 ∧ t.status = 0x00000001#32)

/-- RS.ELP (R202, R203): its word; the destination is the locator of the procedure of R193 on the source's first t2 coefficients,
and RESULT its degree and the LFSR length; the degree is always defined. -/
def Obligations.RsElpReportsLocatorAndLength : Prop :=
  ∀ (c : Code) (rd ra : RegNo) (s : State),
    encode (.rsElp c rd ra) = 0x8C000000#32 ||| (BitVec.ofNat 32 (codeNumber c) <<< 24) |||
      (BitVec.ofNat 32 rd.val <<< 21) ||| (BitVec.ofNat 32 ra.val <<< 18) ∧
    ∃ (t : State) (d : Nat), exec (.rsElp c rd ra) s = .next t ∧
    OnlyPolyRegister rd s t ∧ t.polys[rd] = (bm (synOfReg (Config.params c).t2 s.polys[ra])).sigma ∧
    deg t.polys[rd] = some d ∧
    t.result = BitVec.ofNat 32 (d + 256 * (bm (synOfReg (Config.params c).t2 s.polys[ra])).len) ∧
    t.status = 0x00000001#32

/-- The properties of the Berlekamp-Massey loop (R194): b is never 0; L <= r at the start of step r; deg(C) <= r there;
m + deg(B) <= r + 1; σ[0] = 1. -/
def Obligations.BerlekampMasseyKeepsItsBounds : Prop :=
  ∀ (syn : List Elem) (r : Nat), syn.length ≤ 16 → r ≤ syn.length →
    (bmRun syn r).disc ≠ 0 ∧ (bmRun syn r).len ≤ r ∧ coeff (bmRun syn r).sigma 0 = 1 ∧
    (∀ i, r < i → coeff (bmRun syn r).sigma i = 0) ∧
    ∀ i, r + 1 < (bmRun syn r).shift + i → coeff (bmRun syn r).prev i = 0

/-- The locator generates the syndromes: from index L on, every syndrome is the sum the locator gives of the L before it,
and the locator's degree is at most L. It is what makes R193 a locator solver. -/
def Obligations.LocatorGeneratesTheSyndromes : Prop :=
  ∀ syn : List Elem, syn.length ≤ 16 →
    (∀ i, (bm syn).len < i → coeff (bm syn).sigma i = 0) ∧
    ∀ r, (bm syn).len ≤ r → r < syn.length →
      gfAdd (syn.getD r 0)
        (gfSum (bm syn).len fun j => gfMul (coeff (bm syn).sigma (j + 1)) (syn.getD (r - (j + 1)) 0)) = 0

/-- RS.CHIEN (R195, R204, R205): its word; the error list holds exactly the root positions 0..62 in ascending order with magnitude
0, even when their number is not the degree; the zero polynomial fails with LOCATOR_ZERO and an empty list. -/
def Obligations.RsChienListsExactlyTheRoots : Prop :=
  ∀ (ra : RegNo) (s : State),
    encode (.rsChien ra) = 0x90000000#32 ||| (BitVec.ofNat 32 ra.val <<< 18) ∧
    (deg s.polys[ra] = none → ∃ t, exec (.rsChien ra) s = .next t ∧ OnlyErrorList s t ∧
      (∀ j : Fin 36, t.errList[j] = ⟨0, 0⟩) ∧ t.errCnt = 0 ∧ t.result = 0 ∧ t.status = 0x00000602#32) ∧
    ∀ d, deg s.polys[ra] = some d → ∃ (t : State) (roots : List Nat), exec (.rsChien ra) s = .next t ∧
      OnlyErrorList s t ∧ roots.Pairwise (· < ·) ∧
      (∀ p, p ∈ roots ↔ p < 63 ∧ eval s.polys[ra] (gfExp ((63 - p) % 63)) = 0) ∧
      (∀ j : Fin 36, t.errList[j] = ⟨BitVec.ofNat 6 (roots.getD j.val 0), 0⟩) ∧
      t.errCnt = BitVec.ofNat 6 roots.length ∧ t.result = BitVec.ofNat 32 roots.length ∧
      t.status = if roots.length = d then 0x00000001#32 else 0x00000302#32

/-- A non-zero locator has at most as many root positions as its degree, so a mismatch means fewer (R196). -/
def Obligations.RootCountIsAtMostTheDegree : Prop :=
  ∀ (sigma : PolyReg) (d : Nat), deg sigma = some d → (chien sigma).length ≤ d

/-- RS.FORNEY (R198, R207, R208): its word; with a zero denominator among the listed positions it fails with FORNEY_ZERO
and writes no magnitude; else each listed magnitude times its denominator is the evaluator's value, positions and count
stay. What it does where ERRCNT is above 36, which no run reaches, is the model's deduction (notes/assumptions/7.md). -/
def Obligations.RsForneyComputesMagnitudesAtomically : Prop :=
  ∀ (c : Code) (ra rb : RegNo) (s : State),
    encode (.rsForney c ra rb) = 0x94000000#32 ||| (BitVec.ofNat 32 (codeNumber c) <<< 24) |||
      (BitVec.ofNat 32 ra.val <<< 18) ||| (BitVec.ofNat 32 rb.val <<< 15) ∧
    ((∃ j : Fin 36, j.val < s.errCnt.toNat ∧ eval (deriv s.polys[ra]) (alphaNeg s.errList[j].pos.toNat) = 0) →
      exec (.rsForney c ra rb) s = .next { s with result := 0#32, status := 0x00000402#32 }) ∧
    ((∀ j : Fin 36, j.val < s.errCnt.toNat → eval (deriv s.polys[ra]) (alphaNeg s.errList[j].pos.toNat) ≠ 0) →
      ∃ t, exec (.rsForney c ra rb) s = .next t ∧
        t = { s with errList := t.errList, result := zext s.errCnt, status := 0x00000001#32 } ∧
        ∀ j : Fin 36, t.errList[j].pos = s.errList[j].pos ∧
          (s.errCnt.toNat ≤ j.val → t.errList[j] = s.errList[j]) ∧
          (j.val < s.errCnt.toNat →
            gfMul t.errList[j].mag (eval (deriv s.polys[ra]) (alphaNeg s.errList[j].pos.toNat)) =
              eval (evaluator s.polys[rb] s.polys[ra] (Config.params c).t2) (alphaNeg s.errList[j].pos.toNat)))

/-! ## The codec -/

/-- The generator matrix (R233, R234): column i of GEN, as a polynomial of degree below t2, has at every root alpha^m of
g(x), m in 1..t2, the value of x^(n-1-i). -/
def Obligations.GeneratorColumnsAreTheRemainders : Prop :=
  ∀ (c : Code) (i m : Nat), i < (Config.params c).k → 1 ≤ m → m ≤ (Config.params c).t2 →
    gfSum (Config.params c).t2
        (fun j => gfMul (genEntry c j i) (gfPow (alphaPow m) ((Config.params c).t2 - 1 - j))) =
      gfPow (alphaPow m) ((Config.params c).n - 1 - i)

/-- RS.ENC (R231, R236): its word; the parity slots become the rows' dot products with the data, every other slot stays. -/
def Obligations.RsEncWritesTheParity : Prop :=
  ∀ (c : Code) (s : State),
    encode (.rsEnc c) = 0x80000000#32 ||| (BitVec.ofNat 32 (codeNumber c) <<< 24) ∧
    ∃ t, exec (.rsEnc c) s = .next t ∧
    t = { s with sym := t.sym, result := 0#32, status := 0x00000001#32 } ∧
    ∀ x : Fin 36,
      ((Config.params c).k ≤ x.val → x.val < (Config.params c).n → t.sym[x] =
        gfSum (Config.params c).k fun i => gfMul (genEntry c (x.val - (Config.params c).k) i) (symAt s.sym i)) ∧
      (x.val < (Config.params c).k ∨ (Config.params c).n ≤ x.val → t.sym[x] = s.sym[x])

/-- After RS.ENC the buffer is a codeword, so RS.SYND with the same code reports SYNZERO; encoding is linear (R237). -/
def Obligations.EncodedBufferIsACodeword : Prop :=
  (∀ (c : Code) (rd : RegNo) (s t : State), exec (.rsEnc c) s = .next t →
    IsCodeword c t.sym ∧ ∃ u, exec (.rsSynd c rd) t = .next u ∧ u.status = 0x00000009#32 ∧ u.result = 1) ∧
  ∀ (c : Code) (x y : SymBuf), encodeBuf c (addBuf x y) = addBuf (encodeBuf c x) (encodeBuf c y)

/-- Round trip (R245): RS.DEC after RS.ENC finds nothing to correct and leaves SYM. -/
def Obligations.DecodeAfterEncodeChangesNothing : Prop :=
  ∀ (c : Code) (s t : State), exec (.rsEnc c) s = .next t →
    exec (.rsDec c) t = .next { t with
      errList := Vector.replicate 36 ⟨0, 0⟩, errCnt := 0, result := 0#32, status := 0x00000009#32 }

/-- RS.DEC (R238): its word; it makes its checks in the order of R244, and the first that fails decides the FAILCODE; a failure clears the
error list and writes no SYM slot (R238, R239, R241, R243). The check of the Forney denominators has no case of its own
here, since R209 says it cannot fail (RsDecNeverFailsForneyZero). -/
def Obligations.RsDecChecksInOrder : Prop :=
  ∀ (c : Code) (s : State),
    encode (.rsDec c) = 0x84000000#32 ||| (BitVec.ofNat 32 (codeNumber c) <<< 24) ∧
    let q := Config.params c
    let syn := syndromes q (wordPoly c s.sym)
    let b := bm syn
    let cleared : State := { s with errList := Vector.replicate 36 ⟨0, 0⟩, errCnt := 0, result := 0#32 }
    (IsCodeword c s.sym → exec (.rsDec c) s = .next { cleared with status := 0x00000009#32 }) ∧
    (¬ IsCodeword c s.sym → (deg b.sigma ≠ some b.len ∨ q.t2 / 2 < b.len) →
      exec (.rsDec c) s = .next { cleared with status := 0x00000202#32 }) ∧
    (¬ IsCodeword c s.sym → deg b.sigma = some b.len → b.len ≤ q.t2 / 2 →
      ((chien b.sigma).length ≠ b.len → exec (.rsDec c) s = .next { cleared with status := 0x00000302#32 }) ∧
      ((chien b.sigma).length = b.len →
        ((∀ p ∈ chien b.sigma, forneyDen b.sigma p ≠ 0) → (∃ p ∈ chien b.sigma, q.n ≤ p) →
          exec (.rsDec c) s = .next { cleared with status := 0x00000502#32 }) ∧
        ((∀ p ∈ chien b.sigma, forneyDen b.sigma p ≠ 0) → (∀ p ∈ chien b.sigma, p < q.n) →
          ∃ t, exec (.rsDec c) s = .next t ∧ t.status = 0x00000001#32 ∧ t.result = BitVec.ofNat 32 b.len)))

/-- A successful correction (R238, R240): RESULT and ERRCNT are the number of corrections, 1..t, at ascending positions
below n; each data slot is corrected by the magnitude listed at its position; no other slot, and no entry from ERRCNT on,
holds anything new. -/
def Obligations.RsDecAppliesTheListedCorrections : Prop :=
  ∀ (c : Code) (s t : State), exec (.rsDec c) s = .next t → t.status = 0x00000001#32 →
    t = { s with sym := t.sym, errList := t.errList, errCnt := t.errCnt, result := t.result, status := t.status } ∧
    1 ≤ t.errCnt.toNat ∧ t.errCnt.toNat ≤ (Config.params c).t2 / 2 ∧ t.result = zext t.errCnt ∧
    (∀ j : Fin 36, t.errCnt.toNat ≤ j.val → t.errList[j] = ⟨0, 0⟩) ∧
    (∀ j : Fin 36, j.val < t.errCnt.toNat → t.errList[j].pos.toNat < (Config.params c).n) ∧
    (∀ i j : Fin 36, i < j → j.val < t.errCnt.toNat → t.errList[i].pos.toNat < t.errList[j].pos.toNat) ∧
    ∀ i : Fin 36,
      (∀ j : Fin 36, i.val < (Config.params c).k → j.val < t.errCnt.toNat →
        t.errList[j].pos.toNat = (Config.params c).n - 1 - i.val → t.sym[i] = s.sym[i] ^^^ t.errList[j].mag) ∧
      ((Config.params c).k ≤ i.val ∨
        (∀ j : Fin 36, j.val < t.errCnt.toNat → t.errList[j].pos.toNat ≠ (Config.params c).n - 1 - i.val) →
        t.sym[i] = s.sym[i])

/-- RS.DEC never ends with FORNEY_ZERO (R209). -/
def Obligations.RsDecNeverFailsForneyZero : Prop :=
  ∀ (c : Code) (s t : State), exec (.rsDec c) s = .next t → t.status ≠ 0x00000402#32

/-- A single changed symbol of a codeword gives RESULT 1 and the original data (R245). -/
def Obligations.SingleErrorIsCorrected : Prop :=
  ∀ (c : Code) (s : State) (word : SymBuf), IsCodeword c word → changedSymbols c word s.sym = 1 →
    ∃ t, exec (.rsDec c) s = .next t ∧ t.status = 0x00000001#32 ∧ t.result = 1 ∧ t.errCnt = 1 ∧
      ∀ i : Fin 36, i.val < (Config.params c).k → t.sym[i] = word[i]

/-- A codeword with at most t of its n symbols changed is decoded to the original data, with the number of changed symbols
as RESULT and ERRCNT (R199, R245). -/
def Obligations.ErrorsUpToTheRadiusAreCorrected : Prop :=
  ∀ (c : Code) (s : State) (word : SymBuf), IsCodeword c word →
    changedSymbols c word s.sym ≤ (Config.params c).t2 / 2 →
    ∃ t, exec (.rsDec c) s = .next t ∧ statusOK t.status = true ∧
      t.result = BitVec.ofNat 32 (changedSymbols c word s.sym) ∧ t.errCnt.toNat = changedSymbols c word s.sym ∧
      ∀ i : Fin 36, i.val < (Config.params c).k → t.sym[i] = word[i]

/-- No success gives a corrected word that is not a codeword: the received word with every listed correction applied is
one (R243, R246). -/
def Obligations.SuccessfulDecodeYieldsACodeword : Prop :=
  ∀ (c : Code) (s t : State), exec (.rsDec c) s = .next t → statusOK t.status = true →
    IsCodeword c (correctedWord c s.sym t.errEntries)

/-- The step commands on one word find the corrections RS.DEC finds (R201, R313): syndromes in p0, locator in p1. -/
def Obligations.StepPathAgreesWithDecode : Prop :=
  ∀ (c : Code) (p0 p1 : RegNo) (s d s1 s2 s3 s4 : State), p0 ≠ p1 →
    exec (.rsDec c) s = .next d → d.status = 0x00000001#32 →
    exec (.rsSynd c p0) s = .next s1 → exec (.rsElp c p1 p0) s1 = .next s2 → exec (.rsChien p1) s2 = .next s3 →
    exec (.rsForney c p1 p0) s3 = .next s4 →
      s4.status = 0x00000001#32 ∧ s4.errList = d.errList ∧ s4.errCnt = d.errCnt ∧ s4.result = d.result

/-- SYM[n..35] take no part in the RS commands (R231): states that differ only there end in states that differ only
there, with those slots kept. -/
def Obligations.UnusedSlotsTakeNoPart : Prop :=
  ∀ (c : Code) (rd : RegNo) (i : Instr) (s : State) (other : SymBuf),
    (i = .rsEnc c ∨ i = .rsDec c ∨ i = .rsSynd c rd) →
    (∀ x : Fin 36, x.val < (Config.params c).n → other[x] = s.sym[x]) →
    ∃ t u, exec i s = .next t ∧ exec i { s with sym := other } = .next u ∧ u = { t with sym := u.sym } ∧
      (∀ x : Fin 36, x.val < (Config.params c).n → u.sym[x] = t.sym[x]) ∧
      ∀ x : Fin 36, (Config.params c).n ≤ x.val → t.sym[x] = s.sym[x] ∧ u.sym[x] = other[x]
end

