-- ==== Sys2Proof/Laws/Field.lean ====
section
/-! SUPPORT. The field's tables and sums: the stored tables agree with the lists R131 builds. -/

namespace Sys2Proof.Machine

open Sys2Proof

/-- The storage of EXP holds the list R131 builds, entry by entry. -/
theorem gfExp_eq_table : ∀ i < 63, gfExp i = expTable.getD i 0 := by decide +kernel

/-- Every entry of EXP is non-zero. -/
theorem gfExp_ne_zero : ∀ i < 63, gfExp i ≠ 0 := by decide +kernel

theorem gfMul_zero_left (b : Elem) : gfMul 0 b = 0 := by simp [gfMul]

theorem gfMul_zero_right (a : Elem) : gfMul a 0 = 0 := by simp [gfMul]

/-- The product of non-zero elements, by their logarithms (R134). -/
theorem gfMul_of_ne_zero {a b : Elem} (ha : a ≠ 0) (hb : b ≠ 0) :
    gfMul a b = gfExp ((gfLog a + gfLog b) % 63) := by
  rw [gfMul, if_neg (not_or.mpr ⟨ha, hb⟩), Config.order]

@[simp] theorem gfSum_zero (f : Nat → Elem) : gfSum 0 f = 0 := rfl

theorem gfSum_succ (n : Nat) (f : Nat → Elem) : gfSum (n + 1) f = gfAdd (gfSum n f) (f n) := by
  simp [gfSum, List.range_succ]

/-- A sum depends only on the terms it adds. -/
theorem gfSum_congr {n : Nat} {f g : Nat → Elem} (h : ∀ i < n, f i = g i) : gfSum n f = gfSum n g := by
  induction n with
  | zero => rfl
  | succ n ih => rw [gfSum_succ, gfSum_succ, ih fun i hi => h i (by omega), h n (by omega)]

end Sys2Proof.Machine
end

