-- ==== Sys2Proof/Laws/Poly.lean ====
section
/-! SUPPORT. Coefficients of the polynomial functions, and the degree. -/

namespace Sys2Proof.Machine

open Sys2Proof

@[simp] theorem getElem_polyOf (f : Nat → Elem) (i : Nat) (h : i < 36) : (polyOf f)[i] = f i := by
  simp [polyOf]

theorem coeff_of_lt (p : PolyReg) {i : Nat} (h : i < 36) : coeff p i = p[i] := by simp [coeff, h]

theorem coeff_of_ge (p : PolyReg) {i : Nat} (h : 36 ≤ i) : coeff p i = 0 := by simp [coeff, Nat.not_lt.mpr h]

theorem coeff_polyOf (f : Nat → Elem) {i : Nat} (h : i < 36) : coeff (polyOf f) i = f i := by
  simp [coeff_of_lt _ h]

@[simp] theorem coeff_polyZero (i : Nat) : coeff polyZero i = 0 := by
  unfold coeff polyZero
  split <;> simp

/-- Polynomials with the same coefficients are equal. -/
theorem poly_ext {p q : PolyReg} (h : ∀ i < 36, coeff p i = coeff q i) : p = q := by
  ext i hi
  have := h i hi
  rw [coeff_of_lt p hi, coeff_of_lt q hi] at this
  rw [this]

theorem coeff_padd (a b : PolyReg) {i : Nat} (h : i < 36) : coeff (padd a b) i = gfAdd (coeff a i) (coeff b i) :=
  coeff_polyOf _ h

theorem coeff_pmul (a b : PolyReg) {m : Nat} (h : m < 36) :
    coeff (pmul a b) m = gfSum (m + 1) fun i => gfMul (coeff a i) (coeff b (m - i)) :=
  coeff_polyOf _ h

theorem coeff_deriv (p : PolyReg) {j : Nat} (h : j < 36) :
    coeff (deriv p) j = if (j + 1) % 2 = 1 then coeff p (j + 1) else 0 :=
  coeff_polyOf _ h

theorem coeff_setCoeff (p : PolyReg) {i : Nat} (hi : i < 36) (v : Elem) (j : Nat) :
    coeff (setCoeff p i v) j = if j = i then v else coeff p j := by
  unfold setCoeff coeff
  rw [dif_pos hi]
  by_cases hj : j < 36
  · rw [dif_pos hj, dif_pos hj, Vector.getElem_set]
    simp [eq_comm]
  · rw [dif_neg hj, dif_neg hj]
    have : j ≠ i := by omega
    simp [this]

/-- UNDEF is the degree of exactly the zero polynomial (R161). -/
theorem deg_eq_none {p : PolyReg} : deg p = none ↔ ∀ i, coeff p i = 0 := by
  unfold deg
  simp only [List.find?_eq_none, List.mem_reverse, List.mem_range, bne_iff_ne, ne_eq, Decidable.not_not]
  exact ⟨fun h i => if hi : i < 36 then h i hi else coeff_of_ge p (by omega), fun h i _ => h i⟩

/-- A degree is the highest index with a non-zero coefficient (R161). -/
theorem deg_eq_some {p : PolyReg} {d : Nat} : deg p = some d ↔ coeff p d ≠ 0 ∧ ∀ i, d < i → coeff p i = 0 := by
  have key : ∀ n, (List.range n).reverse.find? (fun i => coeff p i != 0) = some d ↔
      d < n ∧ coeff p d ≠ 0 ∧ ∀ i, d < i → i < n → coeff p i = 0 := by
    intro n
    induction n with
    | zero => simp
    | succ n ih =>
      rw [List.range_succ, List.reverse_append, List.reverse_singleton, List.singleton_append, List.find?_cons]
      by_cases h : coeff p n = 0
      · simp only [h, bne_self_eq_false, ih]
        constructor
        · rintro ⟨hd, hne, hi⟩
          exact ⟨by omega, hne, fun i h1 h2 => if e : i = n then e ▸ h else hi i h1 (by omega)⟩
        · rintro ⟨hd, hne, hi⟩
          have : d ≠ n := fun e => hne (e ▸ h)
          exact ⟨by omega, hne, fun i h1 h2 => hi i h1 (by omega)⟩
      · have hb : (coeff p n != 0) = true := by simpa using h
        simp only [hb, Option.some.injEq]
        constructor
        · rintro rfl
          exact ⟨by omega, h, fun i h1 h2 => by omega⟩
        · rintro ⟨hd, hne, hi⟩
          by_contra e
          exact h (hi n (by omega) (by omega))
  rw [deg, key]
  constructor
  · rintro ⟨_, hne, hi⟩
    exact ⟨hne, fun i h1 => if h2 : i < 36 then hi i h1 h2 else coeff_of_ge p (by omega)⟩
  · rintro ⟨hne, hi⟩
    refine ⟨?_, hne, fun i h1 _ => hi i h1⟩
    by_contra h
    exact hne (coeff_of_ge p (by omega))

/-- The word polynomial of a code holds the buffer in reverse (R232). -/
theorem coeff_wordPoly (c : Code) (sym : SymBuf) {p : Nat} (h : p < (Config.params c).n) :
    coeff (wordPoly c sym) p = symAt sym ((Config.params c).n - 1 - p) := by
  have h36 : p < 36 := by
    cases c <;> simp [Config.params] at h <;> omega
  rw [wordPoly, coeff_polyOf _ h36, if_pos h]

end Sys2Proof.Machine
end

