-- ==== Sys2Proof/Laws/Codec.lean ====
section
/-! SUPPORT. What the decoding and codec functions hold, slot by slot. -/

namespace Sys2Proof.Machine

open Sys2Proof

/-- The Chien search lists exactly the root positions (R195). -/
theorem mem_chien {sigma : PolyReg} {p : Nat} : p ∈ chien sigma ↔ p < 63 ∧ eval sigma (alphaNeg p) = 0 := by
  simp [chien]

/-- … in ascending order. -/
theorem chien_pairwise (sigma : PolyReg) : (chien sigma).Pairwise (· < ·) :=
  List.Pairwise.filter _ List.pairwise_lt_range

theorem coeff_synPoly (s : List Elem) {i : Nat} (h : i < 36) : coeff (synPoly s) i = s.getD i 0 := coeff_polyOf _ h

@[simp] theorem length_syndromes (q : CodeParams) (r : PolyReg) : (syndromes q r).length = q.t2 := by
  simp [syndromes]

@[simp] theorem length_synOfReg (t2 : Nat) (p : PolyReg) : (synOfReg t2 p).length = t2 := by
  simp [synOfReg]

/-- One more step of the loop of R193. -/
theorem bmRun_succ (s : List Elem) (r : Nat) : bmRun s (r + 1) = bmStep s (bmRun s r) r := by
  simp [bmRun, List.range_succ]

/-- The parity slots of an encoded buffer (R236). -/
theorem encodeBuf_parity (c : Code) (sym : SymBuf) (x : Fin 36) (h1 : (Config.params c).k ≤ x.val)
    (h2 : x.val < (Config.params c).n) : (encodeBuf c sym)[x] = parity c sym (x.val - (Config.params c).k) := by
  simp [encodeBuf, h1, h2]

/-- RS.ENC changes no other slot (R231, R236). -/
theorem encodeBuf_other (c : Code) (sym : SymBuf) (x : Fin 36)
    (h : ¬ ((Config.params c).k ≤ x.val ∧ x.val < (Config.params c).n)) : (encodeBuf c sym)[x] = sym[x] := by
  simp [encodeBuf, h]

/-- RS.DEC rewrites the data slots only (R240). -/
theorem correctBuf_other (c : Code) (sym : SymBuf) (es : List ErrEntry) (x : Fin 36)
    (h : (Config.params c).k ≤ x.val) : (correctBuf c sym es)[x] = sym[x] := by
  simp [correctBuf, Nat.not_lt.mpr h]

/-- A decode that corrects has passed every check of R238, and lists one entry per root. -/
theorem decodeBuf_corrected {c : Code} {sym : SymBuf} {d : Nat} {es : List ErrEntry}
    (h : decodeBuf c sym = .corrected d es) :
    let s := syndromes (Config.params c) (wordPoly c sym)
    let b := bm s
    allZero s = false ∧ deg b.sigma = some d ∧ d = b.len ∧ b.len ≤ (Config.params c).t ∧
      (chien b.sigma).length = d ∧ (∀ p ∈ chien b.sigma, forneyDen b.sigma p ≠ 0) ∧
      (∀ p ∈ chien b.sigma, p < (Config.params c).n) ∧
      es = (chien b.sigma).map fun p =>
        ⟨BitVec.ofNat 6 p, forneyMag (evaluator (synPoly s) b.sigma (Config.params c).t2) b.sigma p⟩ := by
  unfold decodeBuf at h
  simp only at h
  split at h
  · cases h
  · rename_i hz
    split at h
    · cases h
    · rename_i d' hd
      split at h
      · cases h
      · rename_i hg
        split at h
        · cases h
        · rename_i hr
          split at h
          · cases h
          · rename_i hf
            split at h
            · cases h
            · rename_i hp
              cases h
              simp only [List.any_eq_true, not_exists, not_and, beq_iff_eq, decide_eq_true_eq, Nat.not_le] at hf hp
              push Not at hg hr
              exact ⟨by simpa using hz, hd, hg.1, hg.2, hr, hf, hp, rfl⟩

end Sys2Proof.Machine
end

