-- ==== Sys2Proof/Laws/State.lean ====
section
/-! SUPPORT. What each setter does to each field of the state: one lemma per field per update, so that no later proof
unfolds a record update. -/

namespace Sys2Proof.Machine

open Sys2Proof

variable (s : State)

@[simp] theorem State.setFie_fie (b : Bool) : (s.setFie b).fie = b := rfl
@[simp] theorem State.setFie_cmd (b : Bool) : (s.setFie b).cmd = s.cmd := rfl
@[simp] theorem State.setFie_status (b : Bool) : (s.setFie b).status = s.status := rfl
@[simp] theorem State.setFie_result (b : Bool) : (s.setFie b).result = s.result := rfl
@[simp] theorem State.setFie_fault (b : Bool) : (s.setFie b).fault = s.fault := rfl
@[simp] theorem State.setFie_faultInfo (b : Bool) : (s.setFie b).faultInfo = s.faultInfo := rfl
@[simp] theorem State.setFie_errCnt (b : Bool) : (s.setFie b).errCnt = s.errCnt := rfl
@[simp] theorem State.setFie_cmdCount (b : Bool) : (s.setFie b).cmdCount = s.cmdCount := rfl
@[simp] theorem State.setFie_sym (b : Bool) : (s.setFie b).sym = s.sym := rfl
@[simp] theorem State.setFie_errList (b : Bool) : (s.setFie b).errList = s.errList := rfl
@[simp] theorem State.setFie_polys (b : Bool) : (s.setFie b).polys = s.polys := rfl
@[simp] theorem State.setFie_rstN (b : Bool) : (s.setFie b).rstN = s.rstN := rfl
@[simp] theorem State.setFie_bus (b : Bool) : (s.setFie b).bus = s.bus := rfl
@[simp] theorem State.setFie_pending (b : Bool) : (s.setFie b).pending = s.pending := rfl

@[simp] theorem State.setStatus_fie (w : Word) : (s.setStatus w).fie = s.fie := rfl
@[simp] theorem State.setStatus_cmd (w : Word) : (s.setStatus w).cmd = s.cmd := rfl
@[simp] theorem State.setStatus_status (w : Word) : (s.setStatus w).status = w := rfl
@[simp] theorem State.setStatus_result (w : Word) : (s.setStatus w).result = s.result := rfl
@[simp] theorem State.setStatus_fault (w : Word) : (s.setStatus w).fault = s.fault := rfl
@[simp] theorem State.setStatus_faultInfo (w : Word) : (s.setStatus w).faultInfo = s.faultInfo := rfl
@[simp] theorem State.setStatus_errCnt (w : Word) : (s.setStatus w).errCnt = s.errCnt := rfl
@[simp] theorem State.setStatus_cmdCount (w : Word) : (s.setStatus w).cmdCount = s.cmdCount := rfl
@[simp] theorem State.setStatus_sym (w : Word) : (s.setStatus w).sym = s.sym := rfl
@[simp] theorem State.setStatus_errList (w : Word) : (s.setStatus w).errList = s.errList := rfl
@[simp] theorem State.setStatus_polys (w : Word) : (s.setStatus w).polys = s.polys := rfl
@[simp] theorem State.setStatus_rstN (w : Word) : (s.setStatus w).rstN = s.rstN := rfl
@[simp] theorem State.setStatus_bus (w : Word) : (s.setStatus w).bus = s.bus := rfl
@[simp] theorem State.setStatus_pending (w : Word) : (s.setStatus w).pending = s.pending := rfl

@[simp] theorem State.setResult_fie (w : Word) : (s.setResult w).fie = s.fie := rfl
@[simp] theorem State.setResult_cmd (w : Word) : (s.setResult w).cmd = s.cmd := rfl
@[simp] theorem State.setResult_status (w : Word) : (s.setResult w).status = s.status := rfl
@[simp] theorem State.setResult_result (w : Word) : (s.setResult w).result = w := rfl
@[simp] theorem State.setResult_fault (w : Word) : (s.setResult w).fault = s.fault := rfl
@[simp] theorem State.setResult_faultInfo (w : Word) : (s.setResult w).faultInfo = s.faultInfo := rfl
@[simp] theorem State.setResult_errCnt (w : Word) : (s.setResult w).errCnt = s.errCnt := rfl
@[simp] theorem State.setResult_cmdCount (w : Word) : (s.setResult w).cmdCount = s.cmdCount := rfl
@[simp] theorem State.setResult_sym (w : Word) : (s.setResult w).sym = s.sym := rfl
@[simp] theorem State.setResult_errList (w : Word) : (s.setResult w).errList = s.errList := rfl
@[simp] theorem State.setResult_polys (w : Word) : (s.setResult w).polys = s.polys := rfl
@[simp] theorem State.setResult_rstN (w : Word) : (s.setResult w).rstN = s.rstN := rfl
@[simp] theorem State.setResult_bus (w : Word) : (s.setResult w).bus = s.bus := rfl
@[simp] theorem State.setResult_pending (w : Word) : (s.setResult w).pending = s.pending := rfl

@[simp] theorem State.setFault_fie (f : BitVec 6) : (s.setFault f).fie = s.fie := rfl
@[simp] theorem State.setFault_cmd (f : BitVec 6) : (s.setFault f).cmd = s.cmd := rfl
@[simp] theorem State.setFault_status (f : BitVec 6) : (s.setFault f).status = s.status := rfl
@[simp] theorem State.setFault_result (f : BitVec 6) : (s.setFault f).result = s.result := rfl
@[simp] theorem State.setFault_fault (f : BitVec 6) : (s.setFault f).fault = f := rfl
@[simp] theorem State.setFault_faultInfo (f : BitVec 6) : (s.setFault f).faultInfo = s.faultInfo := rfl
@[simp] theorem State.setFault_errCnt (f : BitVec 6) : (s.setFault f).errCnt = s.errCnt := rfl
@[simp] theorem State.setFault_cmdCount (f : BitVec 6) : (s.setFault f).cmdCount = s.cmdCount := rfl
@[simp] theorem State.setFault_sym (f : BitVec 6) : (s.setFault f).sym = s.sym := rfl
@[simp] theorem State.setFault_errList (f : BitVec 6) : (s.setFault f).errList = s.errList := rfl
@[simp] theorem State.setFault_polys (f : BitVec 6) : (s.setFault f).polys = s.polys := rfl
@[simp] theorem State.setFault_rstN (f : BitVec 6) : (s.setFault f).rstN = s.rstN := rfl
@[simp] theorem State.setFault_bus (f : BitVec 6) : (s.setFault f).bus = s.bus := rfl
@[simp] theorem State.setFault_pending (f : BitVec 6) : (s.setFault f).pending = s.pending := rfl

@[simp] theorem State.setFaultInfo_fie (w : Word) : (s.setFaultInfo w).fie = s.fie := rfl
@[simp] theorem State.setFaultInfo_cmd (w : Word) : (s.setFaultInfo w).cmd = s.cmd := rfl
@[simp] theorem State.setFaultInfo_status (w : Word) : (s.setFaultInfo w).status = s.status := rfl
@[simp] theorem State.setFaultInfo_result (w : Word) : (s.setFaultInfo w).result = s.result := rfl
@[simp] theorem State.setFaultInfo_fault (w : Word) : (s.setFaultInfo w).fault = s.fault := rfl
@[simp] theorem State.setFaultInfo_faultInfo (w : Word) : (s.setFaultInfo w).faultInfo = w := rfl
@[simp] theorem State.setFaultInfo_errCnt (w : Word) : (s.setFaultInfo w).errCnt = s.errCnt := rfl
@[simp] theorem State.setFaultInfo_cmdCount (w : Word) : (s.setFaultInfo w).cmdCount = s.cmdCount := rfl
@[simp] theorem State.setFaultInfo_sym (w : Word) : (s.setFaultInfo w).sym = s.sym := rfl
@[simp] theorem State.setFaultInfo_errList (w : Word) : (s.setFaultInfo w).errList = s.errList := rfl
@[simp] theorem State.setFaultInfo_polys (w : Word) : (s.setFaultInfo w).polys = s.polys := rfl
@[simp] theorem State.setFaultInfo_rstN (w : Word) : (s.setFaultInfo w).rstN = s.rstN := rfl
@[simp] theorem State.setFaultInfo_bus (w : Word) : (s.setFaultInfo w).bus = s.bus := rfl
@[simp] theorem State.setFaultInfo_pending (w : Word) : (s.setFaultInfo w).pending = s.pending := rfl

@[simp] theorem State.setSym_fie (v : SymBuf) : (s.setSym v).fie = s.fie := rfl
@[simp] theorem State.setSym_cmd (v : SymBuf) : (s.setSym v).cmd = s.cmd := rfl
@[simp] theorem State.setSym_status (v : SymBuf) : (s.setSym v).status = s.status := rfl
@[simp] theorem State.setSym_result (v : SymBuf) : (s.setSym v).result = s.result := rfl
@[simp] theorem State.setSym_fault (v : SymBuf) : (s.setSym v).fault = s.fault := rfl
@[simp] theorem State.setSym_faultInfo (v : SymBuf) : (s.setSym v).faultInfo = s.faultInfo := rfl
@[simp] theorem State.setSym_errCnt (v : SymBuf) : (s.setSym v).errCnt = s.errCnt := rfl
@[simp] theorem State.setSym_cmdCount (v : SymBuf) : (s.setSym v).cmdCount = s.cmdCount := rfl
@[simp] theorem State.setSym_sym (v : SymBuf) : (s.setSym v).sym = v := rfl
@[simp] theorem State.setSym_errList (v : SymBuf) : (s.setSym v).errList = s.errList := rfl
@[simp] theorem State.setSym_polys (v : SymBuf) : (s.setSym v).polys = s.polys := rfl
@[simp] theorem State.setSym_rstN (v : SymBuf) : (s.setSym v).rstN = s.rstN := rfl
@[simp] theorem State.setSym_bus (v : SymBuf) : (s.setSym v).bus = s.bus := rfl
@[simp] theorem State.setSym_pending (v : SymBuf) : (s.setSym v).pending = s.pending := rfl

@[simp] theorem State.setPoly_fie (r : RegNo) (p : PolyReg) : (s.setPoly r p).fie = s.fie := rfl
@[simp] theorem State.setPoly_cmd (r : RegNo) (p : PolyReg) : (s.setPoly r p).cmd = s.cmd := rfl
@[simp] theorem State.setPoly_status (r : RegNo) (p : PolyReg) : (s.setPoly r p).status = s.status := rfl
@[simp] theorem State.setPoly_result (r : RegNo) (p : PolyReg) : (s.setPoly r p).result = s.result := rfl
@[simp] theorem State.setPoly_fault (r : RegNo) (p : PolyReg) : (s.setPoly r p).fault = s.fault := rfl
@[simp] theorem State.setPoly_faultInfo (r : RegNo) (p : PolyReg) : (s.setPoly r p).faultInfo = s.faultInfo := rfl
@[simp] theorem State.setPoly_errCnt (r : RegNo) (p : PolyReg) : (s.setPoly r p).errCnt = s.errCnt := rfl
@[simp] theorem State.setPoly_cmdCount (r : RegNo) (p : PolyReg) : (s.setPoly r p).cmdCount = s.cmdCount := rfl
@[simp] theorem State.setPoly_sym (r : RegNo) (p : PolyReg) : (s.setPoly r p).sym = s.sym := rfl
@[simp] theorem State.setPoly_errList (r : RegNo) (p : PolyReg) : (s.setPoly r p).errList = s.errList := rfl
@[simp] theorem State.setPoly_polys (r : RegNo) (p : PolyReg) : (s.setPoly r p).polys = s.polys.set r p := rfl
@[simp] theorem State.setPoly_rstN (r : RegNo) (p : PolyReg) : (s.setPoly r p).rstN = s.rstN := rfl
@[simp] theorem State.setPoly_bus (r : RegNo) (p : PolyReg) : (s.setPoly r p).bus = s.bus := rfl
@[simp] theorem State.setPoly_pending (r : RegNo) (p : PolyReg) : (s.setPoly r p).pending = s.pending := rfl

@[simp] theorem State.setErrList_fie (v : Vector ErrEntry 36) : (s.setErrList v).fie = s.fie := rfl
@[simp] theorem State.setErrList_cmd (v : Vector ErrEntry 36) : (s.setErrList v).cmd = s.cmd := rfl
@[simp] theorem State.setErrList_status (v : Vector ErrEntry 36) : (s.setErrList v).status = s.status := rfl
@[simp] theorem State.setErrList_result (v : Vector ErrEntry 36) : (s.setErrList v).result = s.result := rfl
@[simp] theorem State.setErrList_fault (v : Vector ErrEntry 36) : (s.setErrList v).fault = s.fault := rfl
@[simp] theorem State.setErrList_faultInfo (v : Vector ErrEntry 36) : (s.setErrList v).faultInfo = s.faultInfo := rfl
@[simp] theorem State.setErrList_errCnt (v : Vector ErrEntry 36) : (s.setErrList v).errCnt = s.errCnt := rfl
@[simp] theorem State.setErrList_cmdCount (v : Vector ErrEntry 36) : (s.setErrList v).cmdCount = s.cmdCount := rfl
@[simp] theorem State.setErrList_sym (v : Vector ErrEntry 36) : (s.setErrList v).sym = s.sym := rfl
@[simp] theorem State.setErrList_errList (v : Vector ErrEntry 36) : (s.setErrList v).errList = v := rfl
@[simp] theorem State.setErrList_polys (v : Vector ErrEntry 36) : (s.setErrList v).polys = s.polys := rfl
@[simp] theorem State.setErrList_rstN (v : Vector ErrEntry 36) : (s.setErrList v).rstN = s.rstN := rfl
@[simp] theorem State.setErrList_bus (v : Vector ErrEntry 36) : (s.setErrList v).bus = s.bus := rfl
@[simp] theorem State.setErrList_pending (v : Vector ErrEntry 36) : (s.setErrList v).pending = s.pending := rfl

@[simp] theorem State.setErrCnt_fie (n : BitVec 6) : (s.setErrCnt n).fie = s.fie := rfl
@[simp] theorem State.setErrCnt_cmd (n : BitVec 6) : (s.setErrCnt n).cmd = s.cmd := rfl
@[simp] theorem State.setErrCnt_status (n : BitVec 6) : (s.setErrCnt n).status = s.status := rfl
@[simp] theorem State.setErrCnt_result (n : BitVec 6) : (s.setErrCnt n).result = s.result := rfl
@[simp] theorem State.setErrCnt_fault (n : BitVec 6) : (s.setErrCnt n).fault = s.fault := rfl
@[simp] theorem State.setErrCnt_faultInfo (n : BitVec 6) : (s.setErrCnt n).faultInfo = s.faultInfo := rfl
@[simp] theorem State.setErrCnt_errCnt (n : BitVec 6) : (s.setErrCnt n).errCnt = n := rfl
@[simp] theorem State.setErrCnt_cmdCount (n : BitVec 6) : (s.setErrCnt n).cmdCount = s.cmdCount := rfl
@[simp] theorem State.setErrCnt_sym (n : BitVec 6) : (s.setErrCnt n).sym = s.sym := rfl
@[simp] theorem State.setErrCnt_errList (n : BitVec 6) : (s.setErrCnt n).errList = s.errList := rfl
@[simp] theorem State.setErrCnt_polys (n : BitVec 6) : (s.setErrCnt n).polys = s.polys := rfl
@[simp] theorem State.setErrCnt_rstN (n : BitVec 6) : (s.setErrCnt n).rstN = s.rstN := rfl
@[simp] theorem State.setErrCnt_bus (n : BitVec 6) : (s.setErrCnt n).bus = s.bus := rfl
@[simp] theorem State.setErrCnt_pending (n : BitVec 6) : (s.setErrCnt n).pending = s.pending := rfl

@[simp] theorem State.setBus_fie (b : BusReply) : (s.setBus b).fie = s.fie := rfl
@[simp] theorem State.setBus_cmd (b : BusReply) : (s.setBus b).cmd = s.cmd := rfl
@[simp] theorem State.setBus_status (b : BusReply) : (s.setBus b).status = s.status := rfl
@[simp] theorem State.setBus_result (b : BusReply) : (s.setBus b).result = s.result := rfl
@[simp] theorem State.setBus_fault (b : BusReply) : (s.setBus b).fault = s.fault := rfl
@[simp] theorem State.setBus_faultInfo (b : BusReply) : (s.setBus b).faultInfo = s.faultInfo := rfl
@[simp] theorem State.setBus_errCnt (b : BusReply) : (s.setBus b).errCnt = s.errCnt := rfl
@[simp] theorem State.setBus_cmdCount (b : BusReply) : (s.setBus b).cmdCount = s.cmdCount := rfl
@[simp] theorem State.setBus_sym (b : BusReply) : (s.setBus b).sym = s.sym := rfl
@[simp] theorem State.setBus_errList (b : BusReply) : (s.setBus b).errList = s.errList := rfl
@[simp] theorem State.setBus_polys (b : BusReply) : (s.setBus b).polys = s.polys := rfl
@[simp] theorem State.setBus_rstN (b : BusReply) : (s.setBus b).rstN = s.rstN := rfl
@[simp] theorem State.setBus_bus (b : BusReply) : (s.setBus b).bus = b := rfl
@[simp] theorem State.setBus_pending (b : BusReply) : (s.setBus b).pending = s.pending := rfl

@[simp] theorem State.recordCommand_fie (w : Word) : (s.recordCommand w).fie = s.fie := rfl
@[simp] theorem State.recordCommand_cmd (w : Word) : (s.recordCommand w).cmd = w := rfl
@[simp] theorem State.recordCommand_status (w : Word) : (s.recordCommand w).status = s.status := rfl
@[simp] theorem State.recordCommand_result (w : Word) : (s.recordCommand w).result = s.result := rfl
@[simp] theorem State.recordCommand_fault (w : Word) : (s.recordCommand w).fault = s.fault := rfl
@[simp] theorem State.recordCommand_faultInfo (w : Word) : (s.recordCommand w).faultInfo = s.faultInfo := rfl
@[simp] theorem State.recordCommand_errCnt (w : Word) : (s.recordCommand w).errCnt = s.errCnt := rfl
@[simp] theorem State.recordCommand_cmdCount (w : Word) : (s.recordCommand w).cmdCount = s.cmdCount + 1 := rfl
@[simp] theorem State.recordCommand_sym (w : Word) : (s.recordCommand w).sym = s.sym := rfl
@[simp] theorem State.recordCommand_errList (w : Word) : (s.recordCommand w).errList = s.errList := rfl
@[simp] theorem State.recordCommand_polys (w : Word) : (s.recordCommand w).polys = s.polys := rfl
@[simp] theorem State.recordCommand_rstN (w : Word) : (s.recordCommand w).rstN = s.rstN := rfl
@[simp] theorem State.recordCommand_bus (w : Word) : (s.recordCommand w).bus = s.bus := rfl
@[simp] theorem State.recordCommand_pending (w : Word) : (s.recordCommand w).pending = s.pending := rfl

/-- A polynomial register reads back what was written to it, and the others stay. -/
@[simp] theorem State.setPoly_poly (r : RegNo) (p : PolyReg) : (s.setPoly r p).poly r = p := by
  simp [State.poly]

theorem State.setPoly_poly_ne {r q : RegNo} (h : q ≠ r) (p : PolyReg) : (s.setPoly r p).poly q = s.poly q := by
  simp only [State.poly, State.setPoly_polys]
  exact Vector.getElem_set_ne r.isLt q.isLt (by simpa [Fin.ext_iff, eq_comm] using h)

end Sys2Proof.Machine
end

