-- ==== Sys2Proof/Laws/Ops.lean ====
section
/-! SUPPORT. One lemma per shared operation, saying everything it does. -/

namespace Sys2Proof.Machine

open Sys2Proof

theorem okWith_eq (w : Word) (s : State) : okWith w s = { s with result := w, status := statusOk } := rfl

theorem failWith_eq (w : Word) (c : FailCode) (s : State) :
    failWith w c s = { s with result := w, status := statusFail c } := rfl

/-- `raise Fault(KIND, info)` touches STATUS, FAULT and FAULTINFO only (R272). -/
theorem raiseFault_eq (k : FaultKind) (info : Word) (s : State) :
    raiseFault k info s = { s with
      status := statusFaulted, fault := s.fault ||| faultMask k,
      faultInfo := if s.fault = 0 then info else s.faultInfo } := by
  unfold raiseFault recordFault
  split <;> rfl

/-- A command fault takes its word from CMD (R274). -/
theorem commandFault_eq (k : FaultKind) (s : State) : commandFault k s = FaultedState (faultMask k) s :=
  raiseFault_eq k s.cmd s

/-- IRQ is asserted exactly while FIE is 1 and a fault is pending (R51, R279). -/
theorem irq_eq_true {s : State} : s.irq = true ↔ s.fie = true ∧ s.fault ≠ 0 := by
  rw [State.irq, Bool.and_eq_true, decide_eq_true_iff]

/-- After a command fault a bit is pending, so IRQ is FIE (R279). -/
theorem faultedState_irq {bit : BitVec 6} (h : bit ∈ [0b000010#6, 0b000100#6, 0b001000#6]) (s : State) :
    (FaultedState bit s).irq = s.fie := by
  have hne : s.fault ||| bit ≠ 0 := by
    generalize s.fault = f
    revert f bit
    decide
  unfold FaultedState State.irq
  rw [decide_eq_true hne, Bool.and_true]

/-- `bus_fault(KIND, off)` touches FAULT and FAULTINFO only (R281). -/
theorem busFault_eq (k : FaultKind) (off : Offset) (s : State) :
    busFault k off s = BusFaultedState (faultMask k) off s := by
  unfold busFault recordFault BusFaultedState
  split <;> rfl

theorem clearFault_eq (w : Word) (s : State) :
    clearFault w s = { s with fault := s.fault &&& ~~~(w.extractLsb' 0 6) } := rfl

/-- `write_errlist` touches the error list and its count only (R205). -/
theorem writeErrList_eq (l : List ErrEntry) (s : State) :
    writeErrList l s = { s with
      errList := Vector.ofFn fun j : Fin 36 => l.getD j.val ⟨0, 0⟩, errCnt := BitVec.ofNat 6 l.length } := by
  simp only [writeErrList, State.setErrList, State.setErrCnt]

/-- The empty error list: every entry 0 and ERRCNT 0. -/
theorem writeErrList_nil (s : State) :
    writeErrList [] s = { s with errList := Vector.replicate 36 ⟨0, 0⟩, errCnt := 0 } := by
  have h : (Vector.ofFn fun j : Fin 36 => ([] : List ErrEntry).getD j.val ⟨0, 0⟩) = Vector.replicate 36 ⟨0, 0⟩ := by
    apply Vector.ext
    intro i hi
    rw [Vector.getElem_ofFn, Vector.getElem_replicate, List.getD_nil]
  rw [writeErrList_eq, h]
  rfl

theorem resetEngine_eq (s : State) :
    resetEngine s = { State.reset with rstN := s.rstN, bus := s.bus, pending := s.pending } := rfl

/-- A CTRL write with bit 1 set resets, whatever bit 0 is (R36, R301). -/
theorem writeCtrl_reset {w : Word} (h : w.getLsbD 1 = true) (s : State) : writeCtrl w s = resetEngine s := by
  rw [writeCtrl, if_pos h]

theorem writeCtrl_fie {w : Word} (h : w.getLsbD 1 = false) (s : State) :
    writeCtrl w s = { s with fie := w.getLsbD 0 } := by
  rw [writeCtrl, if_neg (Bool.eq_false_iff.mp h), State.setFie]

/-- A pin that stays high changes nothing; any other level leaves the reset state (R300). -/
theorem drivePin_eq (level : Bool) (s : State) :
    drivePin level s = if level = true ∧ s.rstN = true then s
      else { State.reset with rstN := level, bus := s.bus, pending := s.pending } := by
  unfold drivePin
  cases level <;> cases s.rstN <;> simp [resetEngine]

end Sys2Proof.Machine
end

