-- ==== Sys2Proof/Laws/PerInstr.lean ====
section
/-! SUPPORT. For every command: bits [31:26] of its word are the opcode of its row of spec/30_encoding.md R109. -/

namespace Sys2Proof.Laws.Opcode

open Sys2Proof

/-- The opcode column of R109. -/
def opcodeOf : Instr → BitVec 6
  | .nop => 0x00
  | .gfAdd _ _ => 0x01
  | .gfMul _ _ => 0x02
  | .gfDiv _ _ => 0x03
  | .gfInv _ => 0x04
  | .gfLog _ => 0x05
  | .gfExp _ => 0x06
  | .gfIsz _ => 0x07
  | .polyClr _ => 0x10
  | .polyAdd _ _ _ => 0x11
  | .polyMul _ _ _ => 0x12
  | .polyEval _ _ => 0x13
  | .polyDeg _ => 0x14
  | .polyGetc _ _ => 0x15
  | .polySetc _ _ _ => 0x16
  | .rsEnc _ => 0x20
  | .rsDec _ => 0x21
  | .rsSynd _ _ => 0x22
  | .rsElp _ _ _ => 0x23
  | .rsChien _ => 0x24
  | .rsForney _ _ _ => 0x25

/-- The command's word has its row's opcode. -/
def Statement (i : Instr) : Prop := fieldOp (encode i) = opcodeOf i

/-- A field of at most 26 bits, placed below bit 26, leaves the opcode bits 0. -/
theorem fieldOp_place {n : Nat} (v : BitVec n) (lo : Nat) (h : n + lo ≤ 26) : fieldOp (place v lo) = 0 := by
  apply BitVec.eq_of_getLsbD_eq
  intro i hi
  have h1 : v.getLsbD (26 + i - lo) = false := BitVec.getLsbD_of_ge _ _ (by omega)
  simp [fieldOp, place, BitVec.getLsbD_extractLsb', BitVec.getLsbD_shiftLeft, h1]

/-- The opcode of a union is the union of the opcodes. -/
theorem fieldOp_or (v w : Word) : fieldOp (v ||| w) = fieldOp v ||| fieldOp w := by
  apply BitVec.eq_of_getLsbD_eq
  intro i hi
  simp [fieldOp, hi]

theorem nop : Statement .nop := by unfold Statement; decide
theorem gfAdd (a b : Elem) : Statement (.gfAdd a b) := by
  simp only [Statement, encode, fieldOp_or, fieldOp_place, Nat.reduceAdd, Nat.reduceLeDiff]; rfl
theorem gfMul (a b : Elem) : Statement (.gfMul a b) := by
  simp only [Statement, encode, fieldOp_or, fieldOp_place, Nat.reduceAdd, Nat.reduceLeDiff]; rfl
theorem gfDiv (a b : Elem) : Statement (.gfDiv a b) := by
  simp only [Statement, encode, fieldOp_or, fieldOp_place, Nat.reduceAdd, Nat.reduceLeDiff]; rfl
theorem gfInv (a : Elem) : Statement (.gfInv a) := by
  simp only [Statement, encode, fieldOp_or, fieldOp_place, Nat.reduceAdd, Nat.reduceLeDiff]; rfl
theorem gfLog (a : Elem) : Statement (.gfLog a) := by
  simp only [Statement, encode, fieldOp_or, fieldOp_place, Nat.reduceAdd, Nat.reduceLeDiff]; rfl
theorem gfExp (e : Exponent) : Statement (.gfExp e) := by
  simp only [Statement, encode, fieldOp_or, fieldOp_place, Nat.reduceAdd, Nat.reduceLeDiff]; rfl
theorem gfIsz (a : Elem) : Statement (.gfIsz a) := by
  simp only [Statement, encode, fieldOp_or, fieldOp_place, Nat.reduceAdd, Nat.reduceLeDiff]; rfl
theorem polyClr (rd : RegNo) : Statement (.polyClr rd) := by
  simp only [Statement, encode, fieldOp_or, fieldOp_place, Nat.reduceAdd, Nat.reduceLeDiff]; rfl
theorem polyAdd (rd ra rb : RegNo) : Statement (.polyAdd rd ra rb) := by
  simp only [Statement, encode, fieldOp_or, fieldOp_place, Nat.reduceAdd, Nat.reduceLeDiff]; rfl
theorem polyMul (rd ra rb : RegNo) : Statement (.polyMul rd ra rb) := by
  simp only [Statement, encode, fieldOp_or, fieldOp_place, Nat.reduceAdd, Nat.reduceLeDiff]; rfl
theorem polyEval (ra : RegNo) (val : Elem) : Statement (.polyEval ra val) := by
  simp only [Statement, encode, fieldOp_or, fieldOp_place, Nat.reduceAdd, Nat.reduceLeDiff]; rfl
theorem polyDeg (ra : RegNo) : Statement (.polyDeg ra) := by
  simp only [Statement, encode, fieldOp_or, fieldOp_place, Nat.reduceAdd, Nat.reduceLeDiff]; rfl
theorem polyGetc (ra : RegNo) (idx : CoeffIdx) : Statement (.polyGetc ra idx) := by
  simp only [Statement, encode, fieldOp_or, fieldOp_place, Nat.reduceAdd, Nat.reduceLeDiff]; rfl
theorem polySetc (rd : RegNo) (idx : CoeffIdx) (val : Elem) : Statement (.polySetc rd idx val) := by
  simp only [Statement, encode, fieldOp_or, fieldOp_place, Nat.reduceAdd, Nat.reduceLeDiff]; rfl
theorem rsEnc (c : Code) : Statement (.rsEnc c) := by
  simp only [Statement, encode, fieldOp_or, fieldOp_place, Nat.reduceAdd, Nat.reduceLeDiff]; rfl
theorem rsDec (c : Code) : Statement (.rsDec c) := by
  simp only [Statement, encode, fieldOp_or, fieldOp_place, Nat.reduceAdd, Nat.reduceLeDiff]; rfl
theorem rsSynd (c : Code) (rd : RegNo) : Statement (.rsSynd c rd) := by
  simp only [Statement, encode, fieldOp_or, fieldOp_place, Nat.reduceAdd, Nat.reduceLeDiff]; rfl
theorem rsElp (c : Code) (rd ra : RegNo) : Statement (.rsElp c rd ra) := by
  simp only [Statement, encode, fieldOp_or, fieldOp_place, Nat.reduceAdd, Nat.reduceLeDiff]; rfl
theorem rsChien (ra : RegNo) : Statement (.rsChien ra) := by
  simp only [Statement, encode, fieldOp_or, fieldOp_place, Nat.reduceAdd, Nat.reduceLeDiff]; rfl
theorem rsForney (c : Code) (ra rb : RegNo) : Statement (.rsForney c ra rb) := by
  simp only [Statement, encode, fieldOp_or, fieldOp_place, Nat.reduceAdd, Nat.reduceLeDiff]; rfl

end Sys2Proof.Laws.Opcode
end

