-- ==== Sys2Proof/Laws/Step.lean ====
section
/-! SUPPORT. What one step can do: one equation per kind of event, and the inversion of a step that answers a next
state. -/

namespace Sys2Proof.Machine

open Sys2Proof

/-- With nothing presented the engine waits (R303). -/
theorem step_idle {s : State} (h : s.pending = []) : step s = .next { s with bus := .idle } := by
  simp only [step, performNext, h, waitForHost, State.setBus]

theorem step_event {s : State} {e : HostEvent} {rest : List HostEvent} (h : s.pending = e :: rest) :
    step s = hostEvent e (takeEvent rest s) := by
  simp only [step, performNext, h]

theorem step_read {s : State} {off : Offset} {rest : List HostEvent} (h : s.pending = .read off :: rest)
    (hr : s.rstN = true) : step s = .next (hostRead off (takeEvent rest s)) := by
  simp only [step_event h, hostEvent, takeEvent, hr, if_true]

theorem step_write {s : State} {off : Offset} {w : Word} {rest : List HostEvent}
    (h : s.pending = .write off w :: rest) (hr : s.rstN = true) :
    step s = hostWrite off w (takeEvent rest s) := by
  simp only [step_event h, hostEvent, takeEvent, hr, if_true]

theorem step_resetPin {s : State} {level : Bool} {rest : List HostEvent}
    (h : s.pending = .resetPin level :: rest) : step s = .next (drivePin level (takeEvent rest s)) := by
  simp only [step_event h, hostEvent]

/-- A step that answers a next state waited, drove the pin, or completed an access with `rst_n` high. -/
theorem step_next_cases {s t : State} (h : step s = .next t) :
    (s.pending = [] ∧ t = { s with bus := .idle }) ∨
    (∃ level rest, s.pending = .resetPin level :: rest ∧ t = drivePin level (takeEvent rest s)) ∨
    (∃ off rest, s.pending = .read off :: rest ∧ s.rstN = true ∧ t = hostRead off (takeEvent rest s)) ∨
    ∃ off w rest, s.pending = .write off w :: rest ∧ s.rstN = true ∧ hostWrite off w (takeEvent rest s) = .next t := by
  have hc : s.pending = [] ∨ ∃ e rest, s.pending = e :: rest := by cases s.pending <;> simp
  rcases hc with hp | ⟨e, rest, hp⟩
  · rw [step_idle hp] at h
    exact .inl ⟨hp, (Host.Outcome.next.inj h).symm⟩
  · cases e with
    | resetPin level =>
      rw [step_resetPin hp] at h
      exact .inr (.inl ⟨level, rest, hp, (Host.Outcome.next.inj h).symm⟩)
    | otherMaster off =>
      rw [step_event hp] at h
      cases h
    | read off =>
      by_cases hr : s.rstN = true
      · rw [step_read hp hr] at h
        exact .inr (.inr (.inl ⟨off, rest, hp, hr, (Host.Outcome.next.inj h).symm⟩))
      · simp only [step_event hp, hostEvent, takeEvent, hr] at h
        cases h
    | write off w =>
      by_cases hr : s.rstN = true
      · rw [step_write hp hr] at h
        exact .inr (.inr (.inr ⟨off, w, rest, hp, hr, h⟩))
      · simp only [step_event hp, hostEvent, takeEvent, hr] at h
        cases h

/-- What a write does, by the cell it reaches: nothing but a bus fault on a bad offset, a read-only row or a value out of
range; else the effect of the cell's rule (R75). -/
theorem hostWrite_cases (off : Offset) (w : Word) (s : State) :
    hostWrite off w s = .next (busFault .busErr off (s.setBus .writeDone)) ∨
    hostWrite off w s = .next (busFault .range off (s.setBus .writeDone)) ∨
    (accessCell off = some .ctrl ∧ hostWrite off w s = .next (writeCtrl w (s.setBus .writeDone))) ∨
    (accessCell off = some .cmd ∧ hostWrite off w s = issueCommand w (s.setBus .writeDone)) ∨
    (accessCell off = some .fault ∧ hostWrite off w s = .next (clearFault w (s.setBus .writeDone))) ∨
    (∃ i, accessCell off = some (.sym i) ∧ fitsSlot w = true ∧
      hostWrite off w s = .next ((s.setBus .writeDone).setSym (s.sym.set i (w.extractLsb' 0 6)))) ∨
    ∃ r i, accessCell off = some (.coeff r i) ∧ fitsSlot w = true ∧
      hostWrite off w s = .next ((s.setBus .writeDone).setPoly r ((s.poly r).set i (w.extractLsb' 0 6))) := by
  unfold hostWrite
  rcases accessCell off with _ | cell
  · exact .inl rfl
  · cases cell with
    | ctrl => exact .inr (.inr (.inl ⟨rfl, rfl⟩))
    | cmd => exact .inr (.inr (.inr (.inl ⟨rfl, rfl⟩)))
    | fault => exact .inr (.inr (.inr (.inr (.inl ⟨rfl, rfl⟩))))
    | sym i =>
      by_cases h : fitsSlot w = true
      · exact .inr (.inr (.inr (.inr (.inr (.inl ⟨i, rfl, h, by simp only [writeCell, writeSym, h, if_true, State.setBus_sym]⟩)))))
      · exact .inr (.inl (by simp only [writeCell, writeSym, h, if_false, Bool.false_eq_true]))
    | coeff r i =>
      by_cases h : fitsSlot w = true
      · exact .inr (.inr (.inr (.inr (.inr (.inr ⟨r, i, rfl, h, by simp only [writeCell, writeCoeff, h, if_true, State.poly, State.setBus_polys]⟩)))))
      · exact .inr (.inl (by simp only [writeCell, writeCoeff, h, if_false, Bool.false_eq_true]))
    | id => exact .inl rfl
    | version => exact .inl rfl
    | config => exact .inl rfl
    | status => exact .inl rfl
    | result => exact .inl rfl
    | faultInfo => exact .inl rfl
    | errCnt => exact .inl rfl
    | cmdCount => exact .inl rfl
    | errEntry j => exact .inl rfl

/-- A command write records the word and then either executes the command or raises ILLEGAL (R37, R100). -/
theorem issueCommand_cases (w : Word) (s : State) :
    (∃ i, decode w = .ok i ∧ issueCommand w s = exec i (s.recordCommand w)) ∨
    ∃ e, decode w = .error e ∧ issueCommand w s = .next (raiseFault .illegal w (s.recordCommand w)) := by
  unfold issueCommand runCommand
  rcases decode w with e | i
  · exact .inr ⟨e, rfl, rfl⟩
  · exact .inl ⟨i, rfl, rfl⟩

end Sys2Proof.Machine
end

