-- ==== Sys2Proof/Laws/Window.lean ====
section
/-! SUPPORT. The host window: where its cells lie, and the canonical form of its bytes. -/

namespace Sys2Proof.Machine

open Sys2Proof

/-- SYM+i reaches SYM[i] (R46, R74). -/
theorem accessCell_symOffset : ∀ i : Fin 36, accessCell (symOffset i) = some (.sym i) := by decide +kernel

/-- ERR+j reaches ERRLIST[j] (R48, R74). -/
theorem accessCell_errOffset : ∀ j : Fin 36, accessCell (errOffset j) = some (.errEntry j) := by decide +kernel

/-- P<r>+i reaches P[r][i] (R47, R74). -/
theorem accessCell_coeffOffset : ∀ (r : Fin 8) (i : Fin 36), accessCell (coeffOffset r i) = some (.coeff r i) := by
  decide +kernel

/-- A filtered ascending range of cells is in canonical form. -/
theorem memoryWf_filterMap {l : List Nat} (h : l.Pairwise (· < ·)) (f : Nat → Byte) :
    memoryWf (l.filterMap fun a => if f a = 0 then none else some (a, f a)) = true := by
  have hp : (l.filterMap fun a => if f a = 0 then none else some (a, f a)).Pairwise (fun x y => x.1 < y.1) := by
    rw [List.pairwise_filterMap]
    refine h.imp ?_
    intro a b hab x hx y hy
    split at hx
    · cases hx
    · split at hy
      · cases hy
      · cases hx
        cases hy
        exact hab
  have hz : ∀ c ∈ l.filterMap (fun a => if f a = 0 then none else some (a, f a)), c.2 ≠ 0 := by
    intro c hc
    obtain ⟨a, _, ha⟩ := List.mem_filterMap.mp hc
    split at ha
    · cases ha
    · rename_i hne
      cases ha
      exact hne
  have chain : ∀ m : List Host.Cell, m.Pairwise (fun x y => x.1 < y.1) →
      (m.zip m.tail).all (fun p => decide (p.1.1 < p.2.1)) = true := by
    intro m hm
    induction hm with
    | nil => rfl
    | @cons x xs hx _ ih =>
      cases xs with
      | nil => rfl
      | cons y ys => simpa [hx y (by simp)] using ih
  simp only [memoryWf, chain _ hp, Bool.true_and, List.all_eq_true, bne_iff_ne]
  exact hz

/-- The window's bytes are in canonical form in every state, so after every access and command, and at reset. -/
theorem windowMemory_wf (s : State) : memoryWf (windowMemory s) = true :=
  memoryWf_filterMap List.pairwise_lt_range (windowByte s)

/-- The list holds each byte of the window that is not 0, and only those. -/
theorem mem_windowMemory (s : State) (a : Nat) (b : Byte) :
    (a, b) ∈ windowMemory s ↔ a < 4096 ∧ b = windowByte s a ∧ b ≠ 0 := by
  simp only [windowMemory, List.mem_filterMap, List.mem_range]
  constructor
  · rintro ⟨x, hx, h⟩
    split at h
    · cases h
    · rename_i hne
      cases h
      exact ⟨hx, rfl, hne⟩
  · rintro ⟨ha, rfl, hne⟩
    exact ⟨a, ha, by rw [if_neg hne]⟩

end Sys2Proof.Machine
end

