-- ==== Sys2Proof/Tests/Slice0.lean ====
section
/-! SUPPORT. Tests. Expected values come from the spec: the examples of the command rules, the tables of
spec/40_gf.md R138 and spec/43_rs.md R233 and R235, and the vectors of spec/95_test_vectors.md. The witnesses at the end
show states and operands that meet the hypotheses of the statements. -/

namespace Sys2Proof.Tests

set_option Elab.async false

open Sys2Proof Sys2Proof.Machine

/-- The next state of an outcome, if it is one. -/
def nextOf (o : Host.Outcome State Fault Refusal) : Option State :=
  match o with
  | .next t => some t
  | _ => none

/-- What a command leaves in a few fields is what its next state holds there. -/
theorem exists_next {α : Type} {o : Host.Outcome State Fault Refusal} {f : State → α} {v : α}
    (h : (nextOf o).map f = some v) : ∃ t, o = .next t ∧ f t = v := by
  cases o with
  | next t => exact ⟨t, rfl, by simpa [nextOf] using h⟩
  | fault r => cases r
  | refused r => simp [nextOf] at h

/-- The reset state with these events presented. -/
def presenting (es : List HostEvent) : State := { State.reset with pending := es }

/-- A polynomial with these lowest coefficients. -/
def polyList (l : List Elem) : PolyReg := polyOf fun i => l.getD i 0

/-- The reset state with P0 and P1 set. -/
def withPolys (p0 p1 : List Elem) : State := (State.reset.setPoly 0 (polyList p0)).setPoly 1 (polyList p1)

/-- The reset state with the buffer set. -/
def withSym (l : List Elem) : State := State.reset.setSym (Vector.ofFn fun i : Fin 36 => l.getD i.val 0)

/-- The reset state with `es` as the valid error list. -/
def withErrors (es : List ErrEntry) (s : State) : State := writeErrList es s

/-! ## Decoding: one word per command, written out from the patterns of R109 -/

theorem test_decode_nop : decode 0b00000000000000000000000000000000#32 = .ok .nop := by decide
theorem test_decode_gfAdd : decode 0b00000100000000000000101010010101#32 = .ok (.gfAdd 0x2A 0x15) := by decide
theorem test_decode_gfMul : decode 0b00001000000000000000000110011111#32 = .ok (.gfMul 6 31) := by decide
theorem test_decode_gfDiv : decode 0b00001100000000000000000101000111#32 = .ok (.gfDiv 5 7) := by decide
theorem test_decode_gfInv : decode 0b00010000000000000000100001000000#32 = .ok (.gfInv 33) := by decide
theorem test_decode_gfLog : decode 0b00010100000000000000111111000000#32 = .ok (.gfLog 63) := by decide
theorem test_decode_gfExp : decode 0b00011000000000000000000011111111#32 = .ok (.gfExp 255) := by decide
theorem test_decode_gfIsz : decode 0b00011100000000000000000001000000#32 = .ok (.gfIsz 1) := by decide
theorem test_decode_polyClr : decode 0b01000000010000000000000000000000#32 = .ok (.polyClr 2) := by decide
theorem test_decode_polyAdd : decode 0b01000100010000001000000000000000#32 = .ok (.polyAdd 2 0 1) := by decide
theorem test_decode_polyMul : decode 0b01001000100001011000000000000000#32 = .ok (.polyMul 4 1 3) := by decide
theorem test_decode_polyEval : decode 0b01001100000010000000000000100001#32 = .ok (.polyEval 2 33) := by decide
theorem test_decode_polyDeg : decode 0b01010000000111000000000000000000#32 = .ok (.polyDeg 7) := by decide
theorem test_decode_polyGetc : decode 0b01010100000010000000100011000000#32 = .ok (.polyGetc 2 35) := by decide
theorem test_decode_polySetc : decode 0b01011000101000000000100011000111#32 = .ok (.polySetc 5 35 7) := by decide
theorem test_decode_rsEnc : decode 0b10000010000000000000000000000000#32 = .ok (.rsEnc .long) := by decide
theorem test_decode_rsDec : decode 0b10000101000000000000000000000000#32 = .ok (.rsDec .medium) := by decide
theorem test_decode_rsSynd : decode 0b10001010011000000000000000000000#32 = .ok (.rsSynd .long 3) := by decide
theorem test_decode_rsElp : decode 0b10001101001000000000000000000000#32 = .ok (.rsElp .medium 1 0) := by decide
theorem test_decode_rsChien : decode 0b10010000000001000000000000000000#32 = .ok (.rsChien 1) := by decide
theorem test_decode_rsForney : decode 0b10010101000001000000000000000000#32 = .ok (.rsForney .medium 1 0) := by decide

/-- 95_test_vectors.md section 2.7: words refused by name. -/
theorem test_decode_rejects :
    decode 0x20000000#32 = .error .unassignedOpcode ∧ decode 0x00800000#32 = .error .unusedFieldNonZero ∧
    decode 0x4C200002#32 = .error .unusedFieldNonZero ∧ decode 0x91000000#32 = .error .unusedFieldNonZero ∧
    decode 0x97040000#32 = .error .reservedCode ∧ decodeBytes [0, 0, 0] = .error .truncated := by decide

/-- Section 2.7: of the 64 words op << 26, exactly 43 are illegal. -/
theorem test_decode_43_unassigned :
    ((List.range 64).filter fun op => decode (BitVec.ofNat 32 op <<< 26) matches .error _).length = 43 := by
  decide +kernel

/-- No two rows of the table share an opcode, and each row's match word has its opcode (R109). -/
theorem test_table_rows :
    (opTable.map (·.opcode)).Nodup ∧ opTable.length = 21 ∧
    (opTable.all fun r => fieldOp r.matchBits == r.opcode && r.matchBits &&& r.maskBits == r.matchBits) = true := by
  decide +kernel

/-- R72: the bytes of a word, lowest lane first. -/
theorem test_bytes : bytesOfWord 0x0C000147#32 = [0x47, 0x01, 0x00, 0x0C] ∧
    decodeBytes [0x47, 0x01, 0x00, 0x0C, 0xAA] = .ok (.gfDiv 5 7, [0xAA]) := by decide

theorem test_decodeTableWord : decodeTableWord 32 0x0C000147 = some (.gfDiv 5 7) ∧
    decodeTableWord 32 0x83000000 = none ∧ decodeTableWord 8 0x00 = some .nop := by decide

/-! ## Well-formedness: each check refuses an ill-formed written command -/

theorem test_wellFormed_smoke :
    (Asm.gfAdd (.num 64) (.num 0)).wellFormed = false ∧ (Asm.gfAdd (.num 0) (.num 64)).wellFormed = false ∧
    (Asm.gfInv (.num 64)).wellFormed = false ∧ (Asm.gfExp 256).wellFormed = false ∧
    (Asm.polyClr 8).wellFormed = false ∧ (Asm.polyMul 0 0 8).wellFormed = false ∧
    (Asm.polyEval 0 (.num 64)).wellFormed = false ∧ (Asm.polyGetc 0 64).wellFormed = false ∧
    (Asm.polySetc 0 64 (.num 0)).wellFormed = false ∧ (Asm.rsSynd .short 8).wellFormed = false ∧
    (Asm.rsElp .short 0 8).wellFormed = false ∧ (Asm.rsChien 8).wellFormed = false ∧
    (Asm.rsForney .short 8 0).wellFormed = false ∧ (Asm.polySqr 0 8).wellFormed = false ∧
    (Asm.gfSub (.num 63) (.alphaPow 100)).wellFormed = true ∧ assemble (.polyClr 8) = none := by decide

/-- Program P4: `poly.setc p1, 0, a^8` is 0x5820000C; P1: `gf.div 56, a^2` is 0x0C000E04; a negative power of alpha. -/
theorem test_assemble :
    assemble (.polySetc 1 0 (.alphaPow 8)) = some 0x5820000C#32 ∧
    assemble (.gfDiv (.num 56) (.alphaPow 2)) = some 0x0C000E04#32 ∧
    assemble (.gfIsz (.alphaPow (-1))) = some 0x1C000840#32 ∧
    cmdAction (.rsChien 1) = some (.write 0x010#12 0x90040000#32) := by decide +kernel

/-! ## Constants and tables -/

theorem test_config : Config.configWord = 0x43243824#32 := by decide

/-- R138: the last row of EXP and a row of LOG and INV. -/
theorem test_field_tables :
    (List.range 7).map (fun i => gfExp (56 + i)) = [31, 62, 63, 61, 57, 49, 33] ∧
    (List.range 8).map (fun i => gfLog (BitVec.ofNat 6 (24 + i))) = [9, 45, 49, 38, 28, 41, 19, 56] ∧
    (List.range 8).map (fun i => gfInv (BitVec.ofNat 6 (40 + i))) = [13, 47, 48, 5, 7, 30, 12, 41] := by decide +kernel

/-- R233: g(x) of LONG. -/
theorem test_genPoly_long : (genPoly 16).toList.take 17 =
    [48, 59, 38, 41, 59, 5, 34, 52, 27, 18, 23, 17, 19, 2, 29, 28, 1] := by decide +kernel

/-- R235: a row of each generator matrix. -/
theorem test_gen_rows :
    (List.range 12).map (genEntry .short 11) = [39, 59, 54, 17, 40, 10, 56, 62, 62, 22, 5, 40] ∧
    (List.range 16).map (genEntry .medium 7) = [10, 13, 62, 9, 47, 44, 52, 49, 53, 63, 41, 30, 38, 52, 19, 22] ∧
    (List.range 20).map (genEntry .long 15) =
      [5, 22, 50, 7, 17, 1, 23, 39, 51, 39, 18, 48, 58, 38, 27, 47, 6, 35, 27, 48] := by decide +kernel

/-! ## Commands: the fields (RESULT, STATUS, …) after one command -/

/-- RESULT and STATUS after a command. -/
def rs (i : Instr) (s : State) : Option (Word × Word) := (nextOf (exec i s)).map fun t => (t.result, t.status)

theorem test_nop : rs .nop (State.reset.setResult 3) = some (0, 1) := by decide
theorem test_gfAdd : rs (.gfAdd 0x2A 0x15) State.reset = some (0x3F, 1) := by decide +kernel
theorem test_gfMul : rs (.gfMul 63 63) State.reset = some (0x2A, 1) ∧ rs (.gfMul 63 0) State.reset = some (0, 1) := by
  decide +kernel
theorem test_gfDiv : rs (.gfDiv 5 7) State.reset = some (26, 1) ∧ rs (.gfDiv 0 5) State.reset = some (0, 1) := by
  decide +kernel
theorem test_gfDiv_zero : (nextOf (exec (.gfDiv 0 0) { State.reset with cmd := 0x0C000000#32, result := 9 })).map
    (fun t => (t.result, t.status, t.fault, t.faultInfo)) = some (9, 4, 4, 0x0C000000#32) := by decide +kernel
theorem test_gfInv : rs (.gfInv 63) State.reset = some (32, 1) := by decide +kernel
theorem test_gfLog : rs (.gfLog 33) State.reset = some (62, 1) := by decide +kernel
theorem test_gfLog_zero : (nextOf (exec (.gfLog 0) { State.reset with cmd := 0x14000000#32, fault := 0b100000, faultInfo := 0x2C })).map
    (fun t => (t.status, t.fault, t.faultInfo)) = some (4, 0b100010, 0x2C) := by decide +kernel
theorem test_gfExp : rs (.gfExp 255) State.reset = some (8, 1) ∧ rs (.gfExp 63) State.reset = some (1, 1) := by
  decide +kernel
theorem test_gfIsz : rs (.gfIsz 0) State.reset = some (1, 1) ∧ rs (.gfIsz 63) State.reset = some (0, 1) := by
  decide +kernel
theorem test_polyClr : (nextOf (exec (.polyClr 1) (withPolys [1, 1] [2, 1]))).map
    (fun t => ((t.poly 0).toList.take 2, (t.poly 1).toList.take 2)) = some ([1, 1], [0, 0]) := by decide +kernel
theorem test_polyAdd : (nextOf (exec (.polyAdd 2 0 1) (withPolys [1, 1] [2, 1]))).map
    (fun t => (t.poly 2).toList.take 3) = some [3, 0, 0] := by decide +kernel
/-- Section 2.2.4: squaring in place, and the product written over a source. -/
theorem test_polyMul_alias : (nextOf (exec (.polyMul 0 0 0) (withPolys [1, 1] []))).map
    (fun t => (t.poly 0).toList.take 4) = some [1, 0, 1, 0] ∧
    (nextOf (exec (.polyMul 1 0 1) (withPolys [1, 0, 1] [0, 1]))).map
    (fun t => (t.poly 1).toList.take 5) = some [0, 1, 0, 1, 0] := by decide +kernel
/-- Section 2.2.2: degree sum 36 faults and leaves the destination. -/
theorem test_polyMul_overflow : (nextOf (exec (.polyMul 1 0 1)
    { withPolys (List.replicate 18 0 ++ [1]) (List.replicate 18 0 ++ [1]) with cmd := 0x48208000#32 })).map
    (fun t => (t.status, t.fault, t.faultInfo, coeff (t.poly 1) 18)) = some (4, 8, 0x48208000#32, 1) := by
  decide +kernel
theorem test_polyEval : rs (.polyEval 0 33) (withPolys [2, 3, 1] []) = some (0x13, 1) := by decide +kernel
theorem test_polyDeg : rs (.polyDeg 0) (withPolys [2, 3, 1] []) = some (2, 1) ∧
    rs (.polyDeg 1) (withPolys [2] []) = some (0xFFFFFFFF, 0x11) := by decide +kernel
theorem test_polyGetc : rs (.polyGetc 0 1) (withPolys [2, 3, 1] []) = some (3, 1) ∧
    rs (.polyGetc 0 36) (withPolys [2, 3, 1] []) = some (0, 0x102) := by decide +kernel
theorem test_polySetc : (nextOf (exec (.polySetc 0 35 7) State.reset)).map
    (fun t => (t.result, t.status, coeff (t.poly 0) 35, coeff (t.poly 0) 34)) = some (0, 1, 7, 0) ∧
    rs (.polySetc 0 40 1) State.reset = some (0, 0x102) := by decide +kernel

/-- The received MEDIUM word of section 2.3.1. -/
def mediumWord : List Elem :=
  [1, 2, 6, 4, 5, 6, 7, 8, 9, 10, 11, 12, 13, 14, 15, 16, 12, 60, 47, 40, 17, 12, 57, 52]

/-- Its syndromes. -/
def mediumSyn : List Elem := [22, 55, 9, 49, 3, 35, 46, 62]

theorem test_rsSynd : (nextOf (exec (.rsSynd .medium 0) (withSym mediumWord))).map
    (fun t => (t.result, t.status, (t.poly 0).toList.take 9)) = some (0, 1, mediumSyn ++ [0]) := by decide +kernel
theorem test_rsElp : (nextOf (exec (.rsElp .medium 1 0) (withPolys mediumSyn []))).map
    (fun t => (t.result, t.status, (t.poly 1).toList.take 4)) = some (0x202, 1, [1, 51, 17, 0]) := by decide +kernel
/-- Section 2.3.2: deg(σ) < L, and coefficients beyond t2 not read with RD = RA. -/
theorem test_rsElp_corners : rs (.rsElp .medium 1 0) (withPolys [1] []) = some (0x100, 1) ∧
    rs (.rsElp .medium 0 0) (withPolys [0, 0, 0, 0, 0, 0, 0, 0, 9] []) = some (0, 1) := by decide +kernel
theorem test_rsChien : (nextOf (exec (.rsChien 1) (withPolys [] [1, 51, 17]))).map
    (fun t => (t.result, t.status, t.errCnt, (t.errList.toList.take 3).map entryWord)) =
      some (2, 1, 2, [0x300, 0x1500, 0]) := by decide +kernel
/-- Section 2.3.2: the zero locator, and the double root of 1 + x^2. -/
theorem test_rsChien_fails : rs (.rsChien 1) State.reset = some (0, 0x602) ∧
    rs (.rsChien 1) (withPolys [] [1, 0, 1]) = some (1, 0x302) := by decide +kernel
theorem test_rsForney : (nextOf (exec (.rsForney .medium 1 0)
    (withErrors [⟨3, 0⟩, ⟨21, 0⟩] (withPolys mediumSyn [1, 51, 17])))).map
    (fun t => (t.result, t.status, (t.errList.toList.take 3).map entryWord)) = some (2, 1, [0x321, 0x1505, 0]) := by
  decide +kernel
theorem test_rsForney_zero : (nextOf (exec (.rsForney .short 1 0) (withErrors [⟨0, 7⟩] (withPolys [1] [1, 0, 1])))).map
    (fun t => (t.result, t.status, t.errCnt, entryWord t.errList[0])) = some (0, 0x402, 1, 7) := by decide +kernel
theorem test_rsEnc : (nextOf (exec (.rsEnc .short) (withSym [1]))).map (fun t => t.sym.toList.take 25) =
    some ([1, 0, 0, 0, 0, 0, 0, 0, 0, 0, 0, 0] ++ [50, 36, 3, 21, 12, 14, 23, 3, 43, 4, 30, 39, 0]) := by decide +kernel
/-- Section 2.4.2 row 8. -/
theorem test_rsDec : (nextOf (exec (.rsDec .medium) (withSym mediumWord))).map
    (fun t => (t.result, t.status, t.errCnt, t.errList.toList.map entryWord == [0x321, 0x1505] ++ List.replicate 34 0,
      symAt t.sym 2, symAt t.sym 20)) = some (2, 1, 2, true, 3, 17) := by decide +kernel

/-! ## The bus: one step -/

/-- Section 2.6: an unmapped read, a misaligned write beside CMD, a value out of range, and an in-range write. -/
theorem test_bus :
    (nextOf (step (presenting [.read 0x02C#12]))).map (fun t => (t.bus, t.fault, t.faultInfo)) =
      some (.readDone 0, 0x20, 0x2C) ∧
    (nextOf (step (presenting [.write 0x011#12 0]))).map (fun t => (t.fault, t.faultInfo, t.cmdCount)) =
      some (0x20, 0x11, 0) ∧
    (nextOf (step (presenting [.write 0x714#12 0xFFFFFFFF#32]))).map (fun t => (t.fault, t.faultInfo)) =
      some (0x10, 0x714) ∧
    (nextOf (step (presenting [.write 0x714#12 0x3F#32]))).map (fun t => (t.fault, coeff (t.poly 3) 5)) =
      some (0, 63) := by decide +kernel

/-- Section 2.5: the illegal word 0x00000001 keeps RESULT. -/
theorem test_illegal : (nextOf (step { presenting [.write 0x010#12 1] with result := 3, cmdCount := 0xFFFFFFFF })).map
    (fun t => (t.result, t.status, t.fault, t.faultInfo, t.cmd, t.cmdCount)) = some (3, 4, 1, 1, 1, 0) := by
  decide +kernel

/-- Section 2.6.2: the soft reset clears FIE whatever bit 0 of the write is. -/
theorem test_softReset : (nextOf (step { presenting [.write 0x00C#12 3] with fie := true, fault := 2, cmdCount := 2 })).map
    (fun t => (t.fie, t.fault, t.cmdCount, t.irq)) = some (false, 0, 0, false) := by decide +kernel

/-- R279: setting FIE while FAULT is not 0 asserts IRQ at once, and clearing it masks IRQ without clearing FAULT. -/
theorem test_irq_fie :
    (nextOf (step { presenting [.write 0x00C#12 1] with fault := 2 })).map State.irq = some true ∧
    (nextOf (step { presenting [.write 0x00C#12 0] with fault := 2, fie := true })).map (fun t => (t.irq, t.fault)) =
      some (false, 2) := by decide +kernel

/-- Section 2.6.1: IRQ follows FAULT while FIE = 1. -/
theorem test_irq :
    (nextOf (step { presenting [.read 0x02C#12] with fie := true })).map State.irq = some true ∧
    (nextOf (step { presenting [.write 0x01C#12 0x10] with fie := true, fault := 0x10 })).map State.irq = some false := by
  decide +kernel

/-- The presented word is what the next step runs, after reset. -/
theorem test_withFetchWord : (nextOf (step (State.reset.withFetchWord 32 0x04000A95))).map
    (fun t => (t.result, t.cmd, t.cmdCount)) = some (0x3F, 0x04000A95, 1) := by decide +kernel

/-- R72: the bytes of the word CONFIG in the window. -/
theorem test_windowByte : (List.range 4).map (fun j => windowByte State.reset (8 + j)) = [0x24, 0x38, 0x24, 0x43] := by
  decide +kernel

/-! ## Witnesses: states and operands that meet the hypotheses of the statements -/

/-- A buffer whose syndromes are all zero is a codeword. -/
theorem isCodeword_of_all {c : Code} {sym : SymBuf}
    (h : ((List.range (Config.params c).t2).all fun i => syndromeSum c sym (i + 1) == 0) = true) : IsCodeword c sym := by
  intro i h1 h2
  have h3 := List.all_eq_true.mp h (i - 1) (by simp; omega)
  have : i - 1 + 1 = i := by omega
  simpa [this] using h3

theorem not_isCodeword_of_first {c : Code} {sym : SymBuf} (h : (syndromeSum c sym 1 == 0) = false) :
    ¬ IsCodeword c sym := by
  intro hc
  have := hc 1 (by omega) (by cases c <;> decide)
  simp [this] at h

theorem witness_EncodeOfDecodeIsTheWord : decode 0x04000A95#32 = .ok (.gfAdd 0x2A 0x15) := by decide

theorem witness_CmdWriteExecutesTheDecodedCommand :
    ∃ s : State, s.rstN = true ∧ s.pending = .write 0x010#12 0x04000A95#32 :: [] ∧
      decode 0x04000A95#32 = .ok (.gfAdd 0x2A 0x15) := ⟨presenting [.write 0x010#12 0x04000A95#32], rfl, rfl, by decide⟩

theorem witness_IllegalWordRaisesIllegal :
    ∃ s : State, s.rstN = true ∧ s.pending = .write 0x010#12 0x83000000#32 :: [] ∧
      decode 0x83000000#32 = .error .reservedCode := ⟨presenting [.write 0x010#12 0x83000000#32], rfl, rfl, by decide⟩

theorem witness_CtrlWrite_reset : ∃ s : State, s.rstN = true ∧ s.pending = .write 0x00C#12 3#32 :: [] ∧
    (3#32).getLsbD 1 = true := ⟨presenting [.write 0x00C#12 3#32], rfl, rfl, by decide⟩
theorem witness_CtrlWrite_fie : ∃ s : State, s.rstN = true ∧ s.pending = .write 0x00C#12 1#32 :: [] ∧
    (1#32).getLsbD 1 = false ∧ s.fault ≠ 0 :=
  ⟨{ presenting [.write 0x00C#12 1#32] with fault := 1 }, rfl, rfl, by decide, by decide⟩

theorem witness_ResetPin_low : ∃ s : State, s.fie = true ∧ s.pending = .resetPin false :: [] :=
  ⟨{ presenting [.resetPin false] with fie := true }, rfl, rfl⟩
theorem witness_ResetPin_staysHigh : ∃ s : State, s.rstN = true ∧ s.cmdCount = 5 ∧ s.pending = .resetPin true :: [] :=
  ⟨{ presenting [.resetPin true] with cmdCount := 5 }, rfl, rfl, rfl⟩
theorem witness_ResetPin_waits : ∃ s : State, s.cmdCount = 5 ∧ s.pending = [] :=
  ⟨{ State.reset with cmdCount := 5 }, rfl, rfl⟩
theorem witness_ResetPin_release : ∃ s : State, s.rstN = false ∧ s.pending = .resetPin true :: [] :=
  ⟨{ presenting [.resetPin true] with rstN := false }, rfl, rfl⟩
theorem witness_ResetPin_read : ∃ s : State, s.rstN = false ∧ s.pending = .read 0x014#12 :: [] :=
  ⟨{ presenting [.read 0x014#12] with rstN := false }, rfl, rfl⟩
theorem witness_ResetPin_write : ∃ s : State, s.rstN = false ∧ s.pending = .write 0x010#12 0 :: [] :=
  ⟨{ presenting [.write 0x010#12 0] with rstN := false }, rfl, rfl⟩
theorem witness_ResetPin_otherMaster : ∃ s : State, s.pending = .otherMaster 0x014#12 :: [] :=
  ⟨presenting [.otherMaster 0x014#12], rfl⟩

theorem witness_MappedReadsReturnTheCell : State.reset.rstN = true := rfl

/-- The first and last offset of every unmapped range, and a misaligned one. -/
theorem witness_BadAccess_offsets :
    ([0x011#12, 0x02C#12, 0x0FC#12, 0x190#12, 0x1FC#12, 0x290#12, 0x3FC#12, 0x490#12, 0xBFC#12, 0xC00#12, 0xFFC#12].all
      fun off => accessCell off == none) = true := by decide +kernel
theorem witness_BadAccess_read :
    ∃ s : State, s.rstN = true ∧ 0xC00 ≤ (0xC00#12).toNat ∧ s.pending = .read 0xC00#12 :: [] :=
  ⟨presenting [.read 0xC00#12], rfl, by decide, rfl⟩
theorem witness_BadAccess_write :
    ∃ s : State, s.rstN = true ∧ (0x013#12).toNat % 4 ≠ 0 ∧ s.pending = .write 0x013#12 0 :: [] :=
  ⟨presenting [.write 0x013#12 0], rfl, by decide, rfl⟩
theorem witness_BadAccess_readOnly :
    ∃ s : State, s.rstN = true ∧ (0x28C#12).toNat = 0x200 + 4 * (35 : Fin 36).val ∧ s.pending = .write 0x28C#12 0 :: [] :=
  ⟨presenting [.write 0x28C#12 0], rfl, by decide, rfl⟩

theorem witness_SlotWrite_sym : ∃ s : State, s.rstN = true ∧
    s.pending = .write (BitVec.ofNat 12 (0x100 + 4 * (35 : Fin 36).val)) 63#32 :: [] ∧ (63#32).toNat < 64 :=
  ⟨presenting [.write _ 63#32], rfl, rfl, by decide⟩
theorem witness_SlotWrite_coeff : ∃ s : State, s.rstN = true ∧
    s.pending = .write (BitVec.ofNat 12 (0x400 + 0x100 * (7 : Fin 8).val + 4 * (35 : Fin 36).val)) 64#32 :: [] ∧
    ¬ (64#32).toNat < 64 := ⟨presenting [.write _ 64#32], rfl, rfl, by decide⟩

theorem witness_FaultWriteClearsWrittenBits : ∃ s : State, s.rstN = true ∧ s.fault = 0x30 ∧
    s.pending = .write 0x01C#12 0x20 :: [] := ⟨{ presenting [.write 0x01C#12 0x20] with fault := 0x30 }, rfl, rfl, rfl⟩

theorem witness_CommandOutcome_ok : ∃ t, exec .nop State.reset = .next t ∧ statusFAULTED t.status = false :=
  ⟨_, rfl, by decide +kernel⟩
theorem witness_OnlyFaultsTouchTheFaultRegisters_faulted :
    ∃ t, exec (.gfLog 0) State.reset = .next t ∧ statusFAULTED t.status = true := ⟨_, rfl, by decide +kernel⟩

theorem witness_FaultBitsAreSticky : ∃ s t : State, step s = .next t ∧ s.fault.getLsbD 5 = true ∧ t.fault.getLsbD 5 = false := by
  obtain ⟨t, h, ht⟩ := exists_next (o := step { presenting [.write 0x01C#12 0x20] with fault := 0x20 })
    (f := fun t => t.fault) (v := 0) (by decide +kernel)
  exact ⟨_, t, h, by decide, by simp [ht]⟩

theorem witness_FaultInfo_first : ∃ (s t : State) (rest : List HostEvent), s.pending = .write 0x010#12 1 :: rest ∧
    resetsEngine s (.write 0x010#12 1) = false ∧ step s = .next t ∧ s.fault = 0 ∧ t.fault ≠ 0 := by
  obtain ⟨t, h, ht⟩ := exists_next (o := step (presenting [.write 0x010#12 1])) (f := fun t => t.fault) (v := 1)
    (by decide +kernel)
  exact ⟨_, t, [], rfl, by decide, h, by decide, by simp [ht]⟩
theorem witness_FaultInfo_later : ∃ (s t : State) (rest : List HostEvent), s.pending = .read 0x02C#12 :: rest ∧
    resetsEngine s (.read 0x02C#12) = false ∧ step s = .next t ∧ s.fault ≠ 0 := by
  obtain ⟨t, h, _⟩ := exists_next (o := step { presenting [.read 0x02C#12] with fault := 1 }) (f := fun t => t.fault)
    (v := 0x21) (by decide +kernel)
  exact ⟨_, t, [], rfl, by decide, h, by decide⟩

theorem witness_FaultInfo_none : ∃ (s t : State) (rest : List HostEvent), s.pending = .write 0x010#12 0 :: rest ∧
    resetsEngine s (.write 0x010#12 0) = false ∧ step s = .next t ∧ s.fault = 0 ∧ t.fault = 0 := by
  obtain ⟨t, h, ht⟩ := exists_next (o := step (presenting [.write 0x010#12 0])) (f := fun t => t.fault) (v := 0)
    (by decide +kernel)
  exact ⟨_, t, [], rfl, by decide, h, by decide, ht⟩
theorem witness_FaultInfo_offset : ∃ (s t : State) (rest : List HostEvent), s.pending = .write 0x011#12 0 :: rest ∧
    resetsEngine s (.write 0x011#12 0) = false ∧ step s = .next t ∧ s.fault = 0 ∧ t.fault ≠ 0 := by
  obtain ⟨t, h, ht⟩ := exists_next (o := step (presenting [.write 0x011#12 0])) (f := fun t => t.fault) (v := 0x20)
    (by decide +kernel)
  exact ⟨_, t, [], rfl, by decide, h, by decide, by simp [ht]⟩

theorem witness_CommandLeavesOtherWindowBytes : ∃ t, exec (.polyClr 0) State.reset = .next t ∧
    ∀ cell, decodeOffset (BitVec.ofNat 12 (0x500 / 4 * 4)) = some cell → mayWrite (.polyClr 0) cell = false := by
  refine ⟨_, rfl, fun cell h => ?_⟩
  have : decodeOffset (BitVec.ofNat 12 (0x500 / 4 * 4)) = some (.coeff 1 0) := by decide +kernel
  rw [this] at h
  cases h
  decide

theorem witness_ProtocolKeepingHostIsNeverRefused :
    (presenting [.read 0x014#12, .resetPin false, .resetPin true, .write 0x010#12 0]).protocolKept = true ∧
    (presenting [.resetPin false, .read 0x014#12]).protocolKept = false := by decide

theorem witness_StepKeepsStatusLegal : statusLegal State.reset.status = true ∧
    ∃ t, step (presenting [.write 0x010#12 0]) = .next t := by
  obtain ⟨t, h, _⟩ := exists_next (o := step (presenting [.write 0x010#12 0])) (f := fun t => t.status) (v := 1)
    (by decide +kernel)
  exact ⟨by decide, t, h⟩

theorem witness_StepKeepsErrorListLegal : ∃ s t : State, errListLegal s ∧ s.errCnt = 2 ∧ step s = .next t :=
  ⟨withErrors [⟨3, 5⟩, ⟨21, 33⟩] State.reset, _, by unfold errListLegal; decide +kernel, by decide +kernel, rfl⟩

theorem witness_Division : (0 : Elem) = 0 ∧ (7 : Elem) ≠ 0 := by decide
theorem witness_GfLog : (0 : Elem) = 0 ∧ (33 : Elem) ≠ 0 := by decide

theorem witness_PolyMul_overflow : ∃ s : State, ∃ i j : Fin 36, s.polys[0] = s.polys[0] ∧
    (s.poly 0)[i] ≠ 0 ∧ (s.poly 1)[j] ≠ 0 ∧ 35 < i.val + j.val :=
  ⟨withPolys (List.replicate 18 0 ++ [1]) (List.replicate 18 0 ++ [1]), 18, 18, rfl, by decide +kernel⟩
theorem witness_PolyMul_fits : ∃ s : State, (s.poly 0)[(17 : Fin 36)] ≠ 0 ∧ (s.poly 1)[(18 : Fin 36)] ≠ 0 ∧
    ∀ i j : Fin 36, (s.poly 0)[i] ≠ 0 → (s.poly 1)[j] ≠ 0 → i.val + j.val ≤ 35 :=
  ⟨withPolys (List.replicate 17 0 ++ [1]) (List.replicate 18 0 ++ [1]), by decide +kernel⟩
theorem witness_PolyMulIsTheProduct : ∃ t, exec (.polyMul 2 0 1) (withPolys [1, 1] [2, 1]) = .next t ∧
    statusOK t.status = true := ⟨_, rfl, by decide +kernel⟩

theorem witness_PolyDeg : ∃ s : State, (s.poly 0)[(35 : Fin 36)] ≠ 0 ∧ (∀ i : Fin 36, 35 < i → (s.poly 0)[i] = 0) ∧
    ∀ i : Fin 36, (s.poly 1)[i] = 0 := ⟨withPolys (List.replicate 35 0 ++ [7]) [], by decide +kernel⟩
theorem witness_PolyIndex : (35 : CoeffIdx).val < 36 ∧ 36 ≤ (36 : CoeffIdx).val := by decide

theorem witness_RsSynd_codeword : IsCodeword .long State.reset.sym := isCodeword_of_all (by decide +kernel)
theorem witness_RsSynd_noCodeword : ¬ IsCodeword .medium (withSym mediumWord).sym :=
  not_isCodeword_of_first (by decide +kernel)

theorem witness_BerlekampMassey : mediumSyn.length ≤ 16 ∧ 8 ≤ mediumSyn.length := by decide
theorem witness_LocatorGenerates : mediumSyn.length ≤ 16 ∧ (bm mediumSyn).len ≤ 2 ∧ 2 < mediumSyn.length := by
  decide +kernel

theorem witness_RsChien : deg (State.reset.poly 0) = none ∧ deg (polyList [1, 51, 17]) = some 2 ∧
    deg (polyList [1, 0, 1]) = some 2 := by decide +kernel

theorem witness_RsForney_zero : ∃ s : State, ∃ j : Fin 36, j.val < s.errCnt.toNat ∧
    eval (deriv (s.poly 1)) (alphaNeg s.errList[j].pos.toNat) = 0 :=
  ⟨withErrors [⟨0, 7⟩] (withPolys [1] [1, 0, 1]), 0, by decide +kernel⟩
theorem witness_RsForney_ok : ∃ s : State, s.errCnt = 2 ∧
    ∀ j : Fin 36, j.val < s.errCnt.toNat → eval (deriv (s.poly 1)) (alphaNeg s.errList[j].pos.toNat) ≠ 0 :=
  ⟨withErrors [⟨3, 0⟩, ⟨21, 0⟩] (withPolys mediumSyn [1, 51, 17]), by decide +kernel⟩

theorem witness_GeneratorColumns : 19 < (Config.params .long).k ∧ 1 ≤ 16 ∧ 16 ≤ (Config.params .long).t2 := by decide

theorem witness_RsEnc : ∃ t, exec (.rsEnc .short) (withSym [1]) = .next t := ⟨_, rfl⟩

/-- Section 2.4.2 row 1: the locator of degree 0 and length 1. -/
def row1 : List Elem := List.replicate 16 0 ++ [30, 29, 18, 16, 24, 13, 8, 23]
/-- Row 4: SHORT, seven corruptions. -/
def row4 : List Elem :=
  [62, 0, 0, 0, 0, 7, 0, 0, 44, 0, 0, 1, 38, 36, 3, 21, 12, 47, 23, 3, 43, 4, 30, 46]
/-- Row 5: MEDIUM, two roots beyond the word. -/
def row5 : List Elem := List.replicate 16 0 ++ [4, 60, 37, 47, 28, 14, 33, 28]

/-- The loop variables RS.DEC reaches on a buffer. -/
def bmOf (c : Code) (l : List Elem) : BmState := bm (syndromes (Config.params c) (wordPoly c (withSym l).sym))

theorem witness_RsDec_locatorInvalid : ¬ IsCodeword .medium (withSym row1).sym ∧
    deg (bmOf .medium row1).sigma ≠ some (bmOf .medium row1).len :=
  ⟨not_isCodeword_of_first (by decide +kernel), by decide +kernel⟩
theorem witness_RsDec_rootMismatch : ¬ IsCodeword .short (withSym row4).sym ∧
    deg (bmOf .short row4).sigma = some (bmOf .short row4).len ∧ (bmOf .short row4).len ≤ 6 ∧
    (chien (bmOf .short row4).sigma).length ≠ (bmOf .short row4).len :=
  ⟨not_isCodeword_of_first (by decide +kernel), by decide +kernel⟩
theorem witness_RsDec_positionOob : deg (bmOf .medium row5).sigma = some (bmOf .medium row5).len ∧
    (bmOf .medium row5).len ≤ 4 ∧ (chien (bmOf .medium row5).sigma).length = (bmOf .medium row5).len ∧
    (∀ p ∈ chien (bmOf .medium row5).sigma, forneyDen (bmOf .medium row5).sigma p ≠ 0) ∧
    ∃ p ∈ chien (bmOf .medium row5).sigma, 24 ≤ p := by decide +kernel
theorem witness_RsDec_corrects : ¬ IsCodeword .medium (withSym mediumWord).sym ∧
    deg (bmOf .medium mediumWord).sigma = some (bmOf .medium mediumWord).len ∧
    (bmOf .medium mediumWord).len ≤ 4 ∧
    (chien (bmOf .medium mediumWord).sigma).length = (bmOf .medium mediumWord).len ∧
    (∀ p ∈ chien (bmOf .medium mediumWord).sigma, forneyDen (bmOf .medium mediumWord).sigma p ≠ 0) ∧
    ∀ p ∈ chien (bmOf .medium mediumWord).sigma, p < 24 :=
  ⟨not_isCodeword_of_first (by decide +kernel), by decide +kernel⟩

/-- A decode that ends in status 1: RsDecAppliesTheListedCorrections, SuccessfulDecodeYieldsACodeword and
RsDecNeverFailsForneyZero speak of it. -/
theorem witness_RsDec_success : ∃ t, exec (.rsDec .medium) (withSym mediumWord) = .next t ∧ t.status = 1 ∧
    statusOK t.status = true := by
  obtain ⟨t, h, ht⟩ := exists_next (o := exec (.rsDec .medium) (withSym mediumWord)) (f := fun t => t.status) (v := 1)
    (by decide +kernel)
  exact ⟨t, h, ht, by rw [ht]; decide⟩

theorem witness_SingleError : IsCodeword .short State.reset.sym ∧
    changedSymbols .short State.reset.sym (withSym [63]).sym = 1 :=
  ⟨isCodeword_of_all (by decide +kernel), by decide +kernel⟩
/-- Eight changed symbols of a LONG word: the radius. -/
theorem witness_ErrorsUpToTheRadius : IsCodeword .long State.reset.sym ∧
    changedSymbols .long State.reset.sym (withSym [1, 2, 3, 4, 5, 6, 7, 8]).sym = 8 ∧ 8 ≤ (Config.params .long).t2 / 2 :=
  ⟨isCodeword_of_all (by decide +kernel), by decide +kernel⟩

/-- The step path of section 2.3.1 ends with the corrections RS.DEC finds. -/
theorem witness_StepPathAgreesWithDecode : ∃ d s1 s2 s3 s4 : State, (0 : RegNo) ≠ 1 ∧
    exec (.rsDec .medium) (withSym mediumWord) = .next d ∧ d.status = 1 ∧
    exec (.rsSynd .medium 0) (withSym mediumWord) = .next s1 ∧ exec (.rsElp .medium 1 0) s1 = .next s2 ∧
    exec (.rsChien 1) s2 = .next s3 ∧ exec (.rsForney .medium 1 0) s3 = .next s4 := by
  obtain ⟨d, hd, hst⟩ := exists_next (o := exec (.rsDec .medium) (withSym mediumWord)) (f := fun t => t.status) (v := 1)
    (by decide +kernel)
  obtain ⟨s1, h1, _⟩ := exists_next (o := exec (.rsSynd .medium 0) (withSym mediumWord)) (f := fun _ => ()) (v := ())
    rfl
  obtain ⟨s2, h2, _⟩ := exists_next (o := exec (.rsElp .medium 1 0) s1) (f := fun _ => ()) (v := ()) rfl
  have h3 : ∃ s3, exec (.rsChien 1) s2 = .next s3 := by
    simp only [exec, execRsChien]
    split <;> exact ⟨_, rfl⟩
  obtain ⟨s3, h3⟩ := h3
  exact ⟨d, s1, s2, s3, _, by decide, hd, hst, h1, h2, h3, rfl⟩

theorem witness_UnusedSlotsTakeNoPart : ∀ x : Fin 36, x.val < (Config.params .medium).n →
    (withSym (mediumWord ++ [7])).sym[x] = (withSym mediumWord).sym[x] := by decide +kernel

end Sys2Proof.Tests
end

section
/-! SUPPORT. The arithmetic of GF(64) as a field of Mathlib, and through it the root bound of the Chien search. -/

namespace Sys2Proof.Machine

open Sys2Proof Polynomial

/-! ### The laws of R137 -/

theorem gfLog_gfExp : ∀ i < 63, gfLog (gfExp i) = i := by decide +kernel

theorem gfMul_comm (a b : Elem) : gfMul a b = gfMul b a := by
  simp only [gfMul, or_comm, Nat.add_comm]

theorem gfMul_one : ∀ a : Elem, gfMul a 1 = a := by decide +kernel

theorem gfMul_ne_zero {a b : Elem} (ha : a ≠ 0) (hb : b ≠ 0) : gfMul a b ≠ 0 := by
  rw [gfMul_of_ne_zero ha hb]
  exact gfExp_ne_zero _ (Nat.mod_lt _ (by decide))

/-- The logarithm of a product of non-zero elements (R134). -/
theorem gfLog_gfMul {a b : Elem} (ha : a ≠ 0) (hb : b ≠ 0) :
    gfLog (gfMul a b) = (gfLog a + gfLog b) % 63 := by
  rw [gfMul_of_ne_zero ha hb, gfLog_gfExp _ (Nat.mod_lt _ (by decide))]

theorem gfMul_assoc (a b c : Elem) : gfMul (gfMul a b) c = gfMul a (gfMul b c) := by
  by_cases ha : a = 0
  · simp only [ha, gfMul_zero_left]
  by_cases hb : b = 0
  · simp only [hb, gfMul_zero_left, gfMul_zero_right]
  by_cases hc : c = 0
  · simp only [hc, gfMul_zero_right]
  rw [gfMul_of_ne_zero (gfMul_ne_zero ha hb) hc, gfMul_of_ne_zero ha (gfMul_ne_zero hb hc), gfLog_gfMul ha hb,
    gfLog_gfMul hb hc, Nat.mod_add_mod, Nat.add_mod_mod, Nat.add_assoc]

theorem gfSum_gfAdd (n : Nat) (f g : Nat → Elem) :
    gfSum n (fun i => gfAdd (f i) (g i)) = gfAdd (gfSum n f) (gfSum n g) := by
  induction n with
  | zero => simp [gfAdd]
  | succ n ih =>
    rw [gfSum_succ, gfSum_succ, gfSum_succ, ih]
    simp only [gfAdd]
    ac_rfl

/-- A product is the sum of the products by the bits of its second factor. -/
theorem gfMul_eq_gfSum_bits : ∀ a b : Elem,
    gfMul a b = gfSum 6 fun i => if b.getLsbD i then gfMul a (1#6 <<< i) else 0 := by decide +kernel

theorem gfMul_gfAdd (a b c : Elem) : gfMul a (gfAdd b c) = gfAdd (gfMul a b) (gfMul a c) := by
  rw [gfMul_eq_gfSum_bits a (gfAdd b c), gfMul_eq_gfSum_bits a b, gfMul_eq_gfSum_bits a c, ← gfSum_gfAdd]
  refine gfSum_congr fun i _ => ?_
  rw [gfAdd, BitVec.getLsbD_xor]
  cases b.getLsbD i <;> cases c.getLsbD i <;> simp [gfAdd]

/-- R135's inverse, with 0 for the 0 it is not defined at. -/
def gfInvOrZero (a : Elem) : Elem := if a = 0 then 0 else gfInv a

theorem gfMul_gfInvOrZero : ∀ a : Elem, a ≠ 0 → gfMul a (gfInvOrZero a) = 1 := by decide +kernel

/-! ### The field -/

/-- GF(64) is a field (R130 to R137). Only named, not inferred: `BitVec` has sums and products of its own, modulo 64. -/
@[reducible] def elemField : Field Elem :=
  @Field.ofMinimalAxioms Elem ⟨gfAdd⟩ ⟨gfMul⟩ ⟨id⟩ ⟨gfInvOrZero⟩ ⟨0⟩ ⟨1⟩
    BitVec.xor_assoc (fun _ => BitVec.zero_xor) (fun _ => BitVec.xor_self) gfMul_assoc gfMul_comm
    (fun a => (gfMul_comm 1 a).trans (gfMul_one a)) gfMul_gfInvOrZero rfl gfMul_gfAdd ⟨0, 1, by decide⟩

/-- A map that carries the engine's sum and product to those of a field, and loses nothing. -/
structure FieldView {F : Type} [Field F] (φ : Elem → F) : Prop where
  add (a b : Elem) : φ (gfAdd a b) = φ a + φ b
  mul (a b : Elem) : φ (gfMul a b) = φ a * φ b
  zero : φ 0 = 0
  injective : Function.Injective φ

theorem exists_fieldView : ∃ (F : Type) (_ : Field F) (φ : Elem → F), FieldView φ :=
  ⟨Elem, elemField, id, @FieldView.mk Elem elemField id (fun _ _ => rfl) (fun _ _ => rfl) rfl fun _ _ h => h⟩

/-! ### Registers as polynomials over the field -/

/-- The polynomial with the given coefficients, lowest first, in the form Horner's method evaluates (R162). -/
noncomputable def toPolynomial {F : Type} [Field F] (φ : Elem → F) (l : List Elem) : F[X] :=
  l.foldr (fun a q => q * X + C (φ a)) 0

section
variable {F : Type} [Field F] {φ : Elem → F} (hφ : FieldView φ)

include hφ

theorem FieldView.eq_zero_iff {a : Elem} : φ a = 0 ↔ a = 0 := by
  rw [← hφ.zero, hφ.injective.eq_iff]

theorem coeff_toPolynomial (l : List Elem) (i : Nat) : (toPolynomial φ l).coeff i = φ (l.getD i 0) := by
  induction l generalizing i with
  | nil => exact (coeff_zero i).trans hφ.zero.symm
  | cons a l ih =>
    rw [toPolynomial, List.foldr_cons, ← toPolynomial]
    cases i with
    | zero => simp
    | succ i => simpa [coeff_C] using ih i

theorem coeff_toPolynomial_toList (p : PolyReg) (i : Nat) :
    (toPolynomial φ p.toList).coeff i = φ (coeff p i) := by
  rw [coeff_toPolynomial hφ, coeff]
  split
  · next h => rw [List.getD_eq_getElem _ _ (by simpa using h), Vector.getElem_toList]
  · next h => rw [List.getD_eq_default _ _ (by simpa using h)]

theorem eval_toPolynomial (l : List Elem) (x : Elem) :
    (toPolynomial φ l).eval (φ x) = φ (l.foldr (fun a acc => gfAdd (gfMul acc x) a) 0) := by
  induction l with
  | nil => exact (Polynomial.eval_zero).trans hφ.zero.symm
  | cons a l ih =>
    rw [toPolynomial, List.foldr_cons, ← toPolynomial, List.foldr_cons, hφ.add, hφ.mul, ← ih]
    simp

theorem eval_toPolynomial_toList (p : PolyReg) (x : Elem) :
    (toPolynomial φ p.toList).eval (φ x) = φ (eval p x) := by
  rw [eval_toPolynomial hφ, eval, evalCap, List.take_of_length_le (by simp)]

end

/-! ### The root bound -/

theorem alphaNeg_injOn : ∀ p < 63, ∀ q < 63, alphaNeg p = alphaNeg q → p = q := by decide +kernel

/-- The Chien search finds at most deg(σ) roots (R195). -/
theorem length_chien_le_deg {sigma : PolyReg} {d : Nat} (h : deg sigma = some d) : (chien sigma).length ≤ d := by
  classical
  obtain ⟨F, _, φ, hφ⟩ := exists_fieldView
  obtain ⟨hd, habove⟩ := deg_eq_some.mp h
  set P := toPolynomial φ sigma.toList with hP
  have hne : P ≠ 0 := fun h0 => hd <| hφ.eq_zero_iff.mp <| by
    rw [← coeff_toPolynomial_toList hφ, ← hP, h0, coeff_zero]
  have hdeg : P.natDegree ≤ d := natDegree_le_iff_coeff_eq_zero.mpr fun i hi => by
    rw [hP, coeff_toPolynomial_toList hφ, habove i hi, hφ.zero]
  have hroots : ((chien sigma).toFinset.image fun p => φ (alphaNeg p)).val ⊆ P.roots := by
    intro y hy
    obtain ⟨p, hp, rfl⟩ := Finset.mem_image.mp (Finset.mem_val.mp hy)
    rw [mem_roots hne, IsRoot.def, hP, eval_toPolynomial_toList hφ, (mem_chien.mp (List.mem_toFinset.mp hp)).2, hφ.zero]
  have hcard : ((chien sigma).toFinset.image fun p => φ (alphaNeg p)).card = (chien sigma).length := by
    rw [Finset.card_image_of_injOn, List.toFinset_card_of_nodup ((chien_pairwise sigma).imp Nat.ne_of_lt)]
    intro p hp q hq hpq
    rw [Finset.mem_coe, List.mem_toFinset, mem_chien] at hp hq
    exact alphaNeg_injOn p hp.1 q hq.1 (hφ.injective hpq)
  rw [← hcard]
  exact (card_le_degree_of_subset_roots hroots).trans hdeg

end Sys2Proof.Machine
end

section
/-! SUPPORT. How a command can end: one inversion of `exec`, from which the claims about commands follow. -/

namespace Sys2Proof.Machine

open Sys2Proof

/-! ### Error lists -/

/-- A list `write_errlist` may be given: at most 36 entries, positions 0..62, ascending (R205). -/
def LegalEntries (l : List ErrEntry) : Prop :=
  l.length ≤ 36 ∧ (∀ e ∈ l, e.pos.toNat ≤ 62) ∧ l.Pairwise fun a b => a.pos.toNat < b.pos.toNat

theorem legalEntries_nil : LegalEntries [] := ⟨by simp, by simp, .nil⟩

/-- The entries of a locator's roots, with any magnitudes, are legal (R195, R205, R240). -/
theorem legalEntries_chien {sigma : PolyReg} {d : Nat} (h : deg sigma = some d) (mag : Nat → Elem) :
    LegalEntries ((chien sigma).map fun p => ⟨BitVec.ofNat 6 p, mag p⟩) := by
  have hd : d < 36 := by
    by_contra hge
    exact (deg_eq_some.mp h).1 (coeff_of_ge sigma (by omega))
  have hpos : ∀ p ∈ chien sigma, (BitVec.ofNat 6 p).toNat = p := fun p hp => by
    have := (mem_chien.mp hp).1
    rw [BitVec.toNat_ofNat]
    omega
  refine ⟨?_, ?_, ?_⟩
  · have := length_chien_le_deg h
    rw [List.length_map]
    omega
  · intro e he
    obtain ⟨p, hp, rfl⟩ := List.mem_map.mp he
    have := (mem_chien.mp hp).1
    show (BitVec.ofNat 6 p).toNat ≤ 62
    rw [hpos p hp]
    omega
  · rw [List.pairwise_map]
    refine (chien_pairwise sigma).imp_of_mem fun {p q} hp hq hpq => ?_
    rwa [hpos p hp, hpos q hq]

/-- Writing a legal list leaves the error list legal (R205). -/
theorem errListLegal_writeErrList {l : List ErrEntry} (h : LegalEntries l) (s : State) :
    errListLegal (writeErrList l s) := by
  obtain ⟨hlen, hpos, hasc⟩ := h
  have hcnt : (BitVec.ofNat 6 l.length).toNat = l.length := by
    rw [BitVec.toNat_ofNat]
    omega
  rw [writeErrList_eq]
  simp only [errListLegal, hcnt, Fin.getElem_fin, Vector.getElem_ofFn]
  refine ⟨hlen, fun j => ⟨fun hj => List.getD_eq_default _ _ hj, fun hj => ?_, fun i hij hj => ?_⟩⟩
  · rw [List.getD_eq_getElem _ _ hj]
    exact hpos _ (List.getElem_mem hj)
  · rw [List.getD_eq_getElem _ _ hj, List.getD_eq_getElem _ _ (Nat.lt_trans hij hj)]
    exact List.pairwise_iff_getElem.mp hasc _ _ _ _ hij

/-- Legality depends on the count, the positions below it and the zeros from it on. -/
theorem errListLegal_of_same_positions {s u : State} (hs : errListLegal s) (hcnt : u.errCnt = s.errCnt)
    (hpos : ∀ j : Fin 36, j.val < s.errCnt.toNat → u.errList[j].pos = s.errList[j].pos)
    (hrest : ∀ j : Fin 36, s.errCnt.toNat ≤ j.val → u.errList[j] = s.errList[j]) : errListLegal u := by
  obtain ⟨hle, hall⟩ := hs
  rw [errListLegal, hcnt]
  refine ⟨hle, fun j => ?_⟩
  obtain ⟨hzero, hmax, hasc⟩ := hall j
  refine ⟨fun hj => (hrest j hj).trans (hzero hj), fun hj => ?_, fun i hij hj => ?_⟩
  · rw [hpos j hj]
    exact hmax hj
  · rw [hpos j hj, hpos i (Nat.lt_trans hij hj)]
    exact hasc i hij hj

theorem errListLegal_of_same {s u : State} (hs : errListLegal s) (hcnt : u.errCnt = s.errCnt)
    (hlist : u.errList = s.errList) : errListLegal u :=
  errListLegal_of_same_positions hs hcnt (fun j _ => by rw [hlist]) fun j _ => by rw [hlist]

/-! ### The fault registers -/

/-- FAULT and FAULTINFO are as before. -/
structure SameFaults (s t : State) : Prop where
  fault : t.fault = s.fault
  faultInfo : t.faultInfo = s.faultInfo

/-- A fault's bit is set, and its cause captured if no fault was pending (R272, R281). -/
def RaisesFault (info : Word) (s t : State) : Prop :=
  ∃ k, t.fault = s.fault ||| faultMask k ∧ t.faultInfo = if s.fault = 0 then info else s.faultInfo

theorem raisesFault_raiseFault (k : FaultKind) (info : Word) (s : State) :
    RaisesFault info s (raiseFault k info s) := by
  rw [raiseFault_eq]
  exact ⟨k, rfl, rfl⟩

theorem raisesFault_busFault (k : FaultKind) (off : Offset) (s : State) :
    RaisesFault (zext off) s (busFault k off s) := by
  rw [busFault_eq]
  exact ⟨k, rfl, rfl⟩

theorem or_faultMask_ne_zero (f : BitVec 6) (k : FaultKind) : f ||| faultMask k ≠ 0 := by
  revert f
  cases k <;> decide

/-! ### The ends of a command -/

/-- What a command that raises no fault writes besides RESULT and STATUS, each slot only where `mayWrite` lets it. -/
inductive DataWrite (i : Instr) (s : State) : State → Prop
  | nothing : DataWrite i s s
  | poly (rd : RegNo) (p : PolyReg)
      (hp : ∀ j : Fin 36, mayWrite i (.coeff rd j) = false → p[j] = (s.poly rd)[j]) : DataWrite i s (s.setPoly rd p)
  | sym (v : SymBuf) (hv : ∀ x : Fin 36, mayWrite i (.sym x) = false → v[x] = s.sym[x]) : DataWrite i s (s.setSym v)
  | errList (l : List ErrEntry) (hl : LegalEntries l) (hcnt : mayWrite i .errCnt = true)
      (hent : ∀ j, mayWrite i (.errEntry j) = true) : DataWrite i s (writeErrList l s)
  | correct (v : SymBuf) (hv : ∀ x : Fin 36, mayWrite i (.sym x) = false → v[x] = s.sym[x]) (l : List ErrEntry)
      (hl : LegalEntries l) (hcnt : mayWrite i .errCnt = true) (hent : ∀ j, mayWrite i (.errEntry j) = true) :
      DataWrite i s (writeErrList l (s.setSym v))
  | magnitudes (v : Vector ErrEntry 36) (hpos : ∀ j : Fin 36, j.val < s.errCnt.toNat → v[j].pos = s.errList[j].pos)
      (hrest : ∀ j : Fin 36, s.errCnt.toNat ≤ j.val → v[j] = s.errList[j])
      (hent : ∀ j, mayWrite i (.errEntry j) = true) : DataWrite i s (s.setErrList v)

/-- The two ends of a command (R270): a precise command fault (R272), or its data written and then RESULT and a STATUS
word that is OK or FAIL (R275, R276). -/
inductive CommandEnd (i : Instr) (s : State) : State → Prop
  | faulted (k : FaultKind) (hk : k ∈ [.logZero, .divZero, .polyOvf]) (hf : mayWrite i .fault = true)
      (hi : mayWrite i .faultInfo = true) : CommandEnd i s (commandFault k s)
  | done (u : State) (hu : DataWrite i s u) (w st : Word) (hst : statusOfCommand st = true)
      (hf : statusFAULTED st = false) : CommandEnd i s ((u.setResult w).setStatus st)

theorem statusOfCommand_statusFail (c : FailCode) :
    statusOfCommand (statusFail c) = true ∧ statusFAULTED (statusFail c) = false := by
  cases c <;> decide

section
variable {i : Instr} {s u : State}

theorem DataWrite.okWith (hu : DataWrite i s u) (w : Word) : CommandEnd i s (okWith w u) :=
  .done u hu w statusOk (by decide) (by decide)

theorem DataWrite.okSynZero (hu : DataWrite i s u) (w : Word) :
    CommandEnd i s ((u.setResult w).setStatus statusOkSynZero) :=
  .done u hu w statusOkSynZero (by decide) (by decide)

theorem DataWrite.failWith (hu : DataWrite i s u) (w : Word) (c : FailCode) : CommandEnd i s (failWith w c u) :=
  .done u hu w (statusFail c) (statusOfCommand_statusFail c).1 (statusOfCommand_statusFail c).2

end

/-- The two ends of a command that checks for a fault first (R142, R144, R145, R167). -/
theorem CommandEnd.ite_fault {i : Instr} {s u : State} {c : Prop} [Decidable c] {k : FaultKind}
    (hk : k ∈ [.logZero, .divZero, .polyOvf]) (hf : c → mayWrite i .fault = true ∧ mayWrite i .faultInfo = true)
    (hu : CommandEnd i s u) : CommandEnd i s (if c then commandFault k s else u) := by
  split
  · next hc => exact .faulted k hk (hf hc).1 (hf hc).2
  · exact hu

theorem setCoeff_ne (p : PolyReg) {i : Nat} (v : Elem) {j : Fin 36} (h : j.val ≠ i) : (setCoeff p i v)[j] = p[j] := by
  by_cases hi : i < 36
  · have := coeff_setCoeff p hi v j.val
    rwa [if_neg h, coeff_of_lt _ j.isLt, coeff_of_lt _ j.isLt] at this
  · rw [setCoeff, dif_neg hi]

/-- Writing a whole register is within the rule of a command that may write all of it. -/
theorem DataWrite.wholePoly {i : Instr} (s : State) {rd : RegNo} (h : ∀ j, mayWrite i (.coeff rd j) = true) (p : PolyReg) :
    DataWrite i s (s.setPoly rd p) :=
  .poly rd p fun j hj => by rw [h j] at hj; cases hj

/-- Every command ends in one of the two ways (R270). -/
theorem commandEnd_of_exec {i : Instr} {s t : State} (h : exec i s = .next t) : CommandEnd i s t := by
  cases i with
  | nop | gfAdd _ _ | gfMul _ _ | gfExp _ | gfIsz _ | polyEval _ _ =>
    cases h
    exact DataWrite.nothing.okWith _
  | gfDiv _ _ | gfInv _ | gfLog _ =>
    cases h
    exact .ite_fault (by decide) (by simp [mayWrite]) (DataWrite.nothing.okWith _)
  | polyClr _ | polyAdd _ _ _ | rsElp _ _ _ =>
    cases h
    exact (DataWrite.wholePoly s (by simp [mayWrite]) _).okWith _
  | polyMul rd ra rb =>
    cases h
    exact .ite_fault (by decide) (by simp [mayWrite]) ((DataWrite.wholePoly s (by simp [mayWrite]) _).okWith _)
  | polyDeg ra =>
    rw [exec, execPolyDeg] at h
    split at h
    · cases h
      exact .done s .nothing _ statusOkDegUndef (by decide) (by decide)
    · cases h
      exact DataWrite.nothing.okWith _
  | polyGetc ra idx =>
    cases h
    split
    · exact DataWrite.nothing.failWith _ _
    · exact DataWrite.nothing.okWith _
  | polySetc rd idx val =>
    cases h
    split
    · exact DataWrite.nothing.failWith _ _
    · exact (DataWrite.poly rd _ fun j hj => setCoeff_ne _ val (by simpa [mayWrite] using hj)).okWith _
  | rsEnc c =>
    cases h
    exact (DataWrite.sym _ fun x hx => encodeBuf_other c s.sym x (by simpa [mayWrite] using hx)).okWith _
  | rsDec c =>
    rw [exec, execRsDec] at h
    split at h
    · cases h
      exact (DataWrite.errList [] legalEntries_nil rfl fun _ => rfl).okSynZero _
    · cases h
      exact (DataWrite.errList [] legalEntries_nil rfl fun _ => rfl).failWith _ _
    · next d es hes =>
      cases h
      obtain ⟨-, hd, -, -, -, -, -, rfl⟩ := decodeBuf_corrected hes
      exact (DataWrite.correct _ (fun x hx => correctBuf_other c s.sym _ x (by simpa [mayWrite] using hx)) _
        (legalEntries_chien hd _) rfl fun _ => rfl).okWith _
  | rsSynd c rd =>
    cases h
    have hu := DataWrite.wholePoly (i := .rsSynd c rd) (rd := rd) s (by simp [mayWrite])
      (synPoly (syndromes (Config.params c) (wordPoly c s.sym)))
    split
    · exact hu.okSynZero _
    · exact hu.okWith _
  | rsChien ra =>
    rw [exec, execRsChien] at h
    split at h
    · cases h
      exact (DataWrite.errList [] legalEntries_nil rfl fun _ => rfl).failWith _ _
    · next d hd =>
      cases h
      have hu : DataWrite (.rsChien ra) s _ := .errList _ (legalEntries_chien hd fun _ => 0) rfl fun _ => rfl
      split
      · exact hu.failWith _ _
      · exact hu.okWith _
  | rsForney c ra rb =>
    cases h
    split
    · exact DataWrite.nothing.failWith _ _
    · refine (DataWrite.magnitudes _ (fun j hj => ?_) (fun j hj => ?_) fun _ => rfl).okWith _
      · simp [hj]
      · simp [Nat.not_lt.mpr hj]

/-! ### What the ends keep -/

theorem CommandEnd.status {i : Instr} {s t : State} (h : CommandEnd i s t) : statusOfCommand t.status = true := by
  cases h with
  | faulted k =>
    show statusOfCommand statusFaulted = true
    decide
  | done u hu w st hst => exact hst

theorem DataWrite.keeps_errListLegal {i : Instr} {s u : State} (h : DataWrite i s u) (hs : errListLegal s) :
    errListLegal u := by
  cases h with
  | nothing => exact hs
  | poly rd p => exact errListLegal_of_same hs rfl rfl
  | sym v => exact errListLegal_of_same hs rfl rfl
  | errList l hl => exact errListLegal_writeErrList hl s
  | correct v hv l hl => exact errListLegal_writeErrList hl _
  | magnitudes v hpos hrest => exact errListLegal_of_same_positions hs rfl hpos hrest

theorem CommandEnd.keeps_errListLegal {i : Instr} {s t : State} (h : CommandEnd i s t) (hs : errListLegal s) :
    errListLegal t := by
  cases h with
  | faulted k => exact errListLegal_of_same hs (by rw [commandFault_eq]; rfl) (by rw [commandFault_eq]; rfl)
  | done u hu => exact errListLegal_of_same (hu.keeps_errListLegal hs) rfl rfl

theorem DataWrite.sameFaults {i : Instr} {s u : State} (h : DataWrite i s u) : SameFaults s u := by
  cases h with
  | nothing | poly _ _ _ | sym _ _ | magnitudes _ _ _ _ => exact ⟨rfl, rfl⟩
  | errList _ _ _ _ | correct _ _ _ _ _ _ =>
    rw [writeErrList_eq]
    exact ⟨rfl, rfl⟩

/-- A command writes FAULT and FAULTINFO by a command fault or not at all (R272). -/
theorem CommandEnd.fault {i : Instr} {s t : State} (h : CommandEnd i s t) :
    SameFaults s t ∨ RaisesFault s.cmd s t := by
  cases h with
  | faulted k => exact .inr (raisesFault_raiseFault k s.cmd s)
  | done u hu =>
    obtain ⟨hfault, hinfo⟩ := hu.sameFaults
    exact .inl ⟨hfault, hinfo⟩

theorem mayWrite_status (i : Instr) : mayWrite i .status = true := by cases i <;> rfl

theorem mayWrite_result (i : Instr) : mayWrite i .result = true := by cases i <;> rfl

/-! ### The cells of the window a write leaves -/

theorem readCell_setPoly_of_ne {cell : WindowCell} {rd : RegNo} (h : ∀ j, cell ≠ .coeff rd j) (p : PolyReg) (s : State) :
    readCell (s.setPoly rd p) cell = readCell s cell := by
  cases cell with
  | coeff r j =>
    have hr : r ≠ rd := fun hr => h j (by rw [hr])
    simp only [readCell, s.setPoly_poly_ne hr]
  | _ => rfl

theorem readCell_setSym_of_ne {cell : WindowCell} (h : ∀ x, cell ≠ .sym x) (v : SymBuf) (s : State) :
    readCell (s.setSym v) cell = readCell s cell := by
  cases cell with
  | sym x => exact absurd rfl (h x)
  | _ => rfl

theorem readCell_setErrList_of_ne {cell : WindowCell} (h : ∀ j, cell ≠ .errEntry j) (v : Vector ErrEntry 36) (s : State) :
    readCell (s.setErrList v) cell = readCell s cell := by
  cases cell with
  | errEntry j => exact absurd rfl (h j)
  | _ => rfl

theorem readCell_setErrCnt_of_ne {cell : WindowCell} (h : cell ≠ .errCnt) (n : BitVec 6) (s : State) :
    readCell (s.setErrCnt n) cell = readCell s cell := by
  cases cell with
  | errCnt => exact absurd rfl h
  | _ => rfl

theorem readCell_writeErrList_of_ne {cell : WindowCell} (hcnt : cell ≠ .errCnt) (hent : ∀ j, cell ≠ .errEntry j)
    (l : List ErrEntry) (s : State) : readCell (writeErrList l s) cell = readCell s cell := by
  rw [writeErrList, readCell_setErrCnt_of_ne hcnt, readCell_setErrList_of_ne hent]

theorem ne_of_mayWrite {i : Instr} {cell cell' : WindowCell} (h : mayWrite i cell = false)
    (h' : mayWrite i cell' = true) : cell ≠ cell' := by
  rintro rfl
  rw [h'] at h
  cases h

theorem DataWrite.keeps_cell {i : Instr} {s u : State} (h : DataWrite i s u) {cell : WindowCell}
    (hm : mayWrite i cell = false) : readCell u cell = readCell s cell := by
  have hsym {v : SymBuf} (hv : ∀ x : Fin 36, mayWrite i (.sym x) = false → v[x] = s.sym[x]) :
      readCell (s.setSym v) cell = readCell s cell := by
    by_cases hc : ∃ x, cell = .sym x
    · obtain ⟨x, rfl⟩ := hc
      exact congrArg zext (hv x hm)
    · exact readCell_setSym_of_ne (not_exists.mp hc) v s
  cases h with
  | nothing => rfl
  | poly rd p hp =>
    by_cases hc : ∃ j, cell = .coeff rd j
    · obtain ⟨j, rfl⟩ := hc
      simp only [readCell, State.setPoly_poly, hp j hm]
    · exact readCell_setPoly_of_ne (not_exists.mp hc) p s
  | sym v hv => exact hsym hv
  | errList l hl hcnt hent =>
    exact readCell_writeErrList_of_ne (ne_of_mayWrite hm hcnt) (fun j => ne_of_mayWrite hm (hent j)) l s
  | correct v hv l hl hcnt hent =>
    rw [readCell_writeErrList_of_ne (ne_of_mayWrite hm hcnt) (fun j => ne_of_mayWrite hm (hent j)) l, hsym hv]
  | magnitudes v hpos hrest hent => exact readCell_setErrList_of_ne (fun j => ne_of_mayWrite hm (hent j)) v s

/-- A command changes no cell but those its rule writes (R78). -/
theorem CommandEnd.keeps_cell {i : Instr} {s t : State} (h : CommandEnd i s t) {cell : WindowCell}
    (hm : mayWrite i cell = false) : readCell t cell = readCell s cell := by
  cases h with
  | faulted k hk hf hi =>
    rw [commandFault_eq]
    cases cell with
    | status => exact absurd rfl (ne_of_mayWrite hm (mayWrite_status i))
    | fault => exact absurd rfl (ne_of_mayWrite hm hf)
    | faultInfo => exact absurd rfl (ne_of_mayWrite hm hi)
    | _ => rfl
  | done u hu =>
    refine Eq.trans ?_ (hu.keeps_cell hm)
    cases cell with
    | status => exact absurd rfl (ne_of_mayWrite hm (mayWrite_status i))
    | result => exact absurd rfl (ne_of_mayWrite hm (mayWrite_result i))
    | _ => rfl

end Sys2Proof.Machine
end

section
/-! SUPPORT. How a step can end, for the results of commands and for the fault registers; where the registers of the
window lie. -/

namespace Sys2Proof.Machine

open Sys2Proof

/-! ### The offsets of the written registers -/

theorem toNat_mod_four_of_aligned {off : Offset} (h : aligned off = true) : off.toNat % 4 = 0 := by
  have := congrArg BitVec.toNat (eq_of_beq h)
  simpa [BitVec.extractLsb'_toNat] using this

theorem registerAt_lt {n : Nat} {cell : WindowCell} (h : registerAt n = some cell) : n < 11 := by
  by_contra hn
  obtain ⟨k, rfl⟩ := Nat.exists_eq_add_of_le' (Nat.not_lt.mp hn)
  cases h

/-- A register has one word index (R74). -/
theorem registerAt_inj {m n : Nat} {cell : WindowCell} (hm : registerAt m = some cell) (hn : registerAt n = some cell) :
    m = n := by
  have key : ∀ m < 11, ∀ n < 11, registerAt m = registerAt n → m = n := by decide
  exact key m (registerAt_lt hm) n (registerAt_lt hn) (hm.trans hn.symm)

/-- No slot is one of the registers below 0x02C. -/
theorem registerAt_ne_slot {n : Nat} {cell : WindowCell} (h : registerAt n = some cell) :
    (∀ i, cell ≠ .sym i) ∧ (∀ j, cell ≠ .errEntry j) ∧ ∀ r i, cell ≠ .coeff r i := by
  unfold registerAt at h
  split at h <;> cases h <;> simp

/-- An access reaches a register at four times its word index only (R73, R74). -/
theorem offset_of_accessCell {off : Offset} {cell : WindowCell} {n : Nat} (h : accessCell off = some cell)
    (hn : registerAt n = some cell) : off = BitVec.ofNat 12 (4 * n) := by
  obtain ⟨hsym, herr, hcoeff⟩ := registerAt_ne_slot hn
  rw [accessCell] at h
  split at h
  · next ha =>
    have hmod := toNat_mod_four_of_aligned ha
    simp only [decodeOffset] at h
    split at h
    · have hindex := registerAt_inj h hn
      rw [show 4 * n = off.toNat by omega, BitVec.ofNat_toNat, BitVec.setWidth_eq]
    split at h
    · exact absurd (Option.some.inj h).symm (hsym _)
    split at h
    · exact absurd (Option.some.inj h).symm (herr _)
    split at h
    · exact absurd (Option.some.inj h).symm (hcoeff _ _)
    · cases h
  · cases h

/-! ### Accesses -/

/-- A read changes nothing but the bus outputs, or raises BUSERR (R76, R281). -/
theorem hostRead_cases (off : Offset) (s : State) :
    (∃ b, hostRead off s = s.setBus b) ∨ hostRead off s = (busFault .busErr off s).setBus (.readDone 0) := by
  unfold hostRead
  split
  · exact .inl ⟨_, rfl⟩
  · exact .inr rfl

theorem hostWrite_cmd (w : Word) (s : State) : hostWrite 0x010#12 w s = issueCommand w (s.setBus .writeDone) := rfl
theorem hostWrite_ctrl (w : Word) (s : State) : hostWrite 0x00C#12 w s = .next (writeCtrl w (s.setBus .writeDone)) := rfl
theorem hostWrite_fault (w : Word) (s : State) :
    hostWrite 0x01C#12 w s = .next (clearFault w (s.setBus .writeDone)) := rfl
theorem hostWrite_sym (i : Fin 36) (w : Word) (s : State) :
    hostWrite (symOffset i) w s = .next (writeSym i (symOffset i) w (s.setBus .writeDone)) := by
  rw [hostWrite, accessCell_symOffset]
  rfl
theorem hostWrite_coeff (r : RegNo) (i : Fin 36) (w : Word) (s : State) :
    hostWrite (coeffOffset r i) w s = .next (writeCoeff r i (coeffOffset r i) w (s.setBus .writeDone)) := by
  rw [hostWrite, accessCell_coeffOffset]
  rfl

theorem fitsSlot_iff (w : Word) : fitsSlot w = true ↔ w.toNat < 64 := by
  rw [fitsSlot, beq_iff_eq, ← BitVec.toNat_inj, BitVec.extractLsb'_toNat, Nat.shiftRight_eq_div_pow]
  change w.toNat / 2 ^ 6 % 2 ^ 26 = 0 ↔ w.toNat < 64
  have := w.isLt
  omega

/-- The low six bits of a word (R46). -/
theorem extractLsb'_six_eq (w : Word) : w.extractLsb' 0 6 = BitVec.ofNat 6 w.toNat := by
  rw [BitVec.extractLsb', Nat.shiftRight_zero]

/-- The fault a value out of range raises, with the access done. -/
theorem busFault_range_taken {s : State} (off : Offset) (rest : List HostEvent) :
    busFault .range off ((takeEvent rest s).setBus .writeDone) =
      { BusFaultedState 0b010000#6 off s with bus := .writeDone, pending := rest } :=
  busFault_eq _ _ _

/-! ### What a step leaves of STATUS and the error list -/

/-- STATUS, ERRCNT and ERRLIST are as before. -/
structure SameResults (s t : State) : Prop where
  status : t.status = s.status
  errCnt : t.errCnt = s.errCnt
  errList : t.errList = s.errList

theorem sameResults_busFault (k : FaultKind) (off : Offset) (s : State) : SameResults s (busFault k off s) := by
  rw [busFault_eq]
  exact ⟨rfl, rfl, rfl⟩

theorem errListLegal_of_sameResults {s t : State} (hs : errListLegal s) (h : SameResults s t) : errListLegal t :=
  errListLegal_of_same hs h.errCnt h.errList

theorem statusLegal_of_statusOfCommand {w : Word} (h : statusOfCommand w = true) : statusLegal w = true :=
  (Bool.and_eq_true_iff.mp h).1

theorem errListLegal_reset : errListLegal State.reset :=
  errListLegal_of_same (errListLegal_writeErrList legalEntries_nil State.reset)
    (by rw [writeErrList_nil]; rfl) (by rw [writeErrList_nil]; rfl)

/-- The ways an access can end for STATUS and the error list: they stay, take their reset values, or are written by a
command or by the ILLEGAL fault, on a state in which they are as before. -/
inductive ResultsAfter (s t : State) : Prop
  | same (h : SameResults s t)
  | reset (h : SameResults State.reset t)
  | command (i : Instr) (u : State) (hu : SameResults s u) (h : exec i u = .next t)
  | illegal (w : Word) (u : State) (hu : SameResults s u) (h : t = raiseFault .illegal w u)

theorem SameResults.trans {s u t : State} (h : SameResults s u) (h' : SameResults u t) : SameResults s t :=
  ⟨h'.status.trans h.status, h'.errCnt.trans h.errCnt, h'.errList.trans h.errList⟩

theorem ResultsAfter.of_same {s u t : State} (h : ResultsAfter u t) (hu : SameResults s u) : ResultsAfter s t := by
  cases h with
  | same h => exact .same (hu.trans h)
  | reset h => exact .reset h
  | command i v hv h => exact .command i v (hu.trans hv) h
  | illegal w v hv h => exact .illegal w v (hu.trans hv) h

theorem resultsAfter_hostRead (off : Offset) (s : State) : ResultsAfter s (hostRead off s) := by
  rcases hostRead_cases off s with ⟨b, hb⟩ | hb <;> rw [hb]
  · exact .same ⟨rfl, rfl, rfl⟩
  · exact .same ((sameResults_busFault .busErr off s).trans ⟨rfl, rfl, rfl⟩)

theorem resultsAfter_writeCtrl (w : Word) (s : State) : ResultsAfter s (writeCtrl w s) := by
  cases h : w.getLsbD 1
  · rw [writeCtrl_fie h]
    exact .same ⟨rfl, rfl, rfl⟩
  · rw [writeCtrl_reset h]
    exact .reset ⟨rfl, rfl, rfl⟩

theorem resultsAfter_issueCommand {w : Word} {s t : State} (h : issueCommand w s = .next t) : ResultsAfter s t := by
  have hu : SameResults s (s.recordCommand w) := ⟨rfl, rfl, rfl⟩
  rcases issueCommand_cases w s with ⟨i, -, he⟩ | ⟨e, -, he⟩ <;> rw [he] at h
  · exact .command i _ hu h
  · exact .illegal w _ hu (Host.Outcome.next.inj h).symm

theorem resultsAfter_hostWrite {off : Offset} {w : Word} {s t : State} (h : hostWrite off w s = .next t) :
    ResultsAfter s t := by
  have hbus : SameResults s (s.setBus .writeDone) := ⟨rfl, rfl, rfl⟩
  rcases hostWrite_cases off w s with
    hc | hc | ⟨-, hc⟩ | ⟨-, hc⟩ | ⟨-, hc⟩ | ⟨i, -, -, hc⟩ | ⟨r, i, -, -, hc⟩ <;> rw [hc] at h
  case inr.inr.inr.inl => exact (resultsAfter_issueCommand h).of_same hbus
  all_goals cases h
  · exact .same (hbus.trans (sameResults_busFault .busErr off _))
  · exact .same (hbus.trans (sameResults_busFault .range off _))
  · exact (resultsAfter_writeCtrl w _).of_same hbus
  all_goals exact .same ⟨rfl, rfl, rfl⟩

theorem resultsAfter_step {s t : State} (h : step s = .next t) : ResultsAfter s t := by
  have htaken (rest : List HostEvent) : SameResults s (takeEvent rest s) := ⟨rfl, rfl, rfl⟩
  rcases step_next_cases h with ⟨-, rfl⟩ | ⟨level, rest, -, rfl⟩ | ⟨off, rest, -, -, rfl⟩ | ⟨off, w, rest, -, -, hw⟩
  · exact .same ⟨rfl, rfl, rfl⟩
  · rw [drivePin_eq]
    split
    · exact .same (htaken rest)
    · exact .reset ⟨rfl, rfl, rfl⟩
  · exact (resultsAfter_hostRead off _).of_same (htaken rest)
  · exact (resultsAfter_hostWrite hw).of_same (htaken rest)

/-! ### What a step does to the fault registers -/

/-- The cause an access gives FAULTINFO: the command word of a CMD write, else the offset (R43, R274, R281). -/
inductive CausedBy : HostEvent → Word → Prop
  | command (w : Word) : CausedBy (.write 0x010#12 w) w
  | read (off : Offset) : CausedBy (.read off) (zext off)
  | write (off : Offset) (v : Word) (h : off ≠ 0x010#12) : CausedBy (.write off v) (zext off)

/-- The ways an event can end for FAULT and FAULTINFO, a reset apart: they stay, take a fault with the event's cause, or
have bits cleared by a FAULT write. -/
inductive FaultsAfter (e : HostEvent) (s t : State) : Prop
  | same (h : SameFaults s t)
  | raised (info : Word) (hc : CausedBy e info) (h : RaisesFault info s t)
  | cleared (v : Word) (he : e = .write 0x01C#12 v) (hf : t.fault = s.fault &&& ~~~(v.extractLsb' 0 6))
      (hi : t.faultInfo = s.faultInfo)

theorem FaultsAfter.of_same {e : HostEvent} {s u t : State} (h : FaultsAfter e u t) (hu : SameFaults s u) :
    FaultsAfter e s t := by
  obtain ⟨hfault, hinfo⟩ := hu
  cases h with
  | same h => exact .same ⟨h.fault.trans hfault, h.faultInfo.trans hinfo⟩
  | raised info hc h =>
    rw [RaisesFault, hfault, hinfo] at h
    exact .raised info hc h
  | cleared v he hf hi => exact .cleared v he (hfault ▸ hf) (hi.trans hinfo)

theorem faultsAfter_hostRead (off : Offset) (s : State) : FaultsAfter (.read off) s (hostRead off s) := by
  rcases hostRead_cases off s with ⟨b, hb⟩ | hb <;> rw [hb]
  · exact .same ⟨rfl, rfl⟩
  · exact .raised _ (.read off) (raisesFault_busFault .busErr off s)

theorem faultsAfter_issueCommand {w : Word} {s t : State} (h : issueCommand w s = .next t) :
    FaultsAfter (.write 0x010#12 w) s t := by
  rcases issueCommand_cases w s with ⟨i, -, he⟩ | ⟨e, -, he⟩ <;> rw [he] at h
  · rcases (commandEnd_of_exec h).fault with ⟨hf, hi⟩ | hf
    · exact .same ⟨hf, hi⟩
    · exact .raised w (.command w) hf
  · cases h
    exact .raised w (.command w) (raisesFault_raiseFault .illegal w (s.recordCommand w))

theorem faultsAfter_hostWrite {off : Offset} {w : Word} {s t : State} (hr : resetsEngine s (.write off w) = false)
    (h : hostWrite off w s = .next t) : FaultsAfter (.write off w) s t := by
  by_cases hcmd : off = 0x010#12
  · subst hcmd
    exact (faultsAfter_issueCommand h).of_same ⟨rfl, rfl⟩
  rcases hostWrite_cases off w s with
    hc | hc | ⟨ha, hc⟩ | ⟨ha, hc⟩ | ⟨ha, hc⟩ | ⟨i, -, -, hc⟩ | ⟨r, i, -, -, hc⟩ <;> rw [hc] at h
  case inr.inr.inr.inl => exact absurd (offset_of_accessCell (n := 4) ha rfl) hcmd
  all_goals cases h
  · exact .raised _ (.write off w hcmd) (raisesFault_busFault .busErr off (s.setBus .writeDone))
  · exact .raised _ (.write off w hcmd) (raisesFault_busFault .range off (s.setBus .writeDone))
  · have hb : w.getLsbD 1 = false := by simpa [resetsEngine, offset_of_accessCell (n := 3) ha rfl] using hr
    rw [writeCtrl_fie hb]
    exact .same ⟨rfl, rfl⟩
  · exact .cleared w (by rw [offset_of_accessCell (n := 7) ha rfl]) rfl rfl
  all_goals exact .same ⟨rfl, rfl⟩

theorem faultsAfter_step {s t : State} {e : HostEvent} {rest : List HostEvent} (hp : s.pending = e :: rest)
    (hr : resetsEngine s e = false) (h : step s = .next t) : FaultsAfter e s t := by
  rcases step_next_cases h with ⟨hp', -⟩ | ⟨level, rest', hp', rfl⟩ | ⟨off, rest', hp', -, rfl⟩ |
    ⟨off, w, rest', hp', -, hw⟩ <;> rw [hp] at hp' <;> cases hp'
  · have hhigh : level = true ∧ (takeEvent rest s).rstN = true := by simpa [resetsEngine, takeEvent] using hr
    rw [drivePin_eq, if_pos hhigh]
    exact .same ⟨rfl, rfl⟩
  · exact (faultsAfter_hostRead off _).of_same ⟨rfl, rfl⟩
  · exact (faultsAfter_hostWrite (s := takeEvent rest s) hr hw).of_same ⟨rfl, rfl⟩

/-! ### The bytes of the window -/

theorem windowWord_congr {s t : State} {a : Nat}
    (h : ∀ cell, decodeOffset (BitVec.ofNat 12 (a / 4 * 4)) = some cell → readCell t cell = readCell s cell) :
    windowWord t a = windowWord s a := by
  unfold windowWord
  split
  · next cell hc => exact h cell hc
  · rfl

end Sys2Proof.Machine
end

section
/-! SUPPORT. The statements on the state and the host's accesses (spec/10_state.md), each from the lemmas above. -/

namespace Sys2Proof.Machine

open Sys2Proof

/-- Settles O22: a command ends with a legal STATUS, and nothing else but ILLEGAL and reset writes it. -/
theorem stepKeepsStatusLegal : Obligations.StepKeepsStatusLegal := by
  intro s t hs h
  cases resultsAfter_step h with
  | same hsame => rwa [hsame.status]
  | reset hsame =>
    rw [hsame.status]
    decide
  | command i u _ he => exact statusLegal_of_statusOfCommand (commandEnd_of_exec he).status
  | illegal w u _ ht =>
    subst ht
    show statusLegal statusFaulted = true
    decide

/-- Settles O23: a command writes the empty list, the entries of a locator's roots (at most 35, by the root bound), or
magnitudes only. -/
theorem stepKeepsErrorListLegal : Obligations.StepKeepsErrorListLegal := by
  intro s t hs h
  cases resultsAfter_step h with
  | same hsame => exact errListLegal_of_sameResults hs hsame
  | reset hsame => exact errListLegal_of_sameResults errListLegal_reset hsame
  | command i u hu he => exact (commandEnd_of_exec he).keeps_errListLegal (errListLegal_of_sameResults hs hu)
  | illegal w u hu ht =>
    rw [ht, raiseFault_eq]
    exact errListLegal_of_same hs hu.errCnt hu.errList

/-- Settles O13: the slot offsets are SYM+i and P<r>+i, and a word fits a slot exactly below 64. -/
theorem slotWriteStoresOrRaisesRange : Obligations.SlotWriteStoresOrRaisesRange := by
  intro s v rest hr
  refine ⟨fun i hp => ?_, fun r i hp => ?_⟩
  · rw [step_write hp hr]
    refine (hostWrite_sym i v _).trans (congrArg _ ?_)
    simp only [writeSym, fitsSlot_iff, extractLsb'_six_eq, busFault_range_taken]
    rfl
  · rw [step_write hp hr]
    refine (hostWrite_coeff r i v _).trans (congrArg _ ?_)
    simp only [writeCoeff, fitsSlot_iff, extractLsb'_six_eq, busFault_range_taken]
    rfl

/-- Settles O14: the write is `clearFault`, a bitwise mask. -/
theorem faultWriteClearsWrittenBits : Obligations.FaultWriteClearsWrittenBits := by
  intro s v rest hr hp
  rw [step_write hp hr, hostWrite_fault]
  refine ⟨_, rfl, rfl, fun i hi => ?_, irq_eq_true⟩
  simp [clearFault_eq, takeEvent, hi]

/-- Settles O16: both ends of a command leave a legal, non-zero STATUS. -/
theorem commandEndsInExactlyOneOutcome : Obligations.CommandEndsInExactlyOneOutcome :=
  fun _ _ _ h => (commandEnd_of_exec h).status

/-- Settles O18: an event that is no reset leaves FAULT, adds a bit, or is a FAULT write. -/
theorem faultBitsAreSticky : Obligations.FaultBitsAreSticky := by
  intro s t i h hs ht
  cases hp : s.pending with
  | nil =>
    rw [step_idle hp] at h
    cases h
    rw [hs] at ht
    cases ht
  | cons e rest =>
    refine ⟨e, rest, rfl, or_iff_not_imp_left.mpr fun hr => ?_⟩
    cases faultsAfter_step hp (Bool.eq_false_iff.mpr hr) h with
    | same hsame =>
      rw [hsame.fault, hs] at ht
      cases ht
    | raised info _ hraise =>
      obtain ⟨k, hf, -⟩ := hraise
      rw [hf, BitVec.getLsbD_or, hs] at ht
      cases ht
    | cleared v he hf =>
      refine ⟨v, he, ?_⟩
      have hi := BitVec.lt_of_getLsbD hs
      simpa [hf, hs, hi] using ht

/-- Settles O19: a raised fault leaves FAULT non-zero, so it is the first one exactly if FAULT was 0. -/
theorem faultInfoCapturesTheFirstFault : Obligations.FaultInfoCapturesTheFirstFault := by
  intro s t e rest hp hr h
  cases faultsAfter_step hp hr h with
  | same hsame => exact ⟨fun _ => hsame.faultInfo, fun hs ht => absurd (hsame.fault.trans hs) ht⟩
  | raised info hc hraise =>
    obtain ⟨k, hf, hi⟩ := hraise
    have ht : t.fault ≠ 0 := hf ▸ or_faultMask_ne_zero s.fault k
    refine ⟨fun hst => hi.trans (if_neg (hst.resolve_right ht)), fun hs _ => ?_⟩
    rw [if_pos hs] at hi
    cases hc with
    | command => exact .inl ⟨_, rfl, hi⟩
    | read off => exact .inr (.inl ⟨off, rfl, hi⟩)
    | write off v hne => exact .inr (.inr ⟨off, v, rfl, hne, hi⟩)
  | cleared v _ hf hi =>
    refine ⟨fun _ => hi, fun hs ht => absurd ?_ ht⟩
    rw [hf, hs]
    exact BitVec.zero_and

/-- Settles O20: every cell outside the command's rule reads as before, and a byte is a lane of its cell. -/
theorem commandLeavesOtherWindowBytes : Obligations.CommandLeavesOtherWindowBytes := by
  intro i s t a h hcells
  rw [windowByte, windowByte, windowWord_congr fun cell hc => (commandEnd_of_exec h).keeps_cell (hcells cell hc)]

/-- Settles O6: the write reaches CMD, and the word is no illegal one. -/
theorem cmdWriteExecutesTheDecodedCommand : Obligations.CmdWriteExecutesTheDecodedCommand := by
  intro s w i rest hr hp hd
  rw [step_write hp hr, hostWrite_cmd, issueCommand, runCommand, hd]
  rfl

/-- Settles O9: the write reaches CTRL, where bit 1 decides. -/
theorem ctrlWriteResetsOrSetsFie : Obligations.CtrlWriteResetsOrSetsFie := by
  intro s v rest hr hp
  rw [step_write hp hr, hostWrite_ctrl]
  refine ⟨fun h => ⟨_, rfl, ?_, ?_⟩, fun h => ⟨_, rfl, ?_, ?_⟩⟩
  · rw [writeCtrl_reset h, resetEngine_eq]
    simp [takeEvent, hr, State.reset]
  · rw [writeCtrl_reset h]; rfl
  · rw [writeCtrl_fie h]; rfl
  · rw [writeCtrl_fie h, irq_eq_true]; rfl

end Sys2Proof.Machine
end

section
/-! SUPPORT. What an access does at each offset of the map of R74: a read of a mapped cell, and the accesses that raise
BUSERR. -/

namespace Sys2Proof.Machine

open Sys2Proof

/-! ### Reads of mapped cells -/

/-- A read of a mapped offset answers with its cell and changes nothing but the bus fields (R76). -/
theorem readsAs_readCell {s : State} (hr : s.rstN = true) {off : Offset} {cell : WindowCell}
    (hc : accessCell off = some cell) : ReadsAs s off (readCell s cell) := by
  intro rest
  refine (step_read (s := { s with pending := .read off :: rest }) rfl hr).trans ?_
  rw [hostRead, hc]
  cases cell <;> rfl

/-- POS and MAG share no bit of an entry's word, so it is their sum with POS moved up by eight bits (R48). -/
theorem entryWord_eq_ofNat (e : ErrEntry) :
    entryWord e = BitVec.ofNat 32 (e.pos.toNat * 256 + e.mag.toNat) := by
  have hp := e.pos.isLt
  have hm := e.mag.isLt
  have hshift : e.pos.toNat <<< 8 % 2 ^ 32 = 2 ^ 8 * e.pos.toNat := by
    rw [Nat.shiftLeft_eq]
    omega
  apply BitVec.eq_of_toNat_eq
  rw [entryWord, BitVec.toNat_or, BitVec.toNat_shiftLeft, BitVec.toNat_setWidth_of_le (by decide),
    BitVec.toNat_setWidth_of_le (by decide), hshift, ← Nat.two_pow_add_eq_or_of_lt (by omega), BitVec.toNat_ofNat]
  omega

/-! ### Offsets that reach no cell -/

theorem accessCell_misaligned {off : Offset} (h : off.toNat % 4 ≠ 0) : accessCell off = none :=
  if_neg fun ha => h (toNat_mod_four_of_aligned ha)

/-- The unmapped rows of R74 lie in none of the four mapped ranges. -/
theorem accessCell_unmapped {off : Offset}
    (h : (0x02C ≤ off.toNat ∧ off.toNat < 0x100) ∨ (0x190 ≤ off.toNat ∧ off.toNat < 0x200) ∨
      (0x290 ≤ off.toNat ∧ off.toNat < 0x400) ∨
      (0x400 ≤ off.toNat ∧ off.toNat < 0xC00 ∧ 0x90 ≤ off.toNat % 0x100) ∨ 0xC00 ≤ off.toNat) :
    accessCell off = none := by
  have hreg : ¬ off.toNat < 0x02C := by omega
  have hsym : ¬ (0x100 ≤ off.toNat ∧ off.toNat < 0x190) := by omega
  have herr : ¬ (0x200 ≤ off.toNat ∧ off.toNat < 0x290) := by omega
  have hcoeff : ¬ ((0x400 ≤ off.toNat ∧ off.toNat < 0xC00) ∧ (off.toNat - 0x400) % 0x100 < 0x90) := by omega
  rw [accessCell, decodeOffset, if_neg hreg, dif_neg hsym, dif_neg herr, dif_neg hcoeff, ite_self]

/-! ### Cells that take no write -/

/-- The read-only rows of R74. -/
def WindowCell.isReadOnly : WindowCell → Bool
  | .id | .version | .config | .status | .result | .faultInfo | .errCnt | .cmdCount | .errEntry _ => true
  | .ctrl | .cmd | .fault | .sym _ | .coeff _ _ => false

/-- Check 3 of R75. -/
theorem writeCell_readOnly {cell : WindowCell} (h : cell.isReadOnly = true) (off : Offset) (w : Word) (s : State) :
    writeCell cell off w s = .next (busFault .busErr off s) := by
  cases cell with
  | ctrl | cmd | fault | sym | coeff => cases h
  | _ => rfl

/-- An access at the offset reaches no cell that takes a write: it reaches none, or a read-only one. -/
def takesNoWrite (off : Offset) : Bool := (accessCell off).all WindowCell.isReadOnly

theorem takesNoWrite_of_none {off : Offset} (h : accessCell off = none) : takesNoWrite off = true := by
  rw [takesNoWrite, h, Option.all_none]

theorem takesNoWrite_register {off : Offset}
    (h : off ∈ [0x000#12, 0x004#12, 0x008#12, 0x014#12, 0x018#12, 0x020#12, 0x024#12, 0x028#12]) :
    takesNoWrite off = true := by
  revert off
  decide

/-- The slots of the error list are read-only (R48). -/
theorem takesNoWrite_errEntry {off : Offset} (h : ∃ j : Fin 36, off.toNat = 0x200 + 4 * j.val) :
    takesNoWrite off = true := by
  obtain ⟨j, hj⟩ := h
  have hoff : off = errOffset j := by rw [errOffset, ← hj, BitVec.ofNat_toNat, BitVec.setWidth_eq]
  rw [takesNoWrite, hoff, accessCell_errOffset, Option.all_some, WindowCell.isReadOnly]

/-- Checks 1 to 3 of R75. -/
theorem hostWrite_busErr {off : Offset} (h : takesNoWrite off = true) (w : Word) (s : State) :
    hostWrite off w s = .next (busFault .busErr off (s.setBus .writeDone)) := by
  rw [takesNoWrite] at h
  rw [hostWrite]
  cases hc : accessCell off with
  | none => rfl
  | some cell =>
    rw [hc, Option.all_some] at h
    exact writeCell_readOnly h off w _

/-! ### Accesses that raise BUSERR -/

theorem hostRead_busErr {off : Offset} (h : accessCell off = none) (s : State) :
    hostRead off s = (busFault .busErr off s).setBus (.readDone 0) := by
  rw [hostRead, h]

/-- A read that reaches no cell (R75, R281). -/
theorem step_read_busErr {s : State} {off : Offset} {rest : List HostEvent} (hr : s.rstN = true)
    (hp : s.pending = .read off :: rest) (hc : accessCell off = none) :
    step s = .next { BusFaultedState 0b100000#6 off s with bus := .readDone 0, pending := rest } := by
  rw [step_read hp hr, hostRead_busErr hc, busFault_eq]
  rfl

/-- A write that reaches no cell, or one that takes no write (R75, R281). -/
theorem step_write_busErr {s : State} {off : Offset} {v : Word} {rest : List HostEvent} (hr : s.rstN = true)
    (hp : s.pending = .write off v :: rest) (hc : takesNoWrite off = true) :
    step s = .next { BusFaultedState 0b100000#6 off s with bus := .writeDone, pending := rest } := by
  rw [step_write hp hr, hostWrite_busErr hc, busFault_eq]
  rfl

end Sys2Proof.Machine
end

section
/-! SUPPORT. The statements on the host window (spec/20_memory.md), each from the lemmas above. -/

namespace Sys2Proof.Machine

open Sys2Proof

/-- Settles O11: each offset reaches its cell, and a read answers with the cell. -/
theorem mappedReadsReturnTheCell : Obligations.MappedReadsReturnTheCell := by
  intro s hr
  have reads {off : Offset} {cell : WindowCell} (hc : accessCell off = some cell) := readsAs_readCell hr hc
  refine ⟨reads (cell := .id) rfl, reads (cell := .version) rfl, reads (cell := .config) rfl,
    reads (cell := .ctrl) rfl, reads (cell := .cmd) rfl, reads (cell := .status) rfl, reads (cell := .result) rfl,
    reads (cell := .fault) rfl, reads (cell := .faultInfo) rfl, reads (cell := .errCnt) rfl,
    reads (cell := .cmdCount) rfl, fun i => reads (accessCell_symOffset i), fun j => ?_,
    fun r i => reads (accessCell_coeffOffset r i)⟩
  exact entryWord_eq_ofNat s.errList[j] ▸ reads (accessCell_errOffset j)

/-- Settles O12: a bad offset reaches no cell, and a read-only cell takes no write. -/
theorem badAccessRaisesBusErr : Obligations.BadAccessRaisesBusErr := by
  intro s off rest hr
  refine ⟨fun hbad => ?_, fun hro v hp =>
    step_write_busErr hr hp (hro.elim takesNoWrite_register takesNoWrite_errEntry)⟩
  have hc : accessCell off = none := hbad.elim accessCell_misaligned accessCell_unmapped
  exact ⟨fun hp => step_read_busErr hr hp hc, fun v hp => step_write_busErr hr hp (takesNoWrite_of_none hc)⟩

end Sys2Proof.Machine
end

section
/-! SUPPORT. Bit fields put into a command word and read back (spec/30_encoding.md R103 to R107). -/

namespace Sys2Proof

/-! ### Fields of a word -/

theorem getLsbD_place {n : Nat} (v : BitVec n) (lo : Nat) {i : Nat} (h : i < 32) :
    (place v lo).getLsbD i = (decide (lo ≤ i) && v.getLsbD (i - lo)) := by
  have hi : i - lo < 32 := by omega
  simp only [place, BitVec.getLsbD_shiftLeft, BitVec.getLsbD_setWidth, h, hi, ← decide_not, Nat.not_lt, decide_true,
    Bool.true_and]

/-- A field reads back from its place. -/
theorem extractLsb'_place {n : Nat} (v : BitVec n) (lo : Nat) (h : lo + n ≤ 32) :
    (place v lo).extractLsb' lo n = v := by
  apply BitVec.eq_of_getLsbD_eq
  intro i hi
  rw [BitVec.getLsbD_extractLsb', getLsbD_place v lo (by omega)]
  simp [hi]

/-- A field is not seen from bits that its place does not reach. -/
theorem extractLsb'_place_disjoint {n : Nat} (v : BitVec n) (lo start len : Nat) (hlen : start + len ≤ 32)
    (h : start + len ≤ lo ∨ lo + n ≤ start) : (place v lo).extractLsb' start len = 0#len := by
  apply BitVec.eq_of_getLsbD_eq
  intro i hi
  rw [BitVec.getLsbD_extractLsb', getLsbD_place v lo (by omega)]
  rcases h with h | h
  · simp [show ¬ lo ≤ start + i by omega]
  · simp [BitVec.getLsbD_of_ge v (start + i - lo) (by omega)]

/-- A mask that is 0 in a field's place clears the field. -/
theorem place_and_eq_zero {n : Nat} (v : BitVec n) (lo : Nat) {m : Word} (h : m.extractLsb' lo n = 0#n) :
    place v lo &&& m = 0#32 := by
  apply BitVec.eq_of_getLsbD_eq
  intro i hi
  rw [BitVec.getLsbD_and, getLsbD_place v lo hi]
  by_cases hlo : lo ≤ i
  · have hm : i - lo < n → m.getLsbD i = false := by
      simpa [Nat.add_sub_cancel' hlo] using congrArg (·.getLsbD (i - lo)) h
    by_cases hn : i - lo < n
    · simp [hm hn]
    · simp [BitVec.getLsbD_of_ge v (i - lo) (Nat.not_lt.mp hn)]
  · simp [hlo]

/-- A field of a word, put back in its place, is what a mask keeps of the word. -/
theorem place_extractLsb' (w : Word) (lo n : Nat) :
    place (w.extractLsb' lo n) lo = w &&& place (BitVec.allOnes n) lo := by
  apply BitVec.eq_of_getLsbD_eq
  intro i hi
  rw [BitVec.getLsbD_and, getLsbD_place _ lo hi, getLsbD_place _ lo hi, BitVec.getLsbD_extractLsb',
    BitVec.getLsbD_allOnes]
  by_cases hlo : lo ≤ i
  · simp [hlo, Nat.add_sub_cancel' hlo, Bool.and_comm]
  · simp [hlo]

/-! ### The operands of a command as bits (R107) -/

theorem toFin_eq_iff {n : Nat} {v : BitVec n} {r : Fin (2 ^ n)} : v.toFin = r ↔ v = BitVec.ofNat n r.val := by
  rw [← BitVec.toNat_inj, BitVec.toNat_ofNat, Nat.mod_eq_of_lt r.isLt, Fin.ext_iff, BitVec.val_toFin]

theorem fieldE_eq_iff {w : Word} {e : Exponent} : fieldE w = e ↔ w.extractLsb' 0 8 = BitVec.ofNat 8 e.val :=
  toFin_eq_iff (n := 8)
theorem fieldRD_eq_iff {w : Word} {r : RegNo} : fieldRD w = r ↔ w.extractLsb' 21 3 = regBits r := toFin_eq_iff (n := 3)
theorem fieldRA_eq_iff {w : Word} {r : RegNo} : fieldRA w = r ↔ w.extractLsb' 18 3 = regBits r := toFin_eq_iff (n := 3)
theorem fieldRB_eq_iff {w : Word} {r : RegNo} : fieldRB w = r ↔ w.extractLsb' 15 3 = regBits r := toFin_eq_iff (n := 3)
theorem fieldIdx_eq_iff {w : Word} {i : CoeffIdx} : fieldIdx w = i ↔ w.extractLsb' 6 6 = idxBits i :=
  toFin_eq_iff (n := 6)

/-- CODE names a code exactly when its two bits are that code's (R106). -/
theorem fieldCode_eq_some_iff {w : Word} {c : Code} : fieldCode w = some c ↔ w.extractLsb' 24 2 = codeBits c := by
  rw [fieldCode]
  generalize w.extractLsb' 24 2 = v
  cases c <;> revert v <;> decide

/-- The one reserved value of CODE is 3 (R106). -/
theorem fieldCode_isSome_iff {w : Word} : (fieldCode w).isSome ↔ w.extractLsb' 24 2 ≠ 3#2 := by
  rw [fieldCode]
  generalize w.extractLsb' 24 2 = v
  revert v
  decide

end Sys2Proof
end

section
/-! SUPPORT. The table of R109 seen from a word (the row it selects) and from a command (the row it is encoded by): the
decoder and the encoder are inverse to each other. -/

namespace Sys2Proof

/-! ### The row a word selects (R100, R109) -/

/-- A word selects a row of the table when its fixed bits are the row's match. -/
abbrev OpRow.Selects (row : OpRow) (w : Word) : Prop := w &&& row.maskBits = row.matchBits

/-- A row's match holds its opcode, all of which its mask fixes. -/
theorem opTable_fixes_opcode :
    ∀ row ∈ opTable, fieldOp row.maskBits = BitVec.allOnes 6 ∧ fieldOp row.matchBits = row.opcode := by decide

theorem opTable_opcodes_nodup : (opTable.map (·.opcode)).Nodup := by decide

theorem OpRow.Selects.opcode_eq {row : OpRow} {w : Word} (hrow : row ∈ opTable) (h : row.Selects w) :
    row.opcode = fieldOp w := by
  obtain ⟨hmask, hmatch⟩ := opTable_fixes_opcode row hrow
  have hop : fieldOp w &&& fieldOp row.maskBits = fieldOp row.matchBits :=
    BitVec.extractLsb'_and.symm.trans (congrArg fieldOp h)
  rw [← hmatch, ← hop, hmask, BitVec.and_allOnes]

/-- The row found by opcode is the row selected, since opcodes differ. -/
theorem find?_opcode_of_selects {row : OpRow} {w : Word} (hrow : row ∈ opTable) (h : row.Selects w) :
    opTable.find? (fun r => r.opcode == fieldOp w) = some row := by
  cases hf : opTable.find? (fun r => r.opcode == fieldOp w) with
  | none => exact absurd (beq_iff_eq.mpr (h.opcode_eq hrow)) (List.find?_eq_none.mp hf row hrow)
  | some r =>
    have hop : r.opcode = fieldOp w := beq_iff_eq.mp (List.find?_some (p := fun r : OpRow => r.opcode == fieldOp w) hf)
    rw [List.inj_on_of_nodup_map opTable_opcodes_nodup (List.mem_of_find?_eq_some hf) hrow
      (hop.trans (h.opcode_eq hrow).symm)]

/-- A word decodes to a command exactly when it selects a row whose fields build that command. -/
theorem decode_eq_ok_iff {w : Word} {i : Instr} :
    decode w = .ok i ↔ ∃ row ∈ opTable, row.Selects w ∧ row.build w = some i := by
  constructor
  · intro h
    rw [decode] at h
    split at h
    · cases h
    · next row hf =>
      split at h
      · cases h
      · next hsel =>
        split at h
        · cases h
        · next hb =>
          cases h
          exact ⟨row, List.mem_of_find?_eq_some hf, not_not.mp hsel, hb⟩
  · rintro ⟨row, hrow, hsel, hb⟩
    rw [decode, find?_opcode_of_selects hrow hsel]
    exact (if_neg (not_not.mpr hsel)).trans (by rw [hb])

/-! ### The row of a command -/

/-- The number of a command's row in the table. -/
def rowIndex : Instr → Fin 21
  | .nop => 0
  | .gfAdd _ _ => 1
  | .gfMul _ _ => 2
  | .gfDiv _ _ => 3
  | .gfInv _ => 4
  | .gfLog _ => 5
  | .gfExp _ => 6
  | .gfIsz _ => 7
  | .polyClr _ => 8
  | .polyAdd _ _ _ => 9
  | .polyMul _ _ _ => 10
  | .polyEval _ _ => 11
  | .polyDeg _ => 12
  | .polyGetc _ _ => 13
  | .polySetc _ _ _ => 14
  | .rsEnc _ => 15
  | .rsDec _ => 16
  | .rsSynd _ _ => 17
  | .rsElp _ _ _ => 18
  | .rsChien _ => 19
  | .rsForney _ _ _ => 20

/-- Row `k` of the table, counted from 0. -/
def tableRow (k : Fin 21) : OpRow := opTable[k]

/-- The row of R109 that a command is encoded by. -/
def rowOf (i : Instr) : OpRow := tableRow (rowIndex i)

theorem rowOf_mem (i : Instr) : rowOf i ∈ opTable := List.getElem_mem _

/-- A row builds only commands that are encoded by it. -/
theorem rowOf_of_build {row : OpRow} (hrow : row ∈ opTable) {w : Word} {i : Instr} (hb : row.build w = some i) :
    rowOf i = row := by
  revert i row
  simp only [opTable, List.cons_append, List.nil_append, List.forall_mem_cons, List.not_mem_nil, false_imp_iff,
    implies_true, and_true, Option.map_eq_some_iff, Option.some.injEq, forall_exists_index, and_imp, forall_eq',
    forall_apply_eq_imp_iff₂]
  and_intros
  all_goals intros; rfl

/-- The fields of the word hold the operands of the command (R103 to R107). -/
def HoldsOperands (w : Word) : Instr → Prop
  | .nop => True
  | .gfAdd a b | .gfMul a b | .gfDiv a b => w.extractLsb' 6 6 = a ∧ w.extractLsb' 0 6 = b
  | .gfInv a | .gfLog a | .gfIsz a => w.extractLsb' 6 6 = a
  | .gfExp e => w.extractLsb' 0 8 = BitVec.ofNat 8 e.val
  | .polyClr rd => w.extractLsb' 21 3 = regBits rd
  | .polyAdd rd ra rb | .polyMul rd ra rb =>
    w.extractLsb' 21 3 = regBits rd ∧ w.extractLsb' 18 3 = regBits ra ∧ w.extractLsb' 15 3 = regBits rb
  | .polyEval ra val => w.extractLsb' 18 3 = regBits ra ∧ w.extractLsb' 0 6 = val
  | .polyDeg ra | .rsChien ra => w.extractLsb' 18 3 = regBits ra
  | .polyGetc ra idx => w.extractLsb' 18 3 = regBits ra ∧ w.extractLsb' 6 6 = idxBits idx
  | .polySetc rd idx val =>
    w.extractLsb' 21 3 = regBits rd ∧ w.extractLsb' 6 6 = idxBits idx ∧ w.extractLsb' 0 6 = val
  | .rsEnc c | .rsDec c => w.extractLsb' 24 2 = codeBits c
  | .rsSynd c rd => w.extractLsb' 24 2 = codeBits c ∧ w.extractLsb' 21 3 = regBits rd
  | .rsElp c rd ra =>
    w.extractLsb' 24 2 = codeBits c ∧ w.extractLsb' 21 3 = regBits rd ∧ w.extractLsb' 18 3 = regBits ra
  | .rsForney c ra rb =>
    w.extractLsb' 24 2 = codeBits c ∧ w.extractLsb' 18 3 = regBits ra ∧ w.extractLsb' 15 3 = regBits rb

/-- A command's row reads its operands from their fields. -/
theorem rowOf_build_iff {w : Word} {i : Instr} : (rowOf i).build w = some i ↔ HoldsOperands w i := by
  cases i with
  | nop => exact iff_of_true rfl trivial
  | _ =>
    simp [HoldsOperands, rowOf, rowIndex, tableRow, opTable, fieldA, fieldB, fieldE_eq_iff, fieldRD_eq_iff,
      fieldRA_eq_iff, fieldRB_eq_iff, fieldIdx_eq_iff, fieldCode_eq_some_iff]

/-- A word decodes to a command exactly when it selects the command's row and its fields hold the operands (R100). -/
theorem decode_eq_ok_iff_holdsOperands {w : Word} {i : Instr} :
    decode w = .ok i ↔ (rowOf i).Selects w ∧ HoldsOperands w i := by
  rw [decode_eq_ok_iff, ← rowOf_build_iff]
  constructor
  · rintro ⟨row, hrow, hsel, hb⟩
    rw [rowOf_of_build hrow hb]
    exact ⟨hsel, hb⟩
  · rintro ⟨hsel, hb⟩
    exact ⟨rowOf i, rowOf_mem i, hsel, hb⟩

/-! ### The word of a command -/

/-- A field that the mask leaves free does not change the row selected. -/
theorem OpRow.Selects.or_place {row : OpRow} {x : Word} (h : row.Selects x) {n lo : Nat} {v : BitVec n}
    (hm : row.maskBits.extractLsb' lo n = 0#n) : row.Selects (x ||| place v lo) := by
  rw [OpRow.Selects, BitVec.and_or_distrib_right, place_and_eq_zero v lo hm, BitVec.or_zero]
  exact h

/-- A command's operands fall on bits its row's mask leaves free. -/
theorem rowOf_selects_encode (i : Instr) : (rowOf i).Selects (encode i) := by
  cases i
  all_goals
    simp only [encode, rowOf, rowIndex]
    repeat refine OpRow.Selects.or_place ?_ (by decide)
    decide

/-- A command's operands stand in fields that do not overlap. -/
theorem holdsOperands_encode (i : Instr) : HoldsOperands (encode i) i := by
  cases i with
  | nop => trivial
  | _ =>
    simp (disch := decide) [HoldsOperands, encode, BitVec.extractLsb'_or, extractLsb'_place, extractLsb'_place_disjoint]

/-- Two masks that cover the word together lose no bit of it. -/
theorem or_and_eq_self {w m c x : Word} (h : w &&& m = c) (hx : m ||| x = BitVec.allOnes 32) : c ||| w &&& x = w := by
  rw [← h, ← BitVec.and_or_distrib_left, hx, BitVec.and_allOnes]

/-- The fixed bits of a word that selects a command's row, and the fields of its operands, make up the word. -/
theorem encode_eq_self {w : Word} {i : Instr} (hsel : (rowOf i).Selects w) (hops : HoldsOperands w i) :
    encode i = w := by
  cases i with
  | nop => exact hsel.symm.trans BitVec.and_allOnes
  | _ =>
    simp only [HoldsOperands] at hops
    simp only [rowOf, rowIndex] at hsel
    simp only [encode, ← hops, place_extractLsb', BitVec.or_assoc, ← BitVec.and_or_distrib_left]
    exact or_and_eq_self hsel (by decide)

/-- The decoder reads a command back from its word. -/
theorem decode_encode (i : Instr) : decode (encode i) = .ok i :=
  decode_eq_ok_iff_holdsOperands.mpr ⟨rowOf_selects_encode i, holdsOperands_encode i⟩

/-- The encoder gives a legal word back from its command. -/
theorem encode_of_decode {w : Word} {i : Instr} (h : decode w = .ok i) : encode i = w :=
  have ⟨hsel, hops⟩ := decode_eq_ok_iff_holdsOperands.mp h
  encode_eq_self hsel hops

/-! ### The legal words -/

/-- The row's command has a CODE field (format C, R106): its mask leaves bits [25:24] free. -/
def OpRow.hasCode (row : OpRow) : Bool := row.maskBits.extractLsb' 24 2 == 0#2

/-- The fields of a row give a command unless its CODE field is reserved. -/
theorem build_isSome {row : OpRow} (hrow : row ∈ opTable) (w : Word) :
    (row.build w).isSome = (!row.hasCode || (fieldCode w).isSome) := by
  revert row
  simp only [opTable, List.cons_append, List.nil_append, List.forall_mem_cons, List.not_mem_nil, false_imp_iff,
    implies_true, and_true, Option.isSome_some, Option.isSome_map]
  and_intros
  all_goals rfl

theorem build_isSome_iff {row : OpRow} (hrow : row ∈ opTable) (w : Word) :
    (row.build w).isSome ↔ (row.hasCode = true → w.extractLsb' 24 2 ≠ 3#2) := by
  rw [build_isSome hrow, ← fieldCode_isSome_iff]
  cases row.hasCode <;> simp

/-- A word is legal exactly when it selects a row, with no reserved code (R100, R111). -/
theorem exists_decode_iff (w : Word) :
    (∃ i, decode w = .ok i) ↔
      ∃ row ∈ opTable, row.Selects w ∧ (row.hasCode = true → w.extractLsb' 24 2 ≠ 3#2) := by
  simp only [decode_eq_ok_iff]
  constructor
  · rintro ⟨i, row, hrow, hsel, hb⟩
    exact ⟨row, hrow, hsel, (build_isSome_iff hrow w).mp (Option.isSome_of_eq_some hb)⟩
  · rintro ⟨row, hrow, hsel, hc⟩
    obtain ⟨i, hb⟩ := Option.isSome_iff_exists.mp ((build_isSome_iff hrow w).mpr hc)
    exact ⟨i, row, hrow, hsel, hb⟩

end Sys2Proof
end

section
/-! SUPPORT. The assembler on the written form of a command (spec/30_encoding.md R114). -/

namespace Sys2Proof.Machine

open Sys2Proof

/-! ### Operands are in range and read back -/

@[simp] theorem wellFormed_ofElem (v : Elem) : (ElemLit.ofElem v).wellFormed = true :=
  decide_eq_true (Nat.le_of_lt_succ v.isLt)
@[simp] theorem regWellFormed_val (r : RegNo) : regWellFormed r.val = true := decide_eq_true (Nat.le_of_lt_succ r.isLt)
@[simp] theorem idxWellFormed_val (i : CoeffIdx) : idxWellFormed i.val = true := decide_eq_true (Nat.le_of_lt_succ i.isLt)
@[simp] theorem expWellFormed_val (e : Exponent) : expWellFormed e.val = true := decide_eq_true (Nat.le_of_lt_succ e.isLt)

@[simp] theorem elemOf_ofElem (v : Elem) : elemOf (.ofElem v) = v := BitVec.ofNat_toNat 6 v
@[simp] theorem regOf_val (r : RegNo) : regOf r.val = r := Fin.ext (Nat.mod_eq_of_lt r.isLt)
@[simp] theorem idxOf_val (i : CoeffIdx) : idxOf i.val = i := Fin.ext (Nat.mod_eq_of_lt i.isLt)
@[simp] theorem exponentOf_val (e : Exponent) : exponentOf e.val = e := Fin.ext (Nat.mod_eq_of_lt e.isLt)

/-! ### The written form of every command -/

/-- Every command is well formed: its operand types have no other values (R107). -/
theorem wellFormed_instr (i : Instr) : i.wellFormed = true := by
  cases i with
  | nop | rsEnc | rsDec => rfl
  | _ => simp [Instr.wellFormed, Asm.ofInstr, Asm.wellFormed]

theorem expand_ofInstr (i : Instr) : expand (.ofInstr i) = i := by
  cases i with
  | nop | rsEnc | rsDec => rfl
  | _ => simp [Asm.ofInstr, expand]

theorem assemble_ofInstr (i : Instr) : assemble (.ofInstr i) = some (encode i) := by
  rw [assemble, if_pos (show (Asm.ofInstr i).wellFormed = true from wellFormed_instr i), expand_ofInstr]

/-- Written commands with one check and one expansion have one word. -/
theorem assemble_congr {a b : Asm} (hwf : a.wellFormed = b.wellFormed) (he : expand a = expand b) :
    assemble a = assemble b := by
  rw [assemble, assemble, hwf, he]

end Sys2Proof.Machine
end

section
/-! SUPPORT. The statements on the encoding (spec/30_encoding.md), each from the lemmas above. -/

namespace Sys2Proof.Machine

open Sys2Proof

/-- Settles O1: the word of a command selects its row, and its fields hold the operands. -/
theorem decodeOfEncodeIsTheCommand : Obligations.DecodeOfEncodeIsTheCommand :=
  fun i => ⟨wellFormed_instr i, decode_encode i⟩

/-- Settles O2: the row's fixed bits and the operands' fields cover the word. -/
theorem encodeOfDecodeIsTheWord : Obligations.EncodeOfDecodeIsTheWord :=
  fun _ _ => encode_of_decode

/-- Settles O3: the 21 rows are those of the model's table. -/
theorem legalWordsAreThoseOfTheTable : Obligations.LegalWordsAreThoseOfTheTable := by
  intro w
  rw [exists_decode_iff]
  change _ ↔ ∃ row ∈ opTable.map fun r => (r.matchBits, r.maskBits, r.hasCode), _
  simp only [List.mem_map, exists_exists_and_eq_and, OpRow.Selects]

/-- Settles O5: the written form expands back to its command, and each pseudo-command expands to what its expansion
does, with the same check of its operands. -/
theorem assemblerEmitsAndExpands : Obligations.AssemblerEmitsAndExpands := by
  refine ⟨assemble_ofInstr, fun a b => ?_, fun a => ?_, fun a => ?_, ?_, fun rd => ?_, fun rd ra => ?_⟩
  · exact assemble_congr rfl rfl
  · exact assemble_congr (Bool.and_true _).symm rfl
  · exact assemble_congr (Bool.and_self _).symm rfl
  · exact assemble_congr rfl rfl
  · exact assemble_congr rfl rfl
  · refine assemble_congr ?_ rfl
    simp [Asm.wellFormed]

/-- Settles O7: the write reaches CMD, and an illegal word is no command. -/
theorem illegalWordRaisesIllegal : Obligations.IllegalWordRaisesIllegal := by
  intro s w e rest hr hp hd
  rw [step_write hp hr, hostWrite_cmd, issueCommand, runCommand, hd]
  exact congrArg _ (raiseFault_eq .illegal w _)

end Sys2Proof.Machine
end

section
/-! SUPPORT. What the field's statements need besides the laws above: the table LOG on the non-zero elements, EXP as the
powers of alpha, and the product as the reduced product of polynomials over GF(2) (spec/40_gf.md R130 to R137). -/

namespace Sys2Proof.Machine

open Sys2Proof

/-! ### The tables (R131, R132, R136) -/

theorem gfLog_lt : ∀ v : Elem, v ≠ 0 → gfLog v < 63 := by decide +kernel

theorem gfExp_gfLog : ∀ v : Elem, v ≠ 0 → gfExp (gfLog v) = v := by decide +kernel

/-- One turn of R131's loop leads to the next entry of EXP, and from the last one back to the first. -/
theorem timesAlpha_gfExp : ∀ i < 63, timesAlpha (gfExp i) = gfExp ((i + 1) % 63) := by decide +kernel

/-- `alpha^n` is 1 multiplied by alpha n times, since the exponents count modulo 63. -/
theorem alphaPow_eq_iterate (n : Nat) : alphaPow n = timesAlpha^[n] 1 := by
  induction n with
  | zero => decide +kernel
  | succ n ih =>
    rw [Function.iterate_succ_apply', ← ih, alphaPow, alphaPow, Config.order,
      timesAlpha_gfExp _ (Nat.mod_lt n (by decide)), Nat.mod_add_mod]

/-! ### Inverse and quotient (R135) -/

theorem gfMul_gfInv {a : Elem} (ha : a ≠ 0) : gfMul a (gfInv a) = 1 := by
  have h := gfMul_gfInvOrZero a ha
  rwa [gfInvOrZero, if_neg ha] at h

theorem gfMul_gfInv_cancel (a : Elem) {b : Elem} (hb : b ≠ 0) : gfMul (gfMul a (gfInv b)) b = a := by
  rw [gfMul_assoc, gfMul_comm (gfInv b), gfMul_gfInv hb, gfMul_one]

/-! ### The product of polynomials over GF(2) (R130) -/

/-- One turn of the reduction: bit 11 - i is cleared by FIELD_POLY moved to it. -/
def clearBit (acc : BitVec 12) (i : Nat) : BitVec 12 :=
  if acc.getLsbD (11 - i) then acc ^^^ (Config.fieldPoly.setWidth 12 <<< (5 - i)) else acc

theorem gf2Reduce_eq_foldl (v : BitVec 12) : gf2Reduce v = ((List.range 6).foldl clearBit v).setWidth 6 := rfl

theorem clearBit_xor (v w : BitVec 12) (i : Nat) : clearBit (v ^^^ w) i = clearBit v i ^^^ clearBit w i := by
  simp only [clearBit, BitVec.getLsbD_xor]
  generalize Config.fieldPoly.setWidth 12 <<< (5 - i) = c
  cases v.getLsbD (11 - i) <;> cases w.getLsbD (11 - i)
  · rfl
  · exact BitVec.xor_assoc v w c
  · show v ^^^ w ^^^ c = v ^^^ c ^^^ w
    ac_rfl
  · show v ^^^ w = v ^^^ c ^^^ (w ^^^ c)
    rw [BitVec.xor_assoc v c, BitVec.xor_comm w c, ← BitVec.xor_assoc c, BitVec.xor_self, BitVec.zero_xor]

theorem foldl_clearBit_xor (l : List Nat) (v w : BitVec 12) :
    l.foldl clearBit (v ^^^ w) = l.foldl clearBit v ^^^ l.foldl clearBit w := by
  induction l generalizing v w with
  | nil => rfl
  | cons i l ih => rw [List.foldl_cons, clearBit_xor, ih, List.foldl_cons, List.foldl_cons]

/-- Reduction modulo FIELD_POLY is linear. -/
theorem gf2Reduce_xor (v w : BitVec 12) : gf2Reduce (v ^^^ w) = gfAdd (gf2Reduce v) (gf2Reduce w) := by
  rw [gf2Reduce_eq_foldl, foldl_clearBit_xor, BitVec.setWidth_xor]
  rfl

/-- So the reduced product is the sum of the reduced products by the bits of the second factor. -/
theorem gf2Reduce_gf2Product (a b : Elem) :
    gf2Reduce (gf2Product a b) = gfSum 6 fun i => if b.getLsbD i then gf2Reduce (a.setWidth 12 <<< i) else 0 := by
  refine (List.foldl_hom gf2Reduce fun v i => ?_).symm
  beta_reduce
  split
  · rw [gf2Reduce_xor]
  · exact BitVec.xor_zero

/-- The engine's product by the element of one bit is the shifted polynomial, reduced. -/
theorem gfMul_shiftLeft_one : ∀ a : Elem, ∀ i < 6, gfMul a (1#6 <<< i) = gf2Reduce (a.setWidth 12 <<< i) := by
  decide +kernel

theorem gfMul_eq_gf2Reduce (a b : Elem) : gfMul a b = gf2Reduce (gf2Product a b) := by
  rw [gfMul_eq_gfSum_bits, gf2Reduce_gf2Product]
  exact gfSum_congr fun i hi => by rw [gfMul_shiftLeft_one a i hi]

end Sys2Proof.Machine
end

section
/-! SUPPORT. The words and the outcomes of the GF commands (spec/40_gf.md R140 to R146). -/

namespace Sys2Proof.Machine

open Sys2Proof

theorem or_place_zero (w : Word) {n : Nat} (v : BitVec n) : w ||| place v 0 = w ||| zext v := by
  rw [place, BitVec.shiftLeft_zero]

theorem decode_of_encode {i : Instr} {w : Word} (h : encode i = w) : decode w = .ok i := h ▸ decode_encode i

theorem zext_exponent (e : Exponent) : zext (BitVec.ofNat 8 e.val) = BitVec.ofNat 32 e.val :=
  BitVec.setWidth_ofNat_of_le_of_lt (by decide) e.isLt

/-- A command that finds its operand zero ends with a fault (R142, R144, R145, R272). -/
theorem next_commandFault {c : Prop} [Decidable c] (h : c) (k : FaultKind) (s u : State) :
    (.next (if c then commandFault k s else u) : Host.Outcome State Fault Refusal) =
      .next (FaultedState (faultMask k) s) := by
  rw [if_pos h, commandFault_eq]

/-- A command that does not fault writes its RESULT and reports OK (R275). -/
theorem next_okWith {c : Prop} [Decidable c] (h : ¬ c) (k : FaultKind) (w : Word) (s : State) :
    (.next (if c then commandFault k s else okWith w s) : Host.Outcome State Fault Refusal) =
      .next { s with result := w, status := statusOk } := by
  rw [if_neg h, okWith_eq]

end Sys2Proof.Machine
end

section
/-! SUPPORT. The statements on the field and the GF commands (spec/40_gf.md), each from the lemmas above. -/

namespace Sys2Proof.Machine

open Sys2Proof

/-- Settles O27: multiplication adds logarithms, and both products are linear in the bits of the second factor. -/
theorem fieldLaws : Obligations.FieldLaws :=
  ⟨BitVec.xor_comm, BitVec.xor_assoc, fun _ => BitVec.xor_zero, fun _ => BitVec.xor_self, gfMul_comm, gfMul_assoc,
    gfMul_one, gfMul_zero_right, gfMul_gfAdd, fun _ => gfMul_gfInv, by decide +kernel, gfMul_eq_gf2Reduce⟩

/-- Settles O30: the zero check decides, and the inverse cancels. -/
theorem divisionInvertsOrRaisesDivZero : Obligations.DivisionInvertsOrRaisesDivZero := by
  intro a b s
  refine ⟨or_place_zero _ b, rfl, fun hb => ?_, fun hb => ⟨gfMul_gfInv_cancel a hb, ?_⟩, fun ha => ?_,
    fun ha => ⟨gfMul_gfInv ha, ?_⟩⟩
  · exact next_commandFault hb .divZero s _
  · exact next_okWith hb .divZero _ s
  · exact next_commandFault ha .divZero s _
  · exact next_okWith ha .divZero _ s

/-- Settles O4: nine words are their commands' encodings; the other three fail one check of R100 each. -/
theorem exampleWordsDecode : Obligations.ExampleWordsDecode :=
  ⟨decode_of_encode rfl, decode_of_encode rfl, decode_of_encode rfl, decode_of_encode rfl, decode_of_encode rfl,
    decode_of_encode rfl, decode_of_encode rfl, decode_of_encode rfl, decode_of_encode rfl, by decide, by decide, by decide⟩

/-- Settles O26: each table undoes the other, entry by entry. -/
theorem logAndExpAreInverse : Obligations.LogAndExpAreInverse :=
  ⟨fun v hv => ⟨gfLog_lt v hv, gfExp_gfLog v hv⟩, fun i hi => ⟨gfExp_ne_zero i hi, gfLog_gfExp i hi⟩⟩

/-- Settles O28: the field's sum is the exclusive or. -/
theorem gfAddXorsItsOperands : Obligations.GfAddXorsItsOperands :=
  fun _ b _ => ⟨or_place_zero _ b, rfl⟩

/-- Settles O29: the product is zero-extended in both of its cases. -/
theorem gfMulAddsLogs : Obligations.GfMulAddsLogs := by
  intro a b s
  refine ⟨or_place_zero _ b, ?_⟩
  have hmul : zext (gfMul a b) = if a = 0 ∨ b = 0 then 0#32 else zext (gfExp ((gfLog a + gfLog b) % 63)) :=
    apply_ite zext _ _ _
  rw [← hmul]
  rfl

/-- Settles O31: the zero check decides, and EXP undoes LOG. -/
theorem gfLogIsTheDiscreteLogarithm : Obligations.GfLogIsTheDiscreteLogarithm := by
  intro a s
  refine ⟨rfl, fun ha => ?_, fun ha => ⟨gfLog a, gfLog_lt a ha, gfExp_gfLog a ha, rfl, ?_⟩⟩
  · exact next_commandFault ha .logZero s _
  · exact next_okWith ha .logZero _ s

/-- Settles O32: EXP[E mod 63] is `alphaPow`, the iterated product by alpha. -/
theorem gfExpIsThePowerOfAlpha : Obligations.GfExpIsThePowerOfAlpha := by
  intro e s
  refine ⟨?_, alphaPow_eq_iterate e.val, ?_⟩
  · rw [encode, or_place_zero, zext_exponent]
  · rw [exec, execGfExp, okWith_eq, alphaPow, Config.order, statusOk]

/-- Settles O33: the command's two results are the statement's. -/
theorem gfIszTestsZero : Obligations.GfIszTestsZero :=
  fun _ _ => ⟨rfl, rfl⟩

end Sys2Proof.Machine
end

section
/-! SUPPORT. The words of the polynomial commands (spec/30_encoding.md R103 to R107), the coefficients of their results
and the outcomes they share (spec/41_poly.md R160 to R171). -/

namespace Sys2Proof.Machine

open Sys2Proof

/-! ### Operand fields -/

theorem place_regBits (r : RegNo) (lo : Nat) : place (regBits r) lo = BitVec.ofNat 32 r.val <<< lo := by
  rw [place, zext, regBits, BitVec.setWidth_ofNat_of_le_of_lt (by decide) r.isLt]

theorem place_idxBits (i : CoeffIdx) (lo : Nat) : place (idxBits i) lo = BitVec.ofNat 32 i.val <<< lo := by
  rw [place, zext, idxBits, BitVec.setWidth_ofNat_of_le_of_lt (by decide) i.isLt]

/-! ### Coefficients by their slots -/

/-- A slot of a register is the coefficient at its index. -/
theorem getElem_eq_coeff (p : PolyReg) (i : Fin 36) : p[i] = coeff p i.val := (coeff_of_lt p i.isLt).symm

/-- A non-zero coefficient stands in a slot. -/
theorem lt_of_coeff_ne_zero {p : PolyReg} {i : Nat} (h : coeff p i ≠ 0) : i < 36 :=
  Nat.lt_of_not_ge fun hge => h (coeff_of_ge p hge)

/-- A coefficient is zero if its slot is, where it has one. -/
theorem coeff_eq_zero_of_slot {p : PolyReg} {i : Nat} (h : ∀ hi : i < 36, p[(⟨i, hi⟩ : Fin 36)] = 0) :
    coeff p i = 0 := by
  by_cases hi : i < 36
  · exact (coeff_of_lt p hi).trans (h hi)
  · exact coeff_of_ge p (Nat.not_lt.mp hi)

/-- No non-zero coefficient lies above the degree (R161). -/
theorem le_of_deg_eq_some {p : PolyReg} {d i : Nat} (hd : deg p = some d) (hi : coeff p i ≠ 0) : i ≤ d :=
  Nat.le_of_not_gt fun hlt => hi ((deg_eq_some.mp hd).2 i hlt)

theorem exists_deg_of_coeff_ne_zero {p : PolyReg} {i : Nat} (h : coeff p i ≠ 0) : ∃ d, deg p = some d :=
  Option.ne_none_iff_exists'.mp fun hnone => h (deg_eq_none.mp hnone i)

theorem deg_eq_some_of_slots {p : PolyReg} {d : Fin 36} (hd : p[d] ≠ 0) (habove : ∀ i : Fin 36, d < i → p[i] = 0) :
    deg p = some d.val := by
  rw [getElem_eq_coeff] at hd
  exact deg_eq_some.mpr ⟨hd, fun i hi => coeff_eq_zero_of_slot fun h => habove ⟨i, h⟩ hi⟩

/-! ### The overflow of a product (R167) -/

/-- The degrees sum to 36 or more exactly if the indices of two non-zero coefficients do. -/
theorem mulOverflows_iff {a b : PolyReg} :
    mulOverflows a b = true ↔ ∃ i j, coeff a i ≠ 0 ∧ coeff b j ≠ 0 ∧ 35 < i + j := by
  constructor
  · intro h
    rw [mulOverflows] at h
    split at h
    · next da db ha hb => exact ⟨da, db, (deg_eq_some.mp ha).1, (deg_eq_some.mp hb).1, of_decide_eq_true h⟩
    · cases h
  · rintro ⟨i, j, hi, hj, hsum⟩
    obtain ⟨da, ha⟩ := exists_deg_of_coeff_ne_zero hi
    obtain ⟨db, hb⟩ := exists_deg_of_coeff_ne_zero hj
    have := le_of_deg_eq_some ha hi
    have := le_of_deg_eq_some hb hj
    rw [mulOverflows, ha, hb]
    exact decide_eq_true (by omega)

/-- The same by the slots of the two registers. -/
theorem mulOverflows_iff_slots {a b : PolyReg} :
    mulOverflows a b = true ↔ ∃ i j : Fin 36, a[i] ≠ 0 ∧ b[j] ≠ 0 ∧ 35 < i.val + j.val := by
  simp only [mulOverflows_iff, getElem_eq_coeff]
  constructor
  · rintro ⟨i, j, hi, hj, hsum⟩
    exact ⟨⟨i, lt_of_coeff_ne_zero hi⟩, ⟨j, lt_of_coeff_ne_zero hj⟩, hi, hj, hsum⟩
  · rintro ⟨i, j, h⟩
    exact ⟨i.val, j.val, h⟩

/-- Where a product fits, no term of the convolution falls beyond the capacity (R163, R167). -/
theorem gfMul_coeff_eq_zero_of_fits {a b : PolyReg} (h : mulOverflows a b = false) {i j : Nat} (hsum : 35 < i + j) :
    gfMul (coeff a i) (coeff b j) = 0 := by
  by_cases hi : coeff a i = 0
  · rw [hi, gfMul_zero_left]
  by_cases hj : coeff b j = 0
  · rw [hj, gfMul_zero_right]
  exact absurd (mulOverflows_iff.mpr ⟨i, j, hi, hj, hsum⟩) (Bool.eq_false_iff.mp h)

theorem gfSum_eq_zero {n : Nat} {f : Nat → Elem} (h : ∀ i < n, f i = 0) : gfSum n f = 0 := by
  induction n with
  | zero => rfl
  | succ n ih =>
    rw [gfSum_succ, ih fun i hi => h i (by omega), h n (by omega)]
    rfl

/-- Where a product fits, the convolution gives its coefficient at every index. -/
theorem coeff_pmul_of_fits {a b : PolyReg} (h : mulOverflows a b = false) (m : Nat) :
    coeff (pmul a b) m = gfSum (m + 1) fun i => gfMul (coeff a i) (coeff b (m - i)) := by
  by_cases hm : m < 36
  · exact coeff_pmul a b hm
  · rw [coeff_of_ge _ (by omega), gfSum_eq_zero fun i hi => gfMul_coeff_eq_zero_of_fits h (by omega)]

/-! ### A command that writes one register -/

/-- Writing a polynomial register, RESULT and STATUS changes nothing else. -/
theorem onlyPolyRegister_setPoly {rd : RegNo} {p : PolyReg} {w st : Word} (s : State) :
    OnlyPolyRegister rd s (((s.setPoly rd p).setResult w).setStatus st) :=
  ⟨rfl, fun _ hr => s.setPoly_poly_ne hr p⟩

/-- The register written holds the polynomial, slot by slot. -/
theorem getElem_okWith_setPoly {rd : RegNo} {p : PolyReg} {w : Word} (s : State) (i : Fin 36) :
    (okWith w (s.setPoly rd p)).polys[rd][i] = coeff p i.val :=
  (congrArg (·[i]) (s.setPoly_poly rd p)).trans (getElem_eq_coeff p i)

/-! ### POLY.MUL (R167) -/

theorem exec_polyMul_overflow {rd ra rb : RegNo} {s : State} (h : mulOverflows (s.poly ra) (s.poly rb) = true) :
    exec (.polyMul rd ra rb) s = .next (commandFault .polyOvf s) :=
  congrArg _ (if_pos h)

theorem exec_polyMul_fits {rd ra rb : RegNo} {s : State} (h : mulOverflows (s.poly ra) (s.poly rb) = false) :
    exec (.polyMul rd ra rb) s = .next (okWith 0 (s.setPoly rd (pmul (s.poly ra) (s.poly rb)))) :=
  congrArg _ (if_neg (Bool.eq_false_iff.mp h))

/-- POLY.MUL reports OK only if the product fits: the fault reports FAULTED (R272). -/
theorem mulOverflows_eq_false_of_statusOK {rd ra rb : RegNo} {s t : State} (h : exec (.polyMul rd ra rb) s = .next t)
    (hok : statusOK t.status = true) : mulOverflows (s.poly ra) (s.poly rb) = false := by
  by_contra hne
  cases (exec_polyMul_overflow (Bool.eq_true_of_not_eq_false hne)).symm.trans h
  change statusOK statusFaulted = true at hok
  exact absurd hok (by decide)

end Sys2Proof.Machine
end

section
/-! SUPPORT. The polynomial functions as those of Mathlib's polynomials over the field: Horner's method is the power sum
(spec/41_poly.md R162), and a product that fits is the product (R163). -/

namespace Sys2Proof.Machine

open Sys2Proof Polynomial

section
variable {F : Type} [Field F] {φ : Elem → F} (hφ : FieldView φ)

/-- The value of a polynomial is the power sum of its coefficients. -/
theorem eval_toPolynomial_eq_sum (l : List Elem) (y : F) :
    (toPolynomial φ l).eval y = ∑ i ∈ Finset.range l.length, φ (l.getD i 0) * y ^ i := by
  induction l with
  | nil => exact Polynomial.eval_zero
  | cons a l ih =>
    rw [toPolynomial, List.foldr_cons, ← toPolynomial, eval_add, eval_mul, eval_X, eval_C, ih, List.length_cons,
      Finset.sum_range_succ', Finset.sum_mul]
    simp [pow_succ, mul_assoc]

include hφ

theorem FieldView.one : φ 1 = 1 := by
  have hne : φ 1 ≠ 0 := fun h => absurd (hφ.eq_zero_iff.mp h) (by decide)
  have hsq : φ 1 * φ 1 = φ 1 := by rw [← hφ.mul, gfMul_one]
  exact (mul_eq_left₀ hne).mp hsq

theorem FieldView.pow (x : Elem) (n : Nat) : φ (gfPow x n) = φ x ^ n := by
  induction n with
  | zero => exact hφ.one.trans (pow_zero _).symm
  | succ n ih => rw [gfPow, hφ.mul, ih, pow_succ]

theorem FieldView.sum (n : Nat) (f : Nat → Elem) : φ (gfSum n f) = ∑ i ∈ Finset.range n, φ (f i) := by
  induction n with
  | zero => exact hφ.zero
  | succ n ih => rw [gfSum_succ, hφ.add, ih, Finset.sum_range_succ]

/-- A product that fits the capacity is the product of the polynomials (R163). -/
theorem toPolynomial_pmul {a b : PolyReg} (h : mulOverflows a b = false) :
    toPolynomial φ (pmul a b).toList = toPolynomial φ a.toList * toPolynomial φ b.toList := by
  ext m
  rw [coeff_mul, Finset.Nat.sum_antidiagonal_eq_sum_range_succ_mk]
  simp only [coeff_toPolynomial_toList hφ, ← hφ.mul]
  rw [← hφ.sum, coeff_pmul_of_fits h]

end

/-- Horner's method over a list computes its power sum (R162). -/
theorem horner_eq_gfSum (l : List Elem) (x : Elem) :
    l.foldr (fun a acc => gfAdd (gfMul acc x) a) 0 = gfSum l.length fun i => gfMul (l.getD i 0) (gfPow x i) := by
  obtain ⟨F, _, φ, hφ⟩ := exists_fieldView
  apply hφ.injective
  rw [← eval_toPolynomial hφ, eval_toPolynomial_eq_sum, hφ.sum]
  simp only [hφ.mul, hφ.pow]

/-- The lowest coefficients of a register as a list. -/
theorem getD_take_toList (p : PolyReg) {c i : Nat} (hc : c ≤ 36) (hi : i < c) :
    (p.toList.take c).getD i 0 = coeff p i := by
  rw [coeff_of_lt p (by omega), List.getD_eq_getElem _ _ (by simpa using ⟨hi, by omega⟩), List.getElem_take,
    Vector.getElem_toList]

/-- Horner's method over a capacity computes the power sum of the coefficients below it (R162). -/
theorem evalCap_eq_gfSum {c : Nat} (hc : c ≤ 36) (p : PolyReg) (x : Elem) :
    evalCap c p x = gfSum c fun i => gfMul (coeff p i) (gfPow x i) := by
  have hlen : (p.toList.take c).length = c := by simpa using hc
  rw [evalCap, horner_eq_gfSum, hlen]
  exact gfSum_congr fun i hi => by rw [getD_take_toList p hc hi]

theorem eval_eq_powerSum (p : PolyReg) (x : Elem) : eval p x = powerSum p x :=
  evalCap_eq_gfSum (Nat.le_refl 36) p x

theorem eval_pmul {a b : PolyReg} (h : mulOverflows a b = false) (x : Elem) :
    eval (pmul a b) x = gfMul (eval a x) (eval b x) := by
  obtain ⟨F, _, φ, hφ⟩ := exists_fieldView
  apply hφ.injective
  simp only [hφ.mul, ← eval_toPolynomial_toList hφ, toPolynomial_pmul hφ h, eval_mul]

end Sys2Proof.Machine
end

section
/-! SUPPORT. The statements on the polynomial commands (spec/41_poly.md), each from the lemmas above. -/

namespace Sys2Proof.Machine

open Sys2Proof

/-- Settles O36: the slots decide the overflow, and the product is taken of the sources before the write. -/
theorem polyMulConvolvesOrRaisesPolyOvf : Obligations.PolyMulConvolvesOrRaisesPolyOvf := by
  intro rd ra rb s
  refine ⟨by simp only [encode, place_regBits], fun hovf => ?_, fun hfits => ?_⟩
  · rw [exec_polyMul_overflow (mulOverflows_iff_slots.mpr hovf), commandFault_eq]
    rfl
  · have hfalse : mulOverflows (s.poly ra) (s.poly rb) = false := Bool.eq_false_iff.mpr fun h => by
      obtain ⟨i, j, hi, hj, hsum⟩ := mulOverflows_iff_slots.mp h
      exact absurd (hfits i j hi hj) (Nat.not_le.mpr hsum)
    exact ⟨_, exec_polyMul_fits hfalse, onlyPolyRegister_setPoly s, rfl, rfl, fun m =>
      (getElem_okWith_setPoly s m).trans (coeff_pmul _ _ m.isLt)⟩

/-- Settles O37: OK means the product fits, and then evaluation is multiplicative. -/
theorem polyMulIsTheProductAtEveryPoint : Obligations.PolyMulIsTheProductAtEveryPoint := by
  intro rd ra rb s t x h hok
  have hfits := mulOverflows_eq_false_of_statusOK h hok
  cases (exec_polyMul_fits hfits).symm.trans h
  exact (congrArg (eval · x) (s.setPoly_poly rd _)).trans (eval_pmul hfits x)

/-- Settles O38: Horner's method computes the power sum. -/
theorem polyEvalIsThePowerSum : Obligations.PolyEvalIsThePowerSum := by
  intro ra val s
  refine ⟨by simp only [encode, place_regBits, or_place_zero], ?_⟩
  rw [exec, execPolyEval, eval_eq_powerSum]
  rfl

/-- Settles O39: the slots decide the degree. -/
theorem polyDegFindsTheHighestIndex : Obligations.PolyDegFindsTheHighestIndex := by
  intro ra s
  refine ⟨by simp only [encode, place_regBits], fun hzero => ?_, fun d hd habove => ?_⟩
  · have hdeg : deg (s.poly ra) = none := deg_eq_none.mpr fun i =>
      coeff_eq_zero_of_slot fun h => hzero ⟨i, h⟩
    rw [exec, execPolyDeg, hdeg]
    rfl
  · have hdeg : deg (s.poly ra) = some d.val := deg_eq_some_of_slots hd habove
    rw [exec, execPolyDeg, hdeg]
    rfl

/-- Settles O34: every coefficient of the zero polynomial is 0. -/
theorem polyClrZeroesTheRegister : Obligations.PolyClrZeroesTheRegister := by
  intro rd s
  exact ⟨_, rfl, onlyPolyRegister_setPoly s, fun i =>
    (getElem_okWith_setPoly s i).trans (coeff_polyZero i.val), rfl, rfl, by simp only [encode, place_regBits]⟩

/-- Settles O35: the sum is taken of the sources before the write. -/
theorem polyAddAddsCoefficients : Obligations.PolyAddAddsCoefficients := by
  intro rd ra rb s
  refine ⟨_, rfl, onlyPolyRegister_setPoly s, fun i => ?_, rfl, rfl, by simp only [encode, place_regBits]⟩
  rw [getElem_okWith_setPoly, coeff_padd _ _ i.isLt, getElem_eq_coeff, getElem_eq_coeff]
  rfl

/-- Settles O40: the index decides, and below 36 the coefficient is its slot. -/
theorem polyGetcReadsOrFailsBounds : Obligations.PolyGetcReadsOrFailsBounds := by
  intro ra idx s
  refine ⟨by simp only [encode, place_regBits, place_idxBits], fun h => ?_, fun h => ?_⟩
  · rw [exec, execPolyGetc, if_neg (Nat.not_le.mpr h), coeff_of_lt _ h]
    rfl
  · rw [exec, execPolyGetc, if_pos h]
    rfl

/-- Settles O41: the index decides, and below 36 the write replaces its slot. -/
theorem polySetcWritesOrFailsBounds : Obligations.PolySetcWritesOrFailsBounds := by
  intro rd idx val s
  refine ⟨by simp only [encode, place_regBits, place_idxBits, or_place_zero], fun h => ?_, fun h => ?_⟩
  · rw [exec, execPolySetc, if_neg (Nat.not_le.mpr h), setCoeff, dif_pos h]
    rfl
  · rw [exec, execPolySetc, if_pos h]
    rfl

end Sys2Proof.Machine
end

section
/-! SUPPORT. Massey's invariant of the Berlekamp-Massey loop (spec/42_bmcf.md R193, R194), over the polynomials of any
field: how each of the loop's three steps keeps it. -/

namespace Sys2Proof.Machine

open Sys2Proof Polynomial

/-! ### Massey's invariant -/

/-- What holds of the locator `C`, the shifted earlier locator `D` = x^m B, the length `L` and the discrepancy `b` before
step `r` on the syndromes `S` (R194). `C` makes the coefficients L..r-1 of `C * S` vanish; `D` does so from r+1-L on, and
has coefficient `b` at r unless no length change has happened yet. -/
structure MasseyInv {F : Type} [Field F] (S C D : F[X]) (L : Nat) (b : F) (r : Nat) : Prop where
  disc_ne : b ≠ 0
  len_le : L ≤ r
  coeff_zero : C.coeff 0 = 1
  shift_coeff_zero : D.coeff 0 = 0
  deg_le : ∀ i, L < i → C.coeff i = 0
  shift_deg_le : ∀ i, r + 1 < L + i → D.coeff i = 0
  generates : ∀ k, L ≤ k → k < r → (C * S).coeff k = 0
  shift_generates : ∀ k, r + 1 ≤ L + k → k < r → (D * S).coeff k = 0
  shift_disc : L = 0 ∨ (D * S).coeff r = b

section
variable {F : Type} [Field F] {S C D : F[X]} {L r : Nat} {b : F}

/-- C = 1 and D = x before the first step (R193). -/
theorem masseyInv_init (S : F[X]) : MasseyInv S 1 X 0 1 0 where
  disc_ne := one_ne_zero
  len_le := Nat.le_refl 0
  coeff_zero := coeff_one_zero
  shift_coeff_zero := coeff_X_zero
  deg_le i hi := coeff_one.trans (if_neg (by omega))
  shift_deg_le i hi := coeff_X_of_ne_one (by omega)
  generates k _ hk := absurd hk (Nat.not_lt_zero k)
  shift_generates k _ hk := absurd hk (Nat.not_lt_zero k)
  shift_disc := .inl rfl

/-- The corrected locator of a step with discrepancy `delta`. -/
noncomputable def masseyUpdate (C D : F[X]) (b delta : F) : F[X] := C - Polynomial.C (delta / b) * D

theorem coeff_masseyUpdate (delta : F) (i : Nat) :
    (masseyUpdate C D b delta).coeff i = C.coeff i - delta / b * D.coeff i := by
  rw [masseyUpdate, coeff_sub, coeff_C_mul]

theorem coeff_masseyUpdate_mul (delta : F) (k : Nat) :
    (masseyUpdate C D b delta * S).coeff k = (C * S).coeff k - delta / b * (D * S).coeff k := by
  rw [masseyUpdate, sub_mul, mul_assoc, coeff_sub, coeff_C_mul]

theorem coeff_X_mul_mul_succ (Q S : F[X]) (k : Nat) : (X * Q * S).coeff (k + 1) = (Q * S).coeff k := by
  rw [mul_assoc, coeff_X_mul]

/-- Multiplying a polynomial by x moves the vanishing coefficients up by one. -/
theorem coeff_X_mul_eq_zero {Q : F[X]} {n : Nat} (h : ∀ i, n < i → Q.coeff i = 0) {i : Nat} (hi : n + 1 < i) :
    (X * Q).coeff i = 0 := by
  obtain ⟨j, rfl⟩ : ∃ j, i = j + 1 := ⟨i - 1, by omega⟩
  rw [coeff_X_mul, h j (by omega)]

/-- A step that leaves `D` the older locator: its half of the invariant. -/
theorem MasseyInv.shift {C' : F[X]} (h : MasseyInv S C D L b r) (h0 : C'.coeff 0 = 1)
    (hdeg : ∀ i, L < i → C'.coeff i = 0) (hgen : ∀ k, L ≤ k → k < r + 1 → (C' * S).coeff k = 0) :
    MasseyInv S C' (X * D) L b (r + 1) where
  disc_ne := h.disc_ne
  len_le := Nat.le_succ_of_le h.len_le
  coeff_zero := h0
  shift_coeff_zero := coeff_X_mul_zero D
  deg_le := hdeg
  shift_deg_le i hi := by
    obtain ⟨j, rfl⟩ : ∃ j, i = j + 1 := ⟨i - 1, by have := h.len_le; omega⟩
    rw [coeff_X_mul, h.shift_deg_le j (by omega)]
  generates := hgen
  shift_generates k hk hkr := by
    obtain ⟨j, rfl⟩ : ∃ j, k = j + 1 := ⟨k - 1, by have := h.len_le; omega⟩
    rw [coeff_X_mul_mul_succ, h.shift_generates j (by omega) (by omega)]
  shift_disc := h.shift_disc.imp_right fun hr => (coeff_X_mul_mul_succ D S r).trans hr

/-- A step with discrepancy 0. -/
theorem MasseyInv.step_zero (h : MasseyInv S C D L b r) (hdelta : (C * S).coeff r = 0) :
    MasseyInv S C (X * D) L b (r + 1) :=
  h.shift h.coeff_zero h.deg_le fun k hk hkr => by
    rcases Nat.lt_succ_iff_lt_or_eq.mp hkr with hlt | rfl
    · exact h.generates k hk hlt
    · exact hdelta

/-- The corrected locator vanishes wherever both old ones do, and at r: the discrepancies cancel. -/
theorem MasseyInv.generates_update (h : MasseyInv S C D L b r) (hL : L ≠ 0) {k : Nat} (hk : L ≤ k)
    (hkD : r + 1 ≤ L + k) (hkr : k < r + 1) : (masseyUpdate C D b ((C * S).coeff r) * S).coeff k = 0 := by
  rw [coeff_masseyUpdate_mul]
  rcases Nat.lt_succ_iff_lt_or_eq.mp hkr with hlt | rfl
  · rw [h.generates k hk hlt, h.shift_generates k hkD hlt, mul_zero, sub_zero]
  · rw [h.shift_disc.resolve_left hL, div_mul_cancel₀ _ h.disc_ne, sub_self]

theorem MasseyInv.coeff_update_zero (h : MasseyInv S C D L b r) (delta : F) :
    (masseyUpdate C D b delta).coeff 0 = 1 := by
  rw [coeff_masseyUpdate, h.coeff_zero, h.shift_coeff_zero, mul_zero, sub_zero]

theorem MasseyInv.coeff_update_eq_zero (h : MasseyInv S C D L b r) (delta : F) {i : Nat} (hC : L < i)
    (hD : r + 1 < L + i) : (masseyUpdate C D b delta).coeff i = 0 := by
  rw [coeff_masseyUpdate, h.deg_le i hC, h.shift_deg_le i hD, mul_zero, sub_zero]

/-- A step that corrects the locator and keeps the length. -/
theorem MasseyInv.step_keep (h : MasseyInv S C D L b r) (hL : r < 2 * L) :
    MasseyInv S (masseyUpdate C D b ((C * S).coeff r)) (X * D) L b (r + 1) :=
  h.shift (h.coeff_update_zero _) (fun _ hi => h.coeff_update_eq_zero _ hi (by omega))
    fun _ hk hkr => h.generates_update (by omega) hk (by omega) hkr

/-- A step that corrects the locator and lengthens the register: the old locator becomes `D`. -/
theorem MasseyInv.step_grow (h : MasseyInv S C D L b r) (hL : 2 * L ≤ r) (hdelta : (C * S).coeff r ≠ 0) :
    MasseyInv S (masseyUpdate C D b ((C * S).coeff r)) (X * C) (r + 1 - L) ((C * S).coeff r) (r + 1) where
  disc_ne := hdelta
  len_le := Nat.sub_le _ _
  coeff_zero := h.coeff_update_zero _
  shift_coeff_zero := coeff_X_mul_zero C
  deg_le i hi := h.coeff_update_eq_zero _ (by omega) (by omega)
  shift_deg_le i hi := coeff_X_mul_eq_zero h.deg_le (by omega)
  generates k hk hkr := h.generates_update (by omega) (by omega) (by omega) hkr
  shift_generates k hk hkr := by
    obtain ⟨j, rfl⟩ : ∃ j, k = j + 1 := ⟨k - 1, by omega⟩
    rw [coeff_X_mul_mul_succ, h.generates j (by omega) (by omega)]
  shift_disc := .inr (coeff_X_mul_mul_succ C S r)

end

end Sys2Proof.Machine
end

section
/-! SUPPORT. The loop of the model as Massey's: its polynomials over the field, and the invariant after every step. -/

namespace Sys2Proof.Machine

open Sys2Proof Polynomial

/-- The locator as a polynomial. -/
noncomputable def BmState.locator {F : Type} [Field F] (φ : Elem → F) (b : BmState) : F[X] :=
  toPolynomial φ b.sigma.toList

/-- The earlier locator as a polynomial, shifted up by m. -/
noncomputable def BmState.shifted {F : Type} [Field F] (φ : Elem → F) (b : BmState) : F[X] :=
  X ^ b.shift * toPolynomial φ b.prev.toList

section
variable {F : Type} [Field F] {φ : Elem → F} (hφ : FieldView φ)

include hφ

/-! ### Characteristic 2 and quotients -/

theorem FieldView.charTwo : CharP F 2 := by
  refine CharTwo.of_one_ne_zero_of_two_eq_zero one_ne_zero ?_
  rw [← one_add_one_eq_two, ← hφ.one, ← hφ.add, gfAdd, BitVec.xor_self]
  exact hφ.zero

theorem FieldView.div (a : Elem) {b : Elem} (hb : b ≠ 0) : φ (gfDiv a b) = φ a / φ b :=
  eq_div_of_mul_eq (hφ.eq_zero_iff.not.mpr hb) (by rw [← hφ.mul, gfDiv, gfMul_gfInv_cancel a hb])

/-! ### The polynomials of the loop -/

theorem coeff_locator (b : BmState) (i : Nat) : (b.locator φ).coeff i = φ (coeff b.sigma i) :=
  coeff_toPolynomial_toList hφ b.sigma i

theorem coeff_shifted (b : BmState) (i : Nat) :
    (b.shifted φ).coeff i = if b.shift ≤ i then φ (coeff b.prev (i - b.shift)) else 0 := by
  rw [BmState.shifted, coeff_X_pow_mul', coeff_toPolynomial_toList hφ]

theorem toPolynomial_polyOne : toPolynomial φ polyOne.toList = 1 := by
  ext i
  rw [coeff_toPolynomial_toList hφ, coeff_one, polyOne]
  by_cases hi : i < 36
  · rw [coeff_polyOf _ hi, apply_ite φ, hφ.one, hφ.zero]
  · rw [coeff_of_ge _ (by omega), hφ.zero, if_neg (by omega)]

/-- The discrepancy of R193 is the coefficient of the product of locator and syndromes. -/
theorem map_bmDelta {b : BmState} {r : Nat} (s : List Elem) (h0 : coeff b.sigma 0 = 1)
    (hdeg : ∀ i, b.len < i → coeff b.sigma i = 0) (hr : b.len ≤ r) :
    φ (bmDelta s b r) = (b.locator φ * toPolynomial φ s).coeff r := by
  rw [coeff_mul, Finset.Nat.sum_antidiagonal_eq_sum_range_succ_mk, Finset.sum_range_succ', bmDelta, hφ.add, hφ.sum]
  simp only [coeff_locator hφ, coeff_toPolynomial hφ, h0, hφ.mul, hφ.one, one_mul, Nat.sub_zero]
  rw [add_comm, add_left_inj]
  refine Finset.sum_subset (Finset.range_subset_range.mpr hr) fun j _ hj => ?_
  rw [hdeg (j + 1) (by simpa using hj), hφ.zero, zero_mul]

/-- The update of R193 is the corrected locator, where no term falls beyond index 35. -/
theorem locator_bmUpdate {b : BmState} (delta : Elem) (hb : b.disc ≠ 0)
    (hfits : ∀ i, 36 ≤ i → (b.shifted φ).coeff i = 0) :
    toPolynomial φ (bmUpdate b (gfDiv delta b.disc)).toList =
      masseyUpdate (b.locator φ) (b.shifted φ) (φ b.disc) (φ delta) := by
  have := hφ.charTwo
  ext i
  rw [coeff_masseyUpdate, CharTwo.sub_eq_add, coeff_toPolynomial_toList hφ, coeff_locator hφ, ← hφ.div delta hb]
  by_cases hi : i < 36
  · rw [bmUpdate, coeff_polyOf _ hi, coeff_shifted hφ]
    by_cases hm : i < b.shift
    · rw [if_pos hm, if_neg (by omega), mul_zero, add_zero]
    · rw [if_neg hm, if_pos (by omega), hφ.add, hφ.mul]
  · rw [hfits i (by omega), coeff_of_ge _ (by omega), coeff_of_ge _ (by omega), mul_zero, add_zero]

end

/-! ### The invariant of the loop -/

/-- Massey's invariant of the loop variables before step `r` on the syndromes `s`. -/
def BmInv {F : Type} [Field F] (φ : Elem → F) (s : List Elem) (b : BmState) (r : Nat) : Prop :=
  MasseyInv (toPolynomial φ s) (b.locator φ) (b.shifted φ) b.len (φ b.disc) r

section
variable {F : Type} [Field F] {φ : Elem → F} (hφ : FieldView φ) {s : List Elem} {b : BmState} {r : Nat}

include hφ

theorem BmInv.disc_ne_zero (h : BmInv φ s b r) : b.disc ≠ 0 := hφ.eq_zero_iff.not.mp h.disc_ne

theorem BmInv.coeff_sigma_zero (h : BmInv φ s b r) : coeff b.sigma 0 = 1 :=
  hφ.injective (by rw [← coeff_locator hφ, h.coeff_zero, hφ.one])

theorem BmInv.coeff_sigma_eq_zero (h : BmInv φ s b r) {i : Nat} (hi : b.len < i) : coeff b.sigma i = 0 :=
  hφ.eq_zero_iff.mp (by rw [← coeff_locator hφ, h.deg_le i hi])

theorem BmInv.coeff_prev_eq_zero (h : BmInv φ s b r) {i : Nat} (hi : r + 1 < b.shift + i) : coeff b.prev i = 0 := by
  have := h.shift_deg_le (i + b.shift) (by omega)
  rwa [coeff_shifted hφ, if_pos (by omega), Nat.add_sub_cancel, hφ.eq_zero_iff] at this

theorem BmInv.map_delta (h : BmInv φ s b r) {k : Nat} (hk : b.len ≤ k) :
    φ (bmDelta s b k) = (b.locator φ * toPolynomial φ s).coeff k :=
  map_bmDelta hφ s (h.coeff_sigma_zero hφ) (fun _ => h.coeff_sigma_eq_zero hφ) hk

theorem bmInv_init (s : List Elem) : BmInv φ s bmInit 0 := by
  have hlocator : bmInit.locator φ = 1 := toPolynomial_polyOne hφ
  have hshifted : bmInit.shifted φ = X := by
    rw [BmState.shifted, bmInit, toPolynomial_polyOne hφ, mul_one, pow_one]
  have hdisc : φ bmInit.disc = 1 := hφ.one
  rw [BmInv, hlocator, hshifted, hdisc]
  exact masseyInv_init _

/-- Every step of R193 keeps the invariant, as long as no term can fall beyond index 35. -/
theorem BmInv.step (h : BmInv φ s b r) (hr : r < 35) : BmInv φ s (bmStep s b r) (r + 1) := by
  have hdelta := h.map_delta hφ h.len_le
  have hupdate := locator_bmUpdate hφ (bmDelta s b r) (h.disc_ne_zero hφ) fun i hi => h.shift_deg_le i (by omega)
  have hshift : X * b.shifted φ = X ^ (b.shift + 1) * toPolynomial φ b.prev.toList := by
    rw [BmState.shifted, pow_succ', mul_assoc]
  simp only [bmStep]
  by_cases hz : bmDelta s b r = 0
  · rw [if_pos hz]
    have := MasseyInv.step_zero h (by rw [← hdelta, hz, hφ.zero])
    rwa [hshift] at this
  rw [if_neg hz]
  by_cases hL : 2 * b.len ≤ r
  · rw [if_pos hL]
    have := MasseyInv.step_grow h hL (by rwa [← hdelta, ne_eq, hφ.eq_zero_iff])
    rwa [← hdelta, ← hupdate, ← pow_one X] at this
  · rw [if_neg hL]
    have := MasseyInv.step_keep h (by omega)
    rwa [← hdelta, ← hupdate, hshift] at this

theorem bmInv_bmRun (s : List Elem) (r : Nat) (hr : r ≤ 35) : BmInv φ s (bmRun s r) r := by
  induction r with
  | zero => exact bmInv_init hφ s
  | succ r ih =>
    rw [bmRun_succ]
    exact (ih (by omega)).step hφ (by omega)

end

end Sys2Proof.Machine
end

section
/-! SUPPORT. The statements on the Berlekamp-Massey loop (spec/42_bmcf.md R193, R194). -/

namespace Sys2Proof.Machine

open Sys2Proof

/-- Settles O44: Massey's invariant bounds the degrees more tightly, by L and by r + 1 - L. -/
theorem berlekampMasseyKeepsItsBounds : Obligations.BerlekampMasseyKeepsItsBounds := by
  intro syn r hlen hr
  obtain ⟨F, _, φ, hφ⟩ := exists_fieldView
  have h := bmInv_bmRun hφ syn r (by omega)
  exact ⟨h.disc_ne_zero hφ, h.len_le, h.coeff_sigma_zero hφ,
    fun i hi => h.coeff_sigma_eq_zero hφ (Nat.lt_of_le_of_lt h.len_le hi), fun i hi => h.coeff_prev_eq_zero hφ hi⟩

/-- Settles O45: each sum is a coefficient of the product of locator and syndromes, which vanishes from L on. -/
theorem locatorGeneratesTheSyndromes : Obligations.LocatorGeneratesTheSyndromes := by
  intro syn hlen
  obtain ⟨F, _, φ, hφ⟩ := exists_fieldView
  have h : BmInv φ syn (bm syn) syn.length := bmInv_bmRun hφ syn _ (by omega)
  refine ⟨fun i hi => h.coeff_sigma_eq_zero hφ hi, fun r hL hr => hφ.eq_zero_iff.mp ?_⟩
  exact (h.map_delta hφ hL).trans (h.generates r hL hr)

/-- Settles O47: distinct positions give distinct roots. -/
theorem rootCountIsAtMostTheDegree : Obligations.RootCountIsAtMostTheDegree :=
  fun _ _ => length_chien_le_deg

end Sys2Proof.Machine
end

section
/-! SUPPORT. The formal derivative over the field, and why a locator with as many root positions as its degree has only
simple roots, so that no Forney denominator is 0 (spec/42_bmcf.md R209). -/

namespace Sys2Proof.Machine

open Sys2Proof Polynomial

/-! ### The derivative and the roots over the field -/

section
variable {F : Type} [Field F] {φ : Elem → F} (hφ : FieldView φ)

include hφ

/-- The derivative of R164 is that of the polynomial, since an even number is 0 in characteristic 2. -/
theorem toPolynomial_deriv (p : PolyReg) :
    toPolynomial φ (deriv p).toList = derivative (toPolynomial φ p.toList) := by
  have := hφ.charTwo
  ext j
  rw [coeff_derivative, ← Nat.cast_succ, CharTwo.natCast_eq_mod]
  simp only [coeff_toPolynomial_toList hφ]
  by_cases hj : j < 36
  · rw [coeff_deriv p hj]
    rcases Nat.mod_two_eq_zero_or_one (j + 1) with h | h
    · rw [h, if_neg (by decide), hφ.zero, Nat.cast_zero, mul_zero]
    · rw [h, if_pos rfl, Nat.cast_one, mul_one]
  · rw [coeff_of_ge _ (by omega), coeff_of_ge _ (by omega), hφ.zero, zero_mul]

theorem toPolynomial_ne_zero {p : PolyReg} {d : Nat} (h : deg p = some d) : toPolynomial φ p.toList ≠ 0 := fun h0 =>
  (deg_eq_some.mp h).1 <| hφ.eq_zero_iff.mp <| by rw [← coeff_toPolynomial_toList hφ, h0, coeff_zero]

theorem natDegree_toPolynomial_le {p : PolyReg} {d : Nat} (h : deg p = some d) :
    (toPolynomial φ p.toList).natDegree ≤ d :=
  natDegree_le_iff_coeff_eq_zero.mpr fun i hi => by
    rw [coeff_toPolynomial_toList hφ, (deg_eq_some.mp h).2 i hi, hφ.zero]

theorem isRoot_toPolynomial {p : PolyReg} {x : Elem} : (toPolynomial φ p.toList).IsRoot (φ x) ↔ eval p x = 0 := by
  rw [IsRoot.def, eval_toPolynomial_toList hφ, hφ.eq_zero_iff]

/-- The points of distinct positions are distinct. -/
theorem nodup_map_chien (sigma : PolyReg) : ((chien sigma).map fun p => φ (alphaNeg p)).Nodup :=
  List.Nodup.map_on (fun p hp q hq hpq =>
      alphaNeg_injOn p (mem_chien.mp hp).1 q (mem_chien.mp hq).1 (hφ.injective hpq))
    ((chien_pairwise sigma).imp Nat.ne_of_lt)

/-- Where the search finds as many positions as the degree, it finds every root, each once. -/
theorem roots_nodup_of_length_chien {sigma : PolyReg} (h : deg sigma = some (chien sigma).length) :
    (toPolynomial φ sigma.toList).roots.Nodup := by
  set P := toPolynomial φ sigma.toList
  have hnodup : (((chien sigma).map fun p => φ (alphaNeg p) : List F) : Multiset F).Nodup := nodup_map_chien hφ sigma
  have hle : (((chien sigma).map fun p => φ (alphaNeg p) : List F) : Multiset F) ≤ P.roots := by
    rw [Multiset.le_iff_subset hnodup]
    intro y hy
    obtain ⟨p, hp, rfl⟩ := List.mem_map.mp (Multiset.mem_coe.mp hy)
    exact (mem_roots (toPolynomial_ne_zero hφ h)).mpr ((isRoot_toPolynomial hφ).mpr (mem_chien.mp hp).2)
  have hcard : P.roots.card ≤ (((chien sigma).map fun p => φ (alphaNeg p) : List F) : Multiset F).card := by
    rw [Multiset.coe_card, List.length_map]
    exact (card_roots' P).trans (natDegree_toPolynomial_le hφ h)
  exact Multiset.eq_of_le_of_card_le hle hcard ▸ hnodup

end

/-! ### The denominators at the roots -/

/-- A locator with as many root positions as its degree has a non-zero denominator at each of them: a root it shares with
its derivative would be a double one (R198, R209). -/
theorem forneyDen_ne_zero {sigma : PolyReg} (h : deg sigma = some (chien sigma).length) {p : Nat} (hp : p ∈ chien sigma) :
    forneyDen sigma p ≠ 0 := by
  classical
  obtain ⟨F, _, φ, hφ⟩ := exists_fieldView
  intro hden
  have hroot := (isRoot_toPolynomial hφ).mpr (mem_chien.mp hp).2
  have hroot' := (isRoot_toPolynomial hφ).mpr hden
  rw [toPolynomial_deriv hφ] at hroot'
  have hdouble := (one_lt_rootMultiplicity_iff_isRoot (toPolynomial_ne_zero hφ h)).mpr ⟨hroot, hroot'⟩
  rw [← count_roots] at hdouble
  exact Nat.not_lt.mpr (Multiset.nodup_iff_count_le_one.mp (roots_nodup_of_length_chien hφ h) _) hdouble

/-- The decoder answers FORNEY_ZERO only where a denominator at a root is 0 (R238). -/
theorem decodeBuf_forneyZero {c : Code} {sym : SymBuf} (h : decodeBuf c sym = .failed .forneyZero) :
    ∃ sigma, deg sigma = some (chien sigma).length ∧ ∃ p ∈ chien sigma, forneyDen sigma p = 0 := by
  unfold decodeBuf at h
  simp only at h
  split at h
  · cases h
  split at h
  · cases h
  next d hd =>
  split at h
  · cases h
  split at h
  · cases h
  next hroots =>
  split at h
  next hden =>
    rw [← not_ne_iff.mp hroots] at hd
    exact ⟨_, hd, by simpa only [List.any_eq_true, beq_iff_eq] using hden⟩
  split at h
  · cases h
  · cases h

theorem decodeBuf_ne_forneyZero (c : Code) (sym : SymBuf) : decodeBuf c sym ≠ .failed .forneyZero := fun h => by
  obtain ⟨sigma, hdeg, p, hp, hden⟩ := decodeBuf_forneyZero h
  exact forneyDen_ne_zero hdeg hp hden

/-! ### The ends of RS.DEC -/

/-- The three ends of RS.DEC (R238, R241). -/
theorem exec_rsDec_cases {c : Code} {s t : State} (h : exec (.rsDec c) s = .next t) :
    (decodeBuf c s.sym = .clean ∧ t = ((writeErrList [] s).setResult 0).setStatus statusOkSynZero) ∨
    (∃ f, decodeBuf c s.sym = .failed f ∧ t = decFail f s) ∨
    ∃ d es, decodeBuf c s.sym = .corrected d es ∧
      t = okWith (BitVec.ofNat 32 d) (writeErrList es (s.setSym (correctBuf c s.sym es))) := by
  rw [exec, execRsDec] at h
  split at h
  next hbuf => exact .inl ⟨hbuf, (Host.Outcome.next.inj h).symm⟩
  next f hbuf => exact .inr (.inl ⟨f, hbuf, (Host.Outcome.next.inj h).symm⟩)
  next d es hbuf => exact .inr (.inr ⟨d, es, hbuf, (Host.Outcome.next.inj h).symm⟩)

theorem eq_forneyZero_of_statusFail {f : FailCode} (h : statusFail f = 0x00000402#32) : f = .forneyZero := by
  cases f with
  | forneyZero => rfl
  | bounds | locatorInvalid | rootMismatch | positionOob | locatorZero => exact absurd h (by decide)

end Sys2Proof.Machine
end

section
/-! SUPPORT. The words of the decoder step commands (spec/30_encoding.md R105 to R107) and what each command leaves
(spec/42_bmcf.md R200 to R208). -/

namespace Sys2Proof.Machine

open Sys2Proof

/-! ### Words and parameters -/

theorem place_codeBits (c : Code) (lo : Nat) : place (codeBits c) lo = BitVec.ofNat 32 (codeNumber c) <<< lo := by
  cases c <;> rfl

/-- Two bytes of a word side by side are their sum (R203). -/
theorem ofNat_or_shiftLeft_eight {d l : Nat} (hd : d < 256) (hl : l < 256) :
    BitVec.ofNat 32 d ||| BitVec.ofNat 32 l <<< 8 = BitVec.ofNat 32 (d + 256 * l) := by
  have hshift : l <<< 8 % 2 ^ 32 = 2 ^ 8 * l := by
    rw [Nat.shiftLeft_eq]
    omega
  apply BitVec.eq_of_toNat_eq
  rw [BitVec.toNat_or, BitVec.toNat_shiftLeft, BitVec.toNat_ofNat, BitVec.toNat_ofNat, BitVec.toNat_ofNat,
    Nat.mod_eq_of_lt (by omega : d < 2 ^ 32), Nat.mod_eq_of_lt (by omega : l < 2 ^ 32), hshift, Nat.or_comm,
    ← Nat.two_pow_add_eq_or_of_lt hd]
  omega

theorem params_n_le (c : Code) : (Config.params c).n ≤ 36 := by cases c <;> decide

theorem params_t2_le (c : Code) : (Config.params c).t2 ≤ 16 := by cases c <;> decide

theorem alphaNeg_of_lt {p : Nat} (h : p < 63) : alphaNeg p = gfExp ((63 - p) % 63) := by
  rw [alphaNeg, Config.order, Nat.mod_eq_of_lt h]

/-! ### Syndromes (R191, R192) -/

/-- Entry i of the list of syndromes is the power sum s_(i+1) of the buffer. -/
theorem getD_syndromes (c : Code) (sym : SymBuf) {i : Nat} (hi : i < (Config.params c).t2) :
    (syndromes (Config.params c) (wordPoly c sym)).getD i 0 = syndromeSum c sym (i + 1) := by
  rw [List.getD_eq_getElem _ _ (by rwa [length_syndromes]), syndromeSum]
  simp only [syndromes, List.getElem_map, List.getElem_range]
  rw [evalCap_eq_gfSum (params_n_le c)]
  exact gfSum_congr fun p hp => by rw [coeff_wordPoly c sym hp]

theorem allZero_iff_getD {s : List Elem} : allZero s = true ↔ ∀ i < s.length, s.getD i 0 = 0 := by
  simp only [allZero, List.all_eq_true, beq_iff_eq, List.forall_mem_iff_getElem]
  exact forall₂_congr fun i hi => by rw [List.getD_eq_getElem _ _ hi]

/-- Every syndrome is 0 exactly for a codeword. -/
theorem allZero_syndromes_iff (c : Code) (sym : SymBuf) :
    allZero (syndromes (Config.params c) (wordPoly c sym)) = true ↔ IsCodeword c sym := by
  rw [allZero_iff_getD, length_syndromes]
  constructor
  · intro h i h1 hi
    obtain ⟨j, rfl⟩ : ∃ j, i = j + 1 := ⟨i - 1, by omega⟩
    rw [← getD_syndromes c sym (by omega), h j (by omega)]
  · intro h i hi
    rw [getD_syndromes c sym hi, h (i + 1) (by omega) (by omega)]

theorem coeff_synPoly_syndromes (c : Code) (sym : SymBuf) {i : Nat} (hi : i < 36) :
    coeff (synPoly (syndromes (Config.params c) (wordPoly c sym))) i =
      if i < (Config.params c).t2 then syndromeSum c sym (i + 1) else 0 := by
  rw [coeff_synPoly _ hi]
  split
  next h => exact getD_syndromes c sym h
  next h => exact List.getD_eq_default _ _ (by rw [length_syndromes]; omega)

/-- The layout of R192 reads back. -/
theorem synOfReg_synPoly {s : List Elem} (h : s.length ≤ 36) : synOfReg s.length (synPoly s) = s := by
  refine List.ext_getElem (length_synOfReg _ _) fun i h1 h2 => ?_
  simp only [synOfReg, List.getElem_map, List.getElem_range]
  rw [coeff_synPoly _ (by omega), List.getD_eq_getElem _ _ h2]

/-- RS.SYND of a codeword (R200). -/
theorem exec_rsSynd_codeword {c : Code} {rd : RegNo} {s : State} (h : IsCodeword c s.sym) :
    exec (.rsSynd c rd) s = .next (((s.setPoly rd (synPoly (syndromes (Config.params c) (wordPoly c s.sym)))).setResult
      1).setStatus statusOkSynZero) :=
  congrArg _ (if_pos ((allZero_syndromes_iff c s.sym).mpr h))

/-- RS.SYND of any other word (R200). -/
theorem exec_rsSynd_noCodeword {c : Code} {rd : RegNo} {s : State} (h : ¬ IsCodeword c s.sym) :
    exec (.rsSynd c rd) s =
      .next (okWith 0 (s.setPoly rd (synPoly (syndromes (Config.params c) (wordPoly c s.sym))))) :=
  congrArg _ (if_neg ((allZero_syndromes_iff c s.sym).not.mpr h))

/-! ### The locator (R193, R194) -/

/-- The locator of at most 16 syndromes has a degree, and both it and the length fit a byte (R194). -/
theorem exists_deg_bm {syn : List Elem} (h : syn.length ≤ 16) :
    ∃ d, deg (bm syn).sigma = some d ∧ d ≤ 16 ∧ (bm syn).len ≤ 16 := by
  obtain ⟨-, hlen, hone, hdeg, -⟩ := berlekampMasseyKeepsItsBounds syn syn.length h (Nat.le_refl _)
  obtain ⟨d, hd⟩ := exists_deg_of_coeff_ne_zero (p := (bm syn).sigma) (i := 0) (by rw [bm, hone]; decide)
  refine ⟨d, hd, ?_, hlen.trans h⟩
  by_contra hlt
  exact (deg_eq_some.mp hd).1 (hdeg d (by omega))

/-! ### RS.CHIEN (R204, R205) -/

/-- A command that writes the error list, RESULT and STATUS changes nothing else. -/
theorem setStatus_setResult_writeErrList (st w : Word) (l : List ErrEntry) (s : State) :
    ((writeErrList l s).setResult w).setStatus st = { s with
      errList := Vector.ofFn fun j : Fin 36 => l.getD j.val ⟨0, 0⟩, errCnt := BitVec.ofNat 6 l.length, result := w,
      status := st } := by
  rw [writeErrList_eq]
  rfl

theorem exec_rsChien_zero {ra : RegNo} {s : State} (h : deg (s.poly ra) = none) :
    exec (.rsChien ra) s = .next (failWith 0 .locatorZero (writeErrList [] s)) := by
  rw [exec, execRsChien, h]

/-- The entries RS.CHIEN lists: the root positions, with magnitude 0 (R204). -/
def rootEntries (sigma : PolyReg) : List ErrEntry := (chien sigma).map fun p => ⟨BitVec.ofNat 6 p, 0⟩

@[simp] theorem length_rootEntries (sigma : PolyReg) : (rootEntries sigma).length = (chien sigma).length :=
  List.length_map _

theorem exec_rsChien_nonzero {ra : RegNo} {s : State} {d : Nat} (h : deg (s.poly ra) = some d) :
    exec (.rsChien ra) s =
      .next { s with
        errList := Vector.ofFn fun j : Fin 36 => (rootEntries (s.poly ra)).getD j.val ⟨0, 0⟩
        errCnt := BitVec.ofNat 6 (chien (s.poly ra)).length
        result := BitVec.ofNat 32 (chien (s.poly ra)).length
        status := if (chien (s.poly ra)).length = d then statusOk else statusFail .rootMismatch } := by
  rw [← length_rootEntries, ← setStatus_setResult_writeErrList, length_rootEntries, exec, execRsChien, h]
  by_cases hroots : (chien (s.poly ra)).length = d
  · rw [if_pos hroots]
    exact congrArg _ (if_neg (not_not.mpr hroots))
  · rw [if_neg hroots]
    exact congrArg _ (if_pos hroots)

/-! ### RS.FORNEY (R207, R208) -/

theorem mem_errEntries {s : State} {e : ErrEntry} :
    e ∈ s.errEntries ↔ ∃ j : Fin 36, j.val < s.errCnt.toNat ∧ s.errList[j] = e := by
  simp only [State.errEntries, List.mem_take_iff_getElem, Vector.length_toList, Vector.getElem_toList]
  constructor
  · rintro ⟨j, hj, rfl⟩
    exact ⟨⟨j, by omega⟩, by simp only; omega, rfl⟩
  · rintro ⟨j, hj, rfl⟩
    exact ⟨j.val, by omega, rfl⟩

/-- The entries RS.FORNEY leaves: each listed position with its magnitude, the other entries as before (R207). -/
def magnitudeEntries (c : Code) (ra rb : RegNo) (s : State) : Vector ErrEntry 36 :=
  Vector.ofFn fun j : Fin 36 =>
    if j.val < s.errCnt.toNat then
      ⟨s.errList[j].pos,
        forneyMag (evaluator (s.poly rb) (s.poly ra) (Config.params c).t2) (s.poly ra) s.errList[j].pos.toNat⟩
    else s.errList[j]

theorem magnitudeEntries_listed {c : Code} {ra rb : RegNo} {s : State} {j : Fin 36} (h : j.val < s.errCnt.toNat) :
    (magnitudeEntries c ra rb s)[j] = ⟨s.errList[j].pos,
      forneyMag (evaluator (s.poly rb) (s.poly ra) (Config.params c).t2) (s.poly ra) s.errList[j].pos.toNat⟩ := by
  rw [Fin.getElem_fin, magnitudeEntries, Vector.getElem_ofFn, if_pos h]

theorem magnitudeEntries_other {c : Code} {ra rb : RegNo} {s : State} {j : Fin 36} (h : s.errCnt.toNat ≤ j.val) :
    (magnitudeEntries c ra rb s)[j] = s.errList[j] := by
  rw [Fin.getElem_fin, magnitudeEntries, Vector.getElem_ofFn, if_neg (Nat.not_lt.mpr h)]

theorem magnitudeEntries_pos (c : Code) (ra rb : RegNo) (s : State) (j : Fin 36) :
    (magnitudeEntries c ra rb s)[j].pos = s.errList[j].pos := by
  rcases Nat.lt_or_ge j.val s.errCnt.toNat with hj | hj
  · rw [magnitudeEntries_listed hj]
  · rw [magnitudeEntries_other hj]

theorem magnitudeEntries_mag {c : Code} {ra rb : RegNo} {s : State} {j : Fin 36} (h : j.val < s.errCnt.toNat) :
    (magnitudeEntries c ra rb s)[j].mag =
      forneyMag (evaluator (s.poly rb) (s.poly ra) (Config.params c).t2) (s.poly ra) s.errList[j].pos.toNat := by
  rw [magnitudeEntries_listed h]

theorem okWith_setErrList (w : Word) (v : Vector ErrEntry 36) (s : State) :
    okWith w (s.setErrList v) = { s with errList := v, result := w, status := statusOk } := rfl

theorem exec_rsForney_zero {c : Code} {ra rb : RegNo} {s : State}
    (h : ∃ e ∈ s.errEntries, forneyDen (s.poly ra) e.pos.toNat = 0) :
    exec (.rsForney c ra rb) s = .next (failWith 0 .forneyZero s) :=
  congrArg _ (if_pos (by simpa only [List.any_eq_true, beq_iff_eq] using h))

theorem exec_rsForney_nonzero {c : Code} {ra rb : RegNo} {s : State}
    (h : ∀ e ∈ s.errEntries, forneyDen (s.poly ra) e.pos.toNat ≠ 0) :
    exec (.rsForney c ra rb) s = .next { s with
      errList := magnitudeEntries c ra rb s, result := zext s.errCnt, status := statusOk } := by
  rw [← okWith_setErrList]
  exact congrArg _ (if_neg (by simpa only [List.any_eq_true, beq_iff_eq, not_exists, not_and] using h))

/-- A magnitude times its denominator is the evaluator's value (R198). -/
theorem gfMul_forneyMag (omega : PolyReg) {sigma : PolyReg} {p : Nat} (h : forneyDen sigma p ≠ 0) :
    gfMul (forneyMag omega sigma p) (forneyDen sigma p) = eval omega (alphaNeg p) :=
  gfMul_gfInv_cancel _ h

end Sys2Proof.Machine
end

section
/-! SUPPORT. The decoder steps one after another (spec/42_bmcf.md R201, spec/70_reset_and_hazards.md R313): what each hands
to the next through the registers and the error list. -/

namespace Sys2Proof.Machine

open Sys2Proof

/-! ### RS.SYND, then RS.ELP -/

theorem poly_of_exec_rsSynd {c : Code} {rd : RegNo} {s t : State} (h : exec (.rsSynd c rd) s = .next t) :
    t.poly rd = synPoly (syndromes (Config.params c) (wordPoly c s.sym)) := by
  by_cases hc : IsCodeword c s.sym
  · obtain rfl := Host.Outcome.next.inj ((exec_rsSynd_codeword hc).symm.trans h)
    exact s.setPoly_poly rd _
  · obtain rfl := Host.Outcome.next.inj ((exec_rsSynd_noCodeword hc).symm.trans h)
    exact s.setPoly_poly rd _

theorem polys_of_exec_rsElp {c : Code} {rd ra : RegNo} {s t : State} (h : exec (.rsElp c rd ra) s = .next t) :
    t.poly rd = (bm (synOfReg (Config.params c).t2 (s.poly ra))).sigma ∧ ∀ r : RegNo, r ≠ rd → t.poly r = s.poly r := by
  obtain rfl := Host.Outcome.next.inj h
  exact ⟨s.setPoly_poly rd _, fun r hr => s.setPoly_poly_ne hr _⟩

/-- RS.ELP reads back the syndromes RS.SYND wrote, and keeps them (R192, R201). -/
theorem polys_of_exec_rsSynd_rsElp {c : Code} {p0 p1 : RegNo} {s t u : State} (hne : p0 ≠ p1)
    (ht : exec (.rsSynd c p0) s = .next t) (hu : exec (.rsElp c p1 p0) t = .next u) :
    u.poly p0 = synPoly (syndromes (Config.params c) (wordPoly c s.sym)) ∧
      u.poly p1 = (bm (syndromes (Config.params c) (wordPoly c s.sym))).sigma := by
  have hsyn := poly_of_exec_rsSynd ht
  obtain ⟨hsigma, hkeep⟩ := polys_of_exec_rsElp hu
  have hback := synOfReg_synPoly (s := syndromes (Config.params c) (wordPoly c s.sym))
    (by rw [length_syndromes]; exact (params_t2_le c).trans (by decide))
  rw [length_syndromes] at hback
  rw [hsyn, hback] at hsigma
  exact ⟨(hkeep p0 hne).trans hsyn, hsigma⟩

/-! ### RS.CHIEN, then RS.FORNEY -/

/-- The corrections a locator with these roots and these syndromes stand for (R198, R238). -/
def corrections (c : Code) (syn sigma : PolyReg) : List ErrEntry :=
  (chien sigma).map fun p => ⟨BitVec.ofNat 6 p, forneyMag (evaluator syn sigma (Config.params c).t2) sigma p⟩

@[simp] theorem length_corrections (c : Code) (syn sigma : PolyReg) :
    (corrections c syn sigma).length = (chien sigma).length := List.length_map _

/-- A position fits the field POS (R48). -/
theorem toNat_pos_of_mem_chien {sigma : PolyReg} {p : Nat} (h : p ∈ chien sigma) : (BitVec.ofNat 6 p).toNat = p := by
  rw [BitVec.toNat_ofNat, Nat.mod_eq_of_lt (Nat.lt_succ_of_lt (mem_chien.mp h).1)]

/-- As many roots as the degree fit the error list, and their number fits ERRCNT. -/
theorem length_chien_lt {sigma : PolyReg} {d : Nat} (h : deg sigma = some d) : (chien sigma).length < 36 :=
  Nat.lt_of_le_of_lt (length_chien_le_deg h) (lt_of_coeff_ne_zero (deg_eq_some.mp h).1)

/-- The error list is what RS.CHIEN leaves for a locator (R204, R205). -/
structure ListsRoots (sigma : PolyReg) (t : State) : Prop where
  count : t.errCnt = BitVec.ofNat 6 (chien sigma).length
  entry (j : Fin 36) : t.errList[j] = (rootEntries sigma).getD j.val ⟨0, 0⟩

theorem listsRoots_of_exec_rsChien {ra : RegNo} {s t : State} {d : Nat} (hdeg : deg (s.poly ra) = some d)
    (h : exec (.rsChien ra) s = .next t) : ListsRoots (s.poly ra) t ∧ t.polys = s.polys := by
  obtain rfl := Host.Outcome.next.inj ((exec_rsChien_nonzero hdeg).symm.trans h)
  exact ⟨⟨rfl, fun j => Vector.getElem_ofFn j.isLt⟩, rfl⟩

section
variable {sigma : PolyReg} {t : State} (h : ListsRoots sigma t)

include h

theorem ListsRoots.toNat_count {d : Nat} (hdeg : deg sigma = some d) : t.errCnt.toNat = (chien sigma).length := by
  have := length_chien_lt hdeg
  rw [h.count, BitVec.toNat_ofNat, Nat.mod_eq_of_lt (by omega)]

theorem ListsRoots.zext_count {d : Nat} (hdeg : deg sigma = some d) :
    zext t.errCnt = BitVec.ofNat 32 (chien sigma).length := by
  have := length_chien_lt hdeg
  rw [h.count, zext, BitVec.setWidth_ofNat_of_le_of_lt (by decide) (by omega)]

/-- A listed position is the root at its index. -/
theorem ListsRoots.toNat_pos {j : Fin 36} (hj : j.val < (chien sigma).length) :
    t.errList[j].pos.toNat = (chien sigma)[j.val] := by
  rw [h.entry, List.getD_eq_getElem _ _ (by simpa using hj)]
  simpa only [rootEntries, List.getElem_map] using toNat_pos_of_mem_chien (List.getElem_mem hj)

end

/-- With the roots of a locator listed, as many as its degree, RS.FORNEY finds every denominator non-zero and leaves the
corrections. -/
theorem exec_rsForney_of_listsRoots {c : Code} {ra rb : RegNo} {t : State}
    (hdeg : deg (t.poly ra) = some (chien (t.poly ra)).length) (h : ListsRoots (t.poly ra) t) :
    exec (.rsForney c ra rb) t = .next { t with
      errList := Vector.ofFn fun j : Fin 36 => (corrections c (t.poly rb) (t.poly ra)).getD j.val ⟨0, 0⟩
      result := BitVec.ofNat 32 (chien (t.poly ra)).length, status := statusOk } := by
  have hcnt := h.toNat_count hdeg
  have hden : ∀ e ∈ t.errEntries, forneyDen (t.poly ra) e.pos.toNat ≠ 0 := fun e he => by
    obtain ⟨j, hj, rfl⟩ := mem_errEntries.mp he
    rw [hcnt] at hj
    rw [h.toNat_pos hj]
    exact forneyDen_ne_zero hdeg (List.getElem_mem hj)
  have hlist : magnitudeEntries c ra rb t =
      Vector.ofFn fun j : Fin 36 => (corrections c (t.poly rb) (t.poly ra)).getD j.val ⟨0, 0⟩ := by
    refine Vector.ext fun j hj36 => ?_
    rw [Vector.getElem_ofFn]
    rcases Nat.lt_or_ge j (chien (t.poly ra)).length with hj | hj
    · refine (magnitudeEntries_listed (j := ⟨j, hj36⟩) (hcnt ▸ hj)).trans ?_
      rw [h.toNat_pos hj, List.getD_eq_getElem _ _ (by simpa using hj), h.entry,
        List.getD_eq_getElem _ _ (by simpa using hj)]
      simp only [rootEntries, corrections, List.getElem_map]
    · refine (magnitudeEntries_other (j := ⟨j, hj36⟩) (hcnt ▸ hj)).trans ?_
      rw [h.entry, List.getD_eq_default _ _ (by simpa using hj), List.getD_eq_default _ _ (by simpa using hj)]
  rw [exec_rsForney_nonzero hden, hlist, h.zext_count hdeg]

/-! ### RS.DEC -/

theorem statusFail_ne_statusOk (f : FailCode) : statusFail f ≠ statusOk := by cases f <;> decide

/-- RS.DEC ends with STATUS 1 only where it corrects: its locator has as many roots as its degree, and it lists their
corrections (R238). -/
theorem exec_rsDec_ok {c : Code} {s t : State} (h : exec (.rsDec c) s = .next t) (hst : t.status = statusOk) :
    let syn := syndromes (Config.params c) (wordPoly c s.sym)
    let sigma := (bm syn).sigma
    deg sigma = some (chien sigma).length ∧ t.result = BitVec.ofNat 32 (chien sigma).length ∧
      t.errCnt = BitVec.ofNat 6 (chien sigma).length ∧
      t.errList = Vector.ofFn fun j : Fin 36 => (corrections c (synPoly syn) sigma).getD j.val ⟨0, 0⟩ := by
  intro syn sigma
  rcases exec_rsDec_cases h with ⟨_, rfl⟩ | ⟨f, _, rfl⟩ | ⟨d, es, hbuf, rfl⟩
  · exact absurd hst (by decide : statusOkSynZero ≠ statusOk)
  · exact absurd hst (statusFail_ne_statusOk f)
  · obtain ⟨-, hdeg, -, -, hlen, -, -, hes⟩ := decodeBuf_corrected hbuf
    have hes : es = corrections c (synPoly syn) sigma := hes
    subst hlen hes
    rw [okWith, ok, setStatus_setResult_writeErrList, length_corrections]
    exact ⟨hdeg, rfl, rfl, rfl⟩

end Sys2Proof.Machine
end

section
/-! SUPPORT. The statements on the decoder steps (spec/42_bmcf.md R200 to R209), each from the lemmas above. -/

namespace Sys2Proof.Machine

open Sys2Proof

/-- Settles O42: Horner's method over the capacity n computes the power sums. -/
theorem rsSyndComputesTheSyndromes : Obligations.RsSyndComputesTheSyndromes := by
  intro c rd s
  refine ⟨by simp only [encode, place_codeBits, place_regBits], ?_⟩
  have hcoeffs (i : Fin 36) := (getElem_okWith_setPoly (rd := rd) (w := 0) s i).trans
    (coeff_synPoly_syndromes c s.sym i.isLt)
  by_cases hc : IsCodeword c s.sym
  · exact ⟨_, exec_rsSynd_codeword hc, onlyPolyRegister_setPoly s, hcoeffs, fun _ => ⟨rfl, rfl⟩, fun hn => absurd hc hn⟩
  · exact ⟨_, exec_rsSynd_noCodeword hc, onlyPolyRegister_setPoly s, hcoeffs, fun h => absurd h hc, fun _ => ⟨rfl, rfl⟩⟩

/-- Settles O43: the locator's constant coefficient is 1, so its degree is defined, and degree and length fit a byte. -/
theorem rsElpReportsLocatorAndLength : Obligations.RsElpReportsLocatorAndLength := by
  intro c rd ra s
  refine ⟨by simp only [encode, place_codeBits, place_regBits], ?_⟩
  obtain ⟨d, hdeg, hd, hlen⟩ := exists_deg_bm (syn := synOfReg (Config.params c).t2 (s.poly ra))
    (by simpa using params_t2_le c)
  have hrd := s.setPoly_poly rd (bm (synOfReg (Config.params c).t2 (s.poly ra))).sigma
  refine ⟨_, d, rfl, onlyPolyRegister_setPoly s, hrd, (congrArg deg hrd).trans hdeg, ?_, rfl⟩
  rw [okWith_eq, hdeg, Option.getD_some, ofNat_or_shiftLeft_eight (by omega) (by omega)]
  rfl

/-- Settles O46: the search filters the ascending positions, and the list is written whatever their number is. -/
theorem rsChienListsExactlyTheRoots : Obligations.RsChienListsExactlyTheRoots := by
  intro ra s
  refine ⟨by simp only [encode, place_regBits], fun hdeg => ?_, fun d hdeg => ?_⟩
  · rw [exec_rsChien_zero hdeg, writeErrList_nil]
    exact ⟨_, rfl, rfl, fun j => Vector.getElem_replicate j.isLt, rfl, rfl, rfl⟩
  · refine ⟨_, chien (s.poly ra), exec_rsChien_nonzero hdeg, rfl, chien_pairwise _, fun p => ?_, fun j => ?_, rfl, rfl, rfl⟩
    · rw [mem_chien]
      exact and_congr_right fun hp => by rw [alphaNeg_of_lt hp]; rfl
    · rw [Fin.getElem_fin, Vector.getElem_ofFn]
      exact List.getD_map _ 0 fun p : Nat => (⟨BitVec.ofNat 6 p, 0⟩ : ErrEntry)

/-- Settles O48: one zero denominator decides, and else each quotient times its divisor is the dividend. -/
theorem rsForneyComputesMagnitudesAtomically : Obligations.RsForneyComputesMagnitudesAtomically := by
  intro c ra rb s
  refine ⟨by simp only [encode, place_codeBits, place_regBits], ?_, fun hden => ?_⟩
  · rintro ⟨j, hj, hden⟩
    exact exec_rsForney_zero ⟨_, mem_errEntries.mpr ⟨j, hj, rfl⟩, hden⟩
  · have hall : ∀ e ∈ s.errEntries, forneyDen (s.poly ra) e.pos.toNat ≠ 0 := fun e he => by
      obtain ⟨j, hj, rfl⟩ := mem_errEntries.mp he
      exact hden j hj
    refine ⟨_, exec_rsForney_nonzero hall, rfl, fun j => ⟨magnitudeEntries_pos c ra rb s j, fun hj =>
      magnitudeEntries_other hj, fun hj => ?_⟩⟩
    show gfMul (magnitudeEntries c ra rb s)[j].mag _ = _
    rw [magnitudeEntries_mag hj]
    exact gfMul_forneyMag _ (hden j hj)

/-- Settles O55: the check of the root count leaves the locator only simple roots. -/
theorem rsDecNeverFailsForneyZero : Obligations.RsDecNeverFailsForneyZero := by
  intro c s t h hst
  rcases exec_rsDec_cases h with ⟨_, rfl⟩ | ⟨f, hbuf, rfl⟩ | ⟨d, es, _, rfl⟩
  · exact absurd hst (by decide : statusOkSynZero ≠ 0x00000402#32)
  · obtain rfl := eq_forneyZero_of_statusFail hst
    exact decodeBuf_ne_forneyZero c s.sym hbuf
  · exact absurd hst (by decide : statusOk ≠ 0x00000402#32)

/-- Settles O59: the steps hand RS.DEC's syndromes and locator on, and its checks leave RS.FORNEY nothing to refuse. -/
theorem stepPathAgreesWithDecode : Obligations.StepPathAgreesWithDecode := by
  intro c p0 p1 s d s1 s2 s3 s4 hne hdec hst h1 h2 h3 h4
  obtain ⟨hdeg, hres, hcnt, hlist⟩ := exec_rsDec_ok hdec hst
  obtain ⟨hsyn, hsigma⟩ := polys_of_exec_rsSynd_rsElp hne h1 h2
  rw [← hsigma] at hdeg hres hcnt hlist
  rw [← hsyn] at hlist
  obtain ⟨hroots, hpolys⟩ := listsRoots_of_exec_rsChien hdeg h3
  have hsame (r : RegNo) : s2.poly r = s3.poly r := congrArg (·[r]) hpolys.symm
  rw [hsame] at hdeg hres hcnt hlist hroots
  rw [hsame] at hlist
  obtain rfl := Host.Outcome.next.inj ((exec_rsForney_of_listsRoots hdeg hroots).symm.trans h4)
  exact ⟨rfl, hlist.symm, hroots.count.trans hcnt.symm, hres.symm⟩

end Sys2Proof.Machine
end

section
/-! SUPPORT. The key equation of a Reed-Solomon decoder (spec/42_bmcf.md R194, R197 to R199) over any field: the locator
and the evaluator of an error pattern solve it, no other short locator does, and the quotients of R198 are the
errors. -/

namespace Sys2Proof.Machine

open Sys2Proof Polynomial

/-! ### Solutions -/

/-- `C` is a locator of length `L` for the syndromes `S`, and `Ω` its evaluator: C·S agrees with Ω below degree n
(R197). -/
structure KeyEq {F : Type} [Field F] (n : Nat) (S C Ω : F[X]) (L : Nat) : Prop where
  constant : C.coeff 0 = 1
  natDegree_le : C.natDegree ≤ L
  degree_lt : Ω.degree < L
  dvd : X ^ n ∣ C * S - Ω

section
variable {F : Type} [Field F]

/-- A locator that makes the coefficients L..n-1 of its product with the syndromes vanish, with that product's low
part. -/
theorem keyEq_of_coeff {n L : Nat} {S C Ω : F[X]} (h0 : C.coeff 0 = 1) (hdeg : ∀ i, L < i → C.coeff i = 0)
    (hgen : ∀ k, L ≤ k → k < n → (C * S).coeff k = 0) (hΩ : ∀ k, Ω.coeff k = if k < n then (C * S).coeff k else 0) :
    KeyEq n S C Ω L where
  constant := h0
  natDegree_le := natDegree_le_iff_coeff_eq_zero.mpr hdeg
  degree_lt := (degree_lt_iff_coeff_zero _ _).mpr fun k hk => by
    rw [hΩ]
    split
    · next hkn => exact hgen k hk hkn
    · rfl
  dvd := X_pow_dvd_iff.mpr fun k hk => by rw [coeff_sub, hΩ, if_pos hk, sub_self]

/-- Zero syndromes have the locator 1. -/
theorem keyEq_zero (n : Nat) : KeyEq n (0 : F[X]) 1 0 0 where
  constant := coeff_one_zero
  natDegree_le := natDegree_one.le
  degree_lt := by simp
  dvd := by simp

/-- The locator makes the coefficients L..n-1 of its product with the syndromes vanish (R193). -/
theorem KeyEq.coeff_mul_eq_zero {n L : Nat} {S C Ω : F[X]} (h : KeyEq n S C Ω L) {k : Nat} (hL : L ≤ k) (hk : k < n) :
    (C * S).coeff k = 0 := by
  have := X_pow_dvd_iff.mp h.dvd k hk
  rwa [coeff_sub, (degree_lt_iff_coeff_zero _ _).mp h.degree_lt k hL, sub_zero] at this

/-- The product of a locator and an evaluator of these lengths ends below the sum of the lengths. -/
theorem coeff_mul_eq_zero_of_len_add_len_le {P Q : F[X]} {a b k : Nat} (hP : P.natDegree ≤ a) (hQ : Q.degree < b)
    (hk : a + b ≤ k) : (P * Q).coeff k = 0 := by
  rw [coeff_mul]
  refine Finset.sum_eq_zero fun ij hij => ?_
  have hsum := Finset.HasAntidiagonal.mem_antidiagonal.mp hij
  rcases Nat.lt_or_ge a ij.1 with hlt | hge
  · rw [natDegree_le_iff_coeff_eq_zero.mp hP _ hlt, zero_mul]
  · rw [(degree_lt_iff_coeff_zero _ _).mp hQ _ (by omega), mul_zero]

/-- Two solutions whose lengths fit below n are proportional. -/
theorem KeyEq.cross {n L L' : Nat} {S C Ω C' Ω' : F[X]} (h : KeyEq n S C Ω L) (h' : KeyEq n S C' Ω' L')
    (hn : L + L' ≤ n) : C' * Ω = C * Ω' := by
  have hdvd : X ^ n ∣ C' * Ω - C * Ω' := by
    have := dvd_sub (h'.dvd.mul_left C) (h.dvd.mul_left C')
    rwa [show C * (C' * S - Ω') - C' * (C * S - Ω) = C' * Ω - C * Ω' by ring] at this
  refine sub_eq_zero.mp (Polynomial.ext fun k => ?_)
  rcases Nat.lt_or_ge k n with hk | hk
  · exact X_pow_dvd_iff.mp hdvd k hk
  · rw [coeff_sub, coeff_mul_eq_zero_of_len_add_len_le h'.natDegree_le h.degree_lt (by omega),
      coeff_mul_eq_zero_of_len_add_len_le h.natDegree_le h'.degree_lt (by omega), sub_self, coeff_zero]

/-- A locator and its evaluator determine the syndromes below n: a locator has a constant coefficient. -/
theorem KeyEq.dvd_sub_syndromes {n L L' : Nat} {S S' C Ω : F[X]} (h : KeyEq n S C Ω L) (h' : KeyEq n S' C Ω L') :
    X ^ n ∣ S - S' := by
  refine prime_X.pow_dvd_of_dvd_mul_left n (X_dvd_iff.not.mpr (by rw [h.constant]; exact one_ne_zero)) ?_
  have := dvd_sub h.dvd h'.dvd
  rwa [show C * S - Ω - (C * S' - Ω) = C * (S - S') by ring] at this

end

/-! ### The solution an error pattern gives -/

/-- The locator of the positions `A` with locator values `x`: the product of 1 - x_p z (R194). -/
noncomputable def errorLocator {F : Type} [Field F] (A : Finset Nat) (x : Nat → F) : F[X] :=
  ∏ p ∈ A, (1 - C (x p) * X)

/-- The evaluator of the errors `e` at the positions `A` (R197). -/
noncomputable def errorEvaluator {F : Type} [Field F] (A : Finset Nat) (x e : Nat → F) : F[X] :=
  ∑ p ∈ A, C (e p * x p) * errorLocator (A.erase p) x

/-- The first `n` syndromes of the errors `e` at the positions `A`: coefficient k is the sum of e_p x_p^(k+1) (R191). -/
noncomputable def errorSyndromes {F : Type} [Field F] (A : Finset Nat) (x e : Nat → F) (n : Nat) : F[X] :=
  ∑ p ∈ A, C (e p * x p) * ∑ k ∈ Finset.range n, (C (x p) * X) ^ k

section
variable {F : Type} [Field F] {A : Finset Nat} {x e : Nat → F}

theorem coeff_errorSyndromes (n k : Nat) :
    (errorSyndromes A x e n).coeff k = if k < n then ∑ p ∈ A, e p * x p ^ (k + 1) else 0 := by
  simp only [errorSyndromes, finsetSum_coeff, coeff_C_mul, mul_pow, ← C_pow, coeff_X_pow, mul_ite, mul_one, mul_zero,
    Finset.sum_ite_eq, Finset.mem_range]
  split
  · exact Finset.sum_congr rfl fun p _ => by rw [pow_succ', mul_assoc]
  · exact Finset.sum_const_zero

/-- Syndromes of two patterns that agree below degree n are equal. -/
theorem errorSyndromes_eq_of_dvd_sub {B : Finset Nat} {y d : Nat → F} {n : Nat}
    (h : X ^ n ∣ errorSyndromes A x e n - errorSyndromes B y d n) :
    errorSyndromes A x e n = errorSyndromes B y d n := by
  ext k
  by_cases hk : k < n
  · have := X_pow_dvd_iff.mp h k hk
    rwa [coeff_sub, sub_eq_zero] at this
  · rw [coeff_errorSyndromes, coeff_errorSyndromes, if_neg hk, if_neg hk]

theorem errorLocator_eq_mul_erase {p : Nat} (hp : p ∈ A) :
    errorLocator A x = (1 - C (x p) * X) * errorLocator (A.erase p) x :=
  (Finset.mul_prod_erase A (fun p => 1 - C (x p) * X) hp).symm

theorem eval_errorLocator (y : F) : (errorLocator A x).eval y = ∏ p ∈ A, (1 - x p * y) := by
  simp [errorLocator, eval_prod]

theorem natDegree_errorLocator_le : (errorLocator A x).natDegree ≤ A.card := by
  refine (natDegree_prod_le A _).trans ?_
  rw [Finset.card_eq_sum_ones]
  refine Finset.sum_le_sum fun p _ => ?_
  compute_degree

theorem degree_errorEvaluator_lt : (errorEvaluator A x e).degree < A.card := by
  refine mem_degreeLT.mp (Submodule.sum_mem _ fun p hp => ?_)
  rw [← smul_eq_C_mul]
  refine Submodule.smul_mem _ _ (mem_degreeLT.mpr ?_)
  refine degree_le_natDegree.trans_lt (Nat.cast_lt.mpr (natDegree_errorLocator_le.trans_lt ?_))
  exact Finset.card_erase_lt_of_mem hp

/-- The key equation of an error pattern (R197): a geometric series for each error. -/
theorem keyEq_errorLocator (n : Nat) :
    KeyEq n (errorSyndromes A x e n) (errorLocator A x) (errorEvaluator A x e) A.card where
  constant := by rw [coeff_zero_eq_eval_zero, eval_errorLocator]; simp
  natDegree_le := natDegree_errorLocator_le
  degree_lt := degree_errorEvaluator_lt
  dvd := by
    rw [errorSyndromes, errorEvaluator, Finset.mul_sum, ← Finset.sum_sub_distrib]
    refine Finset.dvd_sum fun p hp => ⟨-(C (e p * x p) * errorLocator (A.erase p) x * C (x p) ^ n), ?_⟩
    have hgeom := mul_neg_geom_sum (C (x p) * X) n
    rw [errorLocator_eq_mul_erase hp]
    linear_combination (C (e p * x p) * errorLocator (A.erase p) x) * hgeom

section
variable (hx : ∀ p ∈ A, x p ≠ 0) {p : Nat} (hp : p ∈ A)

include hx hp

/-- At the inverse of a locator value only the term of its error is left of the evaluator. -/
theorem eval_errorEvaluator :
    (errorEvaluator A x e).eval (x p)⁻¹ = e p * x p * (errorLocator (A.erase p) x).eval (x p)⁻¹ := by
  rw [errorEvaluator, eval_finsetSum, Finset.sum_eq_single_of_mem p hp]
  · rw [eval_mul, eval_C]
  · intro q hq hqp
    rw [eval_mul, errorLocator_eq_mul_erase (Finset.mem_erase.mpr ⟨hqp.symm, hp⟩)]
    simp [hx p hp]

/-- The derivative of the locator there (R198). -/
theorem eval_derivative_errorLocator :
    (derivative (errorLocator A x)).eval (x p)⁻¹ = -(x p * (errorLocator (A.erase p) x).eval (x p)⁻¹) := by
  rw [errorLocator_eq_mul_erase hp]
  simp [hx p hp]

/-- Forney's formula: an error is the evaluator's value over the derivative's, up to sign (R198, R199). -/
theorem eval_errorEvaluator_eq_mul_derivative :
    (errorEvaluator A x e).eval (x p)⁻¹ = -(e p * (derivative (errorLocator A x)).eval (x p)⁻¹) := by
  rw [eval_errorEvaluator hx hp, eval_derivative_errorLocator hx hp]
  ring

theorem eval_errorLocator_inv : (errorLocator A x).eval (x p)⁻¹ = 0 := by
  rw [errorLocator_eq_mul_erase hp]
  simp [hx p hp]

end

theorem inv_injOn (hinj : Set.InjOn x A) : Set.InjOn (fun p => (x p)⁻¹) A :=
  fun _ hp _ hq h => hinj hp hq (inv_injective h)

section
variable (hx : ∀ p ∈ A, x p ≠ 0) (hinj : Set.InjOn x A)

include hx hinj

/-- Distinct locator values give the locator simple roots. -/
theorem eval_errorLocator_erase_ne_zero {p : Nat} (hp : p ∈ A) :
    (errorLocator (A.erase p) x).eval (x p)⁻¹ ≠ 0 := by
  rw [eval_errorLocator, Finset.prod_ne_zero_iff]
  intro q hq hzero
  obtain ⟨hqp, hqA⟩ := Finset.mem_erase.mp hq
  refine hqp (hinj hqA hp ?_)
  rw [← mul_one (x q), ← inv_mul_cancel₀ (hx p hp), ← mul_assoc, ← sub_eq_zero.mp hzero, one_mul]

theorem eval_derivative_errorLocator_ne_zero {p : Nat} (hp : p ∈ A) :
    (derivative (errorLocator A x)).eval (x p)⁻¹ ≠ 0 := by
  rw [eval_derivative_errorLocator hx hp]
  exact neg_ne_zero.mpr (mul_ne_zero (hx p hp) (eval_errorLocator_erase_ne_zero hx hinj hp))

/-- A polynomial with constant coefficient 1 and no more than `A.card` as its degree that has the locator's roots is the
locator: they agree at the roots and at 0. -/
theorem eq_errorLocator_of_roots {P : F[X]} (h0 : P.coeff 0 = 1) (hdeg : P.natDegree ≤ A.card)
    (hroot : ∀ p ∈ A, P.eval (x p)⁻¹ = 0) : P = errorLocator A x := by
  classical
  have hzero : (0 : F) ∉ A.image fun p => (x p)⁻¹ := fun h => by
    obtain ⟨p, hp, hp0⟩ := Finset.mem_image.mp h
    exact hx p hp (inv_eq_zero.mp hp0)
  have hcard : (insert 0 (A.image fun p => (x p)⁻¹)).card = A.card + 1 := by
    rw [Finset.card_insert_of_notMem hzero, Finset.card_image_of_injOn (inv_injOn hinj)]
  have hsmall {Q : F[X]} (hQ : Q.natDegree ≤ A.card) : Q.degree < (insert 0 (A.image fun p => (x p)⁻¹)).card := by
    rw [hcard]
    exact degree_le_natDegree.trans_lt (Nat.cast_lt.mpr (Nat.lt_succ_of_le hQ))
  refine eq_of_degrees_lt_of_eval_finset_eq _ (hsmall hdeg) (hsmall natDegree_errorLocator_le) fun y hy => ?_
  rcases Finset.mem_insert.mp hy with rfl | hy
  · rw [← coeff_zero_eq_eval_zero, ← coeff_zero_eq_eval_zero, h0, (keyEq_errorLocator (e := x) 0).constant]
  · obtain ⟨p, hp, rfl⟩ := Finset.mem_image.mp hy
    exact (hroot p hp).trans (eval_errorLocator_inv hx hp).symm

/-- With at most n/2 errors the one solution of a length that is no longer is the pattern's own (R199). -/
theorem KeyEq.eq_errorLocator {n L : Nat} {P Ω : F[X]} (h : KeyEq n (errorSyndromes A x e n) P Ω L)
    (he : ∀ p ∈ A, e p ≠ 0) (hL : L ≤ A.card) (hn : 2 * A.card ≤ n) :
    P = errorLocator A x ∧ Ω = errorEvaluator A x e := by
  have hcross := h.cross (keyEq_errorLocator n) (by omega)
  have hP : P = errorLocator A x := by
    refine eq_errorLocator_of_roots hx hinj h.constant (h.natDegree_le.trans hL) fun p hp => ?_
    have hy := congrArg (Polynomial.eval (x p)⁻¹) hcross
    rw [eval_mul, eval_mul, eval_errorLocator_inv hx hp, zero_mul, eval_errorEvaluator hx hp] at hy
    exact (mul_eq_zero.mp hy.symm).resolve_right
      (mul_ne_zero (mul_ne_zero (he p hp) (hx p hp)) (eval_errorLocator_erase_ne_zero hx hinj hp))
  refine ⟨hP, mul_left_cancel₀ (fun h0 => ?_) (hP ▸ hcross)⟩
  have := (keyEq_errorLocator (A := A) (x := x) (e := e) n).constant
  rw [h0] at this
  exact zero_ne_one this

/-- Where the locator of `A` solves the key equation and the quotients of R198 are `e`, the syndromes are those of the
errors `e` at `A`: both evaluators agree at as many points as the locator has roots. -/
theorem KeyEq.dvd_sub_errorSyndromes {n : Nat} {S Ω : F[X]} (h : KeyEq n S (errorLocator A x) Ω A.card)
    (hforney : ∀ p ∈ A, Ω.eval (x p)⁻¹ = -(e p * (derivative (errorLocator A x)).eval (x p)⁻¹)) :
    X ^ n ∣ S - errorSyndromes A x e n := by
  have hΩ : Ω = errorEvaluator A x e :=
    eq_of_degrees_lt_of_eval_index_eq A (inv_injOn hinj) h.degree_lt degree_errorEvaluator_lt fun p hp =>
      (hforney p hp).trans (eval_errorEvaluator_eq_mul_derivative hx hp).symm
  exact h.dvd_sub_syndromes (hΩ ▸ keyEq_errorLocator n)

end

end

/-! ### The shortest locator -/

section
variable {F : Type} [Field F] {S P Q : F[X]} {L M r : Nat}

/-- Massey's bound: if a locator of length `L` generates the syndromes below r but not the one at r, a locator that
generates that one too has length r + 1 - L or more: the product of both locators has no coefficient left for it. -/
theorem succ_le_len_add_len (hP : ∀ i, L < i → P.coeff i = 0) (hPgen : ∀ k, L ≤ k → k < r → (P * S).coeff k = 0)
    (hPr : (P * S).coeff r ≠ 0) (hQ0 : Q.coeff 0 ≠ 0) (hQ : ∀ i, M < i → Q.coeff i = 0)
    (hQgen : ∀ k, M ≤ k → k < r + 1 → (Q * S).coeff k = 0) : r + 1 ≤ L + M := by
  by_contra! hlt
  have hzero : (P * (Q * S)).coeff r = 0 := by
    rw [coeff_mul]
    refine Finset.sum_eq_zero fun ij hij => ?_
    have hsum := Finset.HasAntidiagonal.mem_antidiagonal.mp hij
    rcases Nat.lt_or_ge L ij.1 with hi | hi
    · rw [hP _ hi, zero_mul]
    · rw [hQgen _ (by omega) (by omega), mul_zero]
  have hvalue : (Q * (P * S)).coeff r = Q.coeff 0 * (P * S).coeff r := by
    rw [coeff_mul]
    refine Finset.sum_eq_single_of_mem (0, r) (Finset.HasAntidiagonal.mem_antidiagonal.mpr (Nat.zero_add r))
      fun ij hij hne => ?_
    have hsum := Finset.HasAntidiagonal.mem_antidiagonal.mp hij
    have hi : ij.1 ≠ 0 := fun h0 => hne (Prod.ext h0 (by omega))
    rcases Nat.lt_or_ge M ij.1 with hM | hM
    · rw [hQ _ hM, zero_mul]
    · rw [hPgen _ (by omega) (by omega), mul_zero]
  rw [mul_left_comm, hzero] at hvalue
  exact mul_ne_zero hQ0 hPr hvalue.symm

end

end Sys2Proof.Machine
end

section
/-! SUPPORT. The Berlekamp-Massey loop finds the shortest locator, and that locator solves the key equation with the
evaluator of spec/42_bmcf.md R197. -/

namespace Sys2Proof.Machine

open Sys2Proof Polynomial

/-- A step keeps the length, or a discrepancy lengthens it to r + 1 - L (R193). -/
theorem len_bmStep (s : List Elem) (b : BmState) (r : Nat) :
    (bmStep s b r).len = b.len ∨ bmDelta s b r ≠ 0 ∧ (bmStep s b r).len = r + 1 - b.len := by
  simp only [bmStep]
  split
  · exact .inl rfl
  next hdelta =>
  split
  · exact .inr ⟨hdelta, rfl⟩
  · exact .inl rfl

section
variable {F : Type} [Field F] {φ : Elem → F} (hφ : FieldView φ)

include hφ

/-- No locator that generates the syndromes below r is shorter than the loop's before step r. -/
theorem len_bmRun_le (s : List Elem) {Q : F[X]} {M : Nat} (hQ0 : Q.coeff 0 ≠ 0) (hQ : ∀ i, M < i → Q.coeff i = 0)
    {r : Nat} (hr : r ≤ 35) (hgen : ∀ k, M ≤ k → k < r → (Q * toPolynomial φ s).coeff k = 0) :
    (bmRun s r).len ≤ M := by
  induction r with
  | zero => exact Nat.zero_le M
  | succ r ih =>
    rw [bmRun_succ]
    rcases len_bmStep s (bmRun s r) r with hkeep | ⟨hdelta, hgrow⟩
    · rw [hkeep]
      exact ih (by omega) fun k hM hk => hgen k hM (by omega)
    · have h := bmInv_bmRun hφ s r (by omega)
      have hcoeff : ((bmRun s r).locator φ * toPolynomial φ s).coeff r ≠ 0 := by
        rwa [← h.map_delta hφ h.len_le, ne_eq, hφ.eq_zero_iff]
      have := succ_le_len_add_len h.deg_le h.generates hcoeff hQ0 hQ hgen
      omega

/-- The evaluator is the low part of the product of locator and syndromes (R197). -/
theorem coeff_evaluator (s : List Elem) (sigma : PolyReg) {n : Nat} (hn : n ≤ 36) (k : Nat) :
    (toPolynomial φ (evaluator (synPoly s) sigma n).toList).coeff k =
      if k < n then (toPolynomial φ sigma.toList * toPolynomial φ s).coeff k else 0 := by
  rw [coeff_toPolynomial_toList hφ]
  by_cases hk : k < n
  · rw [evaluator, coeff_polyOf _ (by omega), if_pos hk, if_pos hk, mul_comm, coeff_mul,
      Finset.Nat.sum_antidiagonal_eq_sum_range_succ_mk, hφ.sum]
    refine Finset.sum_congr rfl fun j hj => ?_
    have := Finset.mem_range.mp hj
    rw [hφ.mul, coeff_synPoly _ (by omega), coeff_toPolynomial hφ, coeff_toPolynomial_toList hφ]
  · rw [if_neg hk, ← hφ.zero]
    by_cases h36 : k < 36
    · rw [evaluator, coeff_polyOf _ h36, if_neg hk]
    · rw [coeff_of_ge _ (by omega)]

/-- The loop's locator and R197's evaluator solve the key equation. -/
theorem keyEq_bm {s : List Elem} (hs : s.length ≤ 35) :
    KeyEq s.length (toPolynomial φ s) (toPolynomial φ (bm s).sigma.toList)
      (toPolynomial φ (evaluator (synPoly s) (bm s).sigma s.length).toList) (bm s).len :=
  have h : BmInv φ s (bm s) s.length := bmInv_bmRun hφ s _ hs
  keyEq_of_coeff h.coeff_zero h.deg_le h.generates (coeff_evaluator hφ s _ (by omega))

theorem len_bm_le_of_keyEq {s : List Elem} (hs : s.length ≤ 35) {Q Ω : F[X]} {M : Nat}
    (h : KeyEq s.length (toPolynomial φ s) Q Ω M) : (bm s).len ≤ M :=
  len_bmRun_le hφ s (by rw [h.constant]; exact one_ne_zero) (natDegree_le_iff_coeff_eq_zero.mp h.natDegree_le) hs
    fun _ => h.coeff_mul_eq_zero

end

/-- A locator of length 0 generates only zero syndromes. -/
theorem allZero_of_len_bm_eq_zero {s : List Elem} (hs : s.length ≤ 16) (h : (bm s).len = 0) : allZero s = true :=
  allZero_iff_getD.mpr fun r hr => by
    have := (locatorGeneratesTheSyndromes s hs).2 r (by omega) hr
    rw [h, gfSum_zero] at this
    exact BitVec.xor_zero.symm.trans this

end Sys2Proof.Machine
end

section
/-! SUPPORT. The powers of alpha as locator values and the syndromes of a buffer as those of an error pattern
(spec/40_gf.md R136, spec/42_bmcf.md R191). -/

namespace Sys2Proof.Machine

open Sys2Proof Polynomial

/-! ### Powers of alpha -/

theorem gfMul_alphaPow (a b : Nat) : gfMul (alphaPow a) (alphaPow b) = alphaPow (a + b) := by
  have ha : a % 63 < 63 := Nat.mod_lt a (by decide)
  have hb : b % 63 < 63 := Nat.mod_lt b (by decide)
  simp only [alphaPow, Config.order]
  rw [gfMul_of_ne_zero (gfExp_ne_zero _ ha) (gfExp_ne_zero _ hb), gfLog_gfExp _ ha, gfLog_gfExp _ hb, ← Nat.add_mod]

theorem alphaPow_zero : alphaPow 0 = 1 := by decide +kernel

theorem alphaPow_ne_zero (a : Nat) : alphaPow a ≠ 0 := gfExp_ne_zero _ (Nat.mod_lt a (by decide))

theorem gfMul_alphaPow_alphaNeg (p : Nat) : gfMul (alphaPow p) (alphaNeg p) = 1 := by
  have hneg : alphaNeg p = alphaPow (63 - p % 63) := rfl
  have hsum : (p + (63 - p % 63)) % 63 = 0 := by omega
  rw [hneg, gfMul_alphaPow, alphaPow, Config.order, hsum]
  exact alphaPow_zero

/-- A power of a power, in either order. -/
theorem gfPow_alphaPow (a b : Nat) : gfPow (alphaPow a) b = alphaPow (a * b) := by
  induction b with
  | zero => exact alphaPow_zero.symm
  | succ b ih => rw [gfPow, ih, gfMul_alphaPow, Nat.mul_succ]

section
variable {F : Type} [Field F] {φ : Elem → F} (hφ : FieldView φ)

include hφ

theorem FieldView.alphaPow_pow (a b : Nat) : φ (alphaPow a) ^ b = φ (alphaPow b) ^ a := by
  rw [← hφ.pow, ← hφ.pow, gfPow_alphaPow, gfPow_alphaPow, Nat.mul_comm]

theorem FieldView.alphaPow_ne_zero (a : Nat) : φ (alphaPow a) ≠ 0 := hφ.eq_zero_iff.not.mpr (Machine.alphaPow_ne_zero a)

theorem FieldView.alphaNeg (p : Nat) : φ (alphaNeg p) = (φ (alphaPow p))⁻¹ :=
  eq_inv_of_mul_eq_one_right (by rw [← hφ.mul, gfMul_alphaPow_alphaNeg, hφ.one])

theorem FieldView.alphaPow_injOn : Set.InjOn (fun p => φ (alphaPow p)) {p | p < 63} := fun p hp q hq hpq => by
  refine alphaNeg_injOn p hp q hq (hφ.injective ?_)
  rw [hφ.alphaNeg, hφ.alphaNeg]
  exact congrArg _ hpq

end

/-! ### Syndromes -/

/-- The syndromes of the word in a buffer (R191). -/
abbrev wordSyndromes (c : Code) (sym : SymBuf) : List Elem := syndromes (Config.params c) (wordPoly c sym)

/-- Their evaluator for a locator (R197). -/
abbrev wordEvaluator (c : Code) (sym : SymBuf) (b : BmState) : PolyReg :=
  evaluator (synPoly (wordSyndromes c sym)) b.sigma (Config.params c).t2

section
variable {F : Type} [Field F] {φ : Elem → F} (hφ : FieldView φ)

include hφ

/-- A syndrome over the field, with the buffer's symbols at their degrees (R191, R232). -/
theorem FieldView.syndromeSum (c : Code) (sym : SymBuf) (i : Nat) :
    φ (syndromeSum c sym i) =
      ∑ p ∈ Finset.range (Config.params c).n, φ (coeff (wordPoly c sym) p) * φ (alphaPow p) ^ i := by
  rw [Machine.syndromeSum, hφ.sum]
  refine Finset.sum_congr rfl fun p hp => ?_
  rw [hφ.mul, hφ.pow, hφ.alphaPow_pow, coeff_wordPoly c sym (Finset.mem_range.mp hp)]

/-- The syndromes of a word are those of its symbols as errors. -/
theorem toPolynomial_wordSyndromes (c : Code) (sym : SymBuf) :
    toPolynomial φ (wordSyndromes c sym) =
      errorSyndromes (Finset.range (Config.params c).n) (fun p => φ (alphaPow p))
        (fun p => φ (coeff (wordPoly c sym) p)) (Config.params c).t2 := by
  ext k
  rw [coeff_toPolynomial hφ, coeff_errorSyndromes]
  split
  next hk => rw [getD_syndromes c sym hk, hφ.syndromeSum]
  next hk => rw [List.getD_eq_default _ _ (by rw [length_syndromes]; omega), hφ.zero]

end

end Sys2Proof.Machine
end

section
/-! SUPPORT. The generator polynomial, its remainders and the matrix GEN (spec/43_rs.md R233, R234): the remainders have
the values of the powers of x at the roots of g, and GEN stores their coefficients. -/

namespace Sys2Proof.Machine

open Sys2Proof Polynomial

/-! ### Packed storage (R49) -/

theorem packElems_cons (v : Elem) (l : List Elem) : packElems (v :: l) = packElems l * 64 + v.toNat := by
  rw [packElems, List.foldr_cons, ← packElems, ← Nat.shiftLeft_add_eq_or_of_lt v.isLt, Nat.shiftLeft_eq]

/-- Storage of six bits an entry reads back. -/
theorem ofNat_packElems (l : List Elem) (i : Nat) : BitVec.ofNat 6 (packElems l >>> (6 * i)) = l.getD i 0 := by
  induction l generalizing i with
  | nil => simp [packElems]
  | cons v l ih =>
    have hv := v.isLt
    rw [packElems_cons]
    cases i with
    | zero =>
      apply BitVec.eq_of_toNat_eq
      rw [Nat.mul_zero, Nat.shiftRight_zero, BitVec.toNat_ofNat, List.getD_cons_zero]
      omega
    | succ i =>
      have hshift : (packElems l * 64 + v.toNat) >>> 6 = packElems l := by
        rw [Nat.shiftRight_eq_div_pow]
        omega
      rw [show 6 * (i + 1) = 6 + 6 * i by omega, Nat.shiftRight_add, hshift, ih, List.getD_cons_succ]

/-- Rows of one length, one after another: column i of row j stands at j * k + i. -/
theorem getD_flatMap_rows {α : Type} (f : Nat → Nat → α) (z : α) {k i : Nat} (hi : i < k) (l : List Nat) {j : Nat}
    (hj : j < l.length) :
    (l.flatMap fun r => (List.range k).map (f r)).getD (j * k + i) z = f l[j] i := by
  induction l generalizing j with
  | nil => exact absurd hj (Nat.not_lt_zero j)
  | cons r l ih =>
    rw [List.flatMap_cons]
    cases j with
    | zero =>
      rw [Nat.zero_mul, Nat.zero_add, List.getD_append _ _ _ _ (by simpa using hi),
        List.getD_eq_getElem _ _ (by simpa using hi), List.getElem_map, List.getElem_range, List.getElem_cons_zero]
    | succ j =>
      have hidx : (j + 1) * k + i - ((List.range k).map (f r)).length = j * k + i := by
        rw [List.length_map, List.length_range, Nat.succ_mul]
        omega
      rw [List.getD_append_right _ _ _ _ (by rw [List.length_map, List.length_range, Nat.succ_mul]; omega), hidx]
      exact ih (Nat.lt_of_succ_lt_succ hj)

/-! ### Remainders (R234) -/

/-- x^e mod g, by e products by x. -/
def remainder (g : PolyReg) (t2 e : Nat) : PolyReg := (timesXMod g t2)^[e] polyOne

theorem getD_remaindersFrom (g : PolyReg) (t2 : Nat) {m e : Nat} (he : e < m) (p : PolyReg) :
    (remaindersFrom g t2 m p).getD e polyZero = (timesXMod g t2)^[e] p := by
  induction m generalizing e p with
  | zero => exact absurd he (Nat.not_lt_zero e)
  | succ m ih =>
    cases e with
    | zero => rfl
    | succ e => exact ih (Nat.lt_of_succ_lt_succ he) _

/-- GEN's entry is the coefficient of R234. -/
theorem genEntry_eq_coeff (c : Code) {i j : Nat} (hi : i < (Config.params c).k) (hj : j < (Config.params c).t2) :
    genEntry c j i = coeff (remainder (genPoly (Config.params c).t2) (Config.params c).t2 ((Config.params c).n - 1 - i))
      ((Config.params c).t2 - 1 - j) := by
  have hrom : genRom c = genRomOf (Config.params c) := by cases c <;> rfl
  have hk : 0 < (Config.params c).n := by cases c <;> decide
  rw [genEntry, hrom, genRomOf, ofNat_packElems, getD_flatMap_rows _ _ hi _ (by simpa using hj), List.getElem_range,
    remainders, getD_remaindersFrom _ _ (by omega), remainder]

theorem coeff_polyOne (i : Nat) : coeff polyOne i = if i = 0 then 1 else 0 := by
  by_cases hi : i < 36
  · exact coeff_polyOf _ hi
  · rw [coeff_of_ge _ (by omega), if_neg (by omega)]

theorem coeff_timesXMod_of_lt (g p : PolyReg) {t2 i : Nat} (ht2 : t2 ≤ 36) (hi : i < t2) :
    coeff (timesXMod g t2 p) i =
      gfAdd (if i = 0 then 0 else coeff p (i - 1)) (gfMul (coeff p (t2 - 1)) (coeff g i)) := by
  rw [timesXMod, coeff_polyOf _ (by omega), if_pos hi]

theorem coeff_timesXMod_of_le (g p : PolyReg) {t2 i : Nat} (hi : t2 ≤ i) : coeff (timesXMod g t2 p) i = 0 := by
  by_cases h36 : i < 36
  · rw [timesXMod, coeff_polyOf _ h36, if_neg (by omega)]
  · exact coeff_of_ge _ (by omega)

/-- A remainder has no coefficient from the degree of g on. -/
theorem coeff_remainder_of_le (g : PolyReg) {t2 : Nat} (ht2 : 0 < t2) (e : Nat) {i : Nat} (hi : t2 ≤ i) :
    coeff (remainder g t2 e) i = 0 := by
  cases e with
  | zero => exact (coeff_polyOne i).trans (if_neg (by omega))
  | succ e =>
    rw [remainder, Function.iterate_succ_apply']
    exact coeff_timesXMod_of_le g _ hi

section
variable {F : Type} [Field F] {φ : Elem → F} (hφ : FieldView φ)

include hφ

/-- Multiplying by x ⊕ c, where no term falls beyond index 35. -/
theorem toPolynomial_mulRoot {g : PolyReg} (hg : coeff g 35 = 0) (a : Elem) :
    toPolynomial φ (mulRoot g a).toList = (X - C (φ a)) * toPolynomial φ g.toList := by
  have := hφ.charTwo
  ext i
  rw [sub_mul, coeff_sub, coeff_C_mul, CharTwo.sub_eq_add, coeff_toPolynomial_toList hφ, coeff_toPolynomial_toList hφ,
    ← hφ.mul]
  by_cases hi : i < 36
  · rw [mulRoot, coeff_polyOf _ hi, hφ.add]
    cases i with
    | zero => rw [if_pos rfl, hφ.zero, coeff_X_mul_zero]
    | succ i => rw [if_neg (by omega), coeff_X_mul, coeff_toPolynomial_toList hφ, Nat.add_sub_cancel]
  · obtain ⟨j, rfl⟩ : ∃ j, i = j + 1 := ⟨i - 1, by omega⟩
    have hj : coeff g j = 0 := by
      rcases Nat.lt_or_ge j 36 with hj | hj
      · obtain rfl : j = 35 := by omega
        exact hg
      · exact coeff_of_ge g hj
    rw [coeff_of_ge _ (by omega), coeff_of_ge g (by omega), gfMul_zero_right, coeff_X_mul, coeff_toPolynomial_toList hφ,
      hj, hφ.zero, add_zero]

/-- The generator polynomial is the product of its linear factors (R233). -/
theorem toPolynomial_genPoly {t2 : Nat} (ht2 : t2 ≤ 35) :
    toPolynomial φ (genPoly t2).toList = ∏ i ∈ Finset.range t2, (X - C (φ (alphaPow (i + 1)))) := by
  induction t2 with
  | zero => exact toPolynomial_polyOne hφ
  | succ t2 ih =>
    have ih := ih (by omega)
    have htop : coeff (genPoly t2) 35 = 0 := by
      rw [← hφ.eq_zero_iff, ← coeff_toPolynomial_toList hφ, ih]
      refine coeff_eq_zero_of_natDegree_lt ?_
      rw [natDegree_finsetProd_X_sub_C_eq_card, Finset.card_range]
      omega
    rw [Finset.prod_range_succ, ← ih, mul_comm, ← toPolynomial_mulRoot hφ htop]
    simp [genPoly, List.range_succ]

/-- A root of the generator polynomial (R233). -/
theorem eval_toPolynomial_genPoly {t2 m : Nat} (ht2 : t2 ≤ 35) (h1 : 1 ≤ m) (hm : m ≤ t2) :
    (toPolynomial φ (genPoly t2).toList).eval (φ (alphaPow m)) = 0 := by
  rw [toPolynomial_genPoly hφ ht2, eval_prod]
  refine Finset.prod_eq_zero (Finset.mem_range.mpr (by omega : m - 1 < t2)) ?_
  rw [Nat.sub_add_cancel h1, eval_sub, eval_X, eval_C, sub_self]

/-- The generator polynomial is monic of degree t2 (R233). -/
theorem coeff_genPoly {t2 i : Nat} (ht2 : t2 ≤ 35) (hi : t2 ≤ i) :
    coeff (genPoly t2) i = if i = t2 then 1 else 0 := by
  have hdeg : (∏ i ∈ Finset.range t2, (X - C (φ (alphaPow (i + 1))))).natDegree = t2 := by
    rw [natDegree_finsetProd_X_sub_C_eq_card, Finset.card_range]
  have hmonic := monic_prod_X_sub_C (fun i => φ (alphaPow (i + 1))) (Finset.range t2)
  apply hφ.injective
  rw [← coeff_toPolynomial_toList hφ, toPolynomial_genPoly hφ ht2]
  split
  next h =>
    rw [h, hφ.one]
    nth_rw 2 [← hdeg]
    exact hmonic.coeff_natDegree
  next h => rw [coeff_eq_zero_of_natDegree_lt (by omega), hφ.zero]

/-- One step to the next remainder is the product by x less a multiple of a monic g (R234). -/
theorem toPolynomial_timesXMod {g p : PolyReg} {t2 : Nat} (h0 : 0 < t2) (h36 : t2 ≤ 36)
    (hg : ∀ i, t2 ≤ i → coeff g i = if i = t2 then 1 else 0) (hp : ∀ i, t2 ≤ i → coeff p i = 0) :
    toPolynomial φ (timesXMod g t2 p).toList =
      X * toPolynomial φ p.toList - C (φ (coeff p (t2 - 1))) * toPolynomial φ g.toList := by
  have := hφ.charTwo
  ext i
  rw [coeff_sub, coeff_C_mul, CharTwo.sub_eq_add, coeff_toPolynomial_toList hφ, coeff_toPolynomial_toList hφ, ← hφ.mul]
  rcases Nat.lt_or_ge i t2 with hi | hi
  · rw [coeff_timesXMod_of_lt g p h36 hi, hφ.add]
    cases i with
    | zero => rw [if_pos rfl, hφ.zero, coeff_X_mul_zero]
    | succ i => rw [if_neg (by omega), coeff_X_mul, coeff_toPolynomial_toList hφ, Nat.add_sub_cancel]
  · obtain ⟨j, rfl⟩ : ∃ j, i = j + 1 := ⟨i - 1, by omega⟩
    rw [coeff_timesXMod_of_le g p hi, coeff_X_mul, coeff_toPolynomial_toList hφ, hg _ hi, hφ.zero]
    split
    next h => rw [← h, Nat.add_sub_cancel, gfMul_one, CharTwo.add_self_eq_zero]
    next h => rw [hp j (by omega), gfMul_zero_right, hφ.zero, add_zero]

/-- The remainder of x^e has the value of x^e at every root of a monic g (R234). -/
theorem eval_toPolynomial_remainder {g : PolyReg} {t2 : Nat} (h0 : 0 < t2) (h36 : t2 ≤ 36)
    (hg : ∀ i, t2 ≤ i → coeff g i = if i = t2 then 1 else 0) {y : F} (hy : (toPolynomial φ g.toList).eval y = 0)
    (e : Nat) :
    (toPolynomial φ (remainder g t2 e).toList).eval y = y ^ e := by
  induction e with
  | zero =>
    rw [remainder, Function.iterate_zero_apply, toPolynomial_polyOne hφ, eval_one, pow_zero]
  | succ e ih =>
    have hstep := toPolynomial_timesXMod hφ h0 h36 hg fun i => coeff_remainder_of_le g h0 e
    rw [remainder, Function.iterate_succ_apply', ← remainder, hstep, eval_sub, eval_mul, eval_mul, eval_X, ih, hy,
      mul_zero, sub_zero, pow_succ']

/-- A column of GEN over the field, as a sum over its rows (R234). -/
theorem sum_genEntry (c : Code) {i m : Nat} (hi : i < (Config.params c).k) (h1 : 1 ≤ m)
    (hm : m ≤ (Config.params c).t2) :
    ∑ j ∈ Finset.range (Config.params c).t2, φ (genEntry c j i) * φ (alphaPow m) ^ ((Config.params c).t2 - 1 - j) =
      φ (alphaPow m) ^ ((Config.params c).n - 1 - i) := by
  have ht2 := params_t2_le c
  have h0 : 0 < (Config.params c).t2 := h1.trans hm
  set R := remainder (genPoly (Config.params c).t2) (Config.params c).t2 ((Config.params c).n - 1 - i) with hR
  have hdeg : (toPolynomial φ R.toList).natDegree ≤ (Config.params c).t2 - 1 :=
    natDegree_le_iff_coeff_eq_zero.mpr fun j hj => by
      rw [coeff_toPolynomial_toList hφ, coeff_remainder_of_le _ h0 _ (by omega), hφ.zero]
  rw [← eval_toPolynomial_remainder hφ h0 (by omega) (fun i => coeff_genPoly hφ (by omega))
    (eval_toPolynomial_genPoly hφ (by omega) h1 hm), ← hR, eval_eq_sum_range' (Nat.lt_of_le_pred h0 hdeg),
    ← Finset.sum_range_reflect]
  refine Finset.sum_congr rfl fun j hj => ?_
  have hj := Finset.mem_range.mp hj
  have hback : (Config.params c).t2 - 1 - ((Config.params c).t2 - 1 - j) = j := by omega
  rw [genEntry_eq_coeff c hi (by omega), hback, coeff_toPolynomial_toList hφ]

end

end Sys2Proof.Machine
end

section
/-! SUPPORT. What RS.ENC leaves (spec/43_rs.md R231, R236, R237): the data, and the parity that makes the buffer a
codeword. -/

namespace Sys2Proof.Machine

open Sys2Proof Polynomial

theorem params_n_eq (c : Code) : (Config.params c).n = (Config.params c).k + (Config.params c).t2 := by cases c <;> rfl

theorem symAt_of_lt (sym : SymBuf) {i : Nat} (hi : i < 36) : symAt sym i = sym[i] := dif_pos hi

theorem symAt_encodeBuf_data (c : Code) (sym : SymBuf) {i : Nat} (hi : i < (Config.params c).k) :
    symAt (encodeBuf c sym) i = symAt sym i := by
  have hn := params_n_eq c
  have hn36 := params_n_le c
  rw [symAt_of_lt _ (by omega), symAt_of_lt _ (by omega)]
  exact encodeBuf_other c sym ⟨i, by omega⟩ (by simp only; omega)

theorem symAt_encodeBuf_parity (c : Code) (sym : SymBuf) {j : Nat} (hj : j < (Config.params c).t2) :
    symAt (encodeBuf c sym) ((Config.params c).k + j) = parity c sym j := by
  have hn := params_n_eq c
  have hn36 := params_n_le c
  rw [symAt_of_lt _ (by omega)]
  refine (encodeBuf_parity c sym ⟨(Config.params c).k + j, by omega⟩ (by simp) (by simp only; omega)).trans ?_
  rw [Nat.add_sub_cancel_left]

section
variable {F : Type} [Field F] {φ : Elem → F} (hφ : FieldView φ)

include hφ

/-- A syndrome as the sum over the buffer's slots, the first one of the highest degree (R191, R232). -/
theorem FieldView.syndromeSum_slots (c : Code) (sym : SymBuf) (m : Nat) :
    φ (Machine.syndromeSum c sym m) =
      ∑ i ∈ Finset.range (Config.params c).n, φ (symAt sym i) * φ (alphaPow m) ^ ((Config.params c).n - 1 - i) := by
  rw [Machine.syndromeSum, hφ.sum, ← Finset.sum_range_reflect]
  refine Finset.sum_congr rfl fun i hi => ?_
  have hi := Finset.mem_range.mp hi
  have hback : (Config.params c).n - 1 - ((Config.params c).n - 1 - i) = i := by omega
  rw [hφ.mul, hφ.pow, hback]

/-- The parity slots contribute to a syndrome what the data slots do (R234, R236). -/
theorem sum_parity (c : Code) (sym : SymBuf) {m : Nat} (h1 : 1 ≤ m) (hm : m ≤ (Config.params c).t2) :
    ∑ j ∈ Finset.range (Config.params c).t2, φ (parity c sym j) * φ (alphaPow m) ^ ((Config.params c).t2 - 1 - j) =
      ∑ i ∈ Finset.range (Config.params c).k, φ (symAt sym i) * φ (alphaPow m) ^ ((Config.params c).n - 1 - i) := by
  simp only [parity, hφ.sum, hφ.mul, Finset.sum_mul]
  rw [Finset.sum_comm]
  refine Finset.sum_congr rfl fun i hi => ?_
  rw [← sum_genEntry hφ c (Finset.mem_range.mp hi) h1 hm, Finset.mul_sum]
  exact Finset.sum_congr rfl fun j _ => by ring

end

/-- After RS.ENC every syndrome is 0: data and parity contribute the same (R237). -/
theorem isCodeword_encodeBuf (c : Code) (sym : SymBuf) : IsCodeword c (encodeBuf c sym) := by
  obtain ⟨F, _, φ, hφ⟩ := exists_fieldView
  have := hφ.charTwo
  intro m h1 hm
  have hdata : ∀ i ∈ Finset.range (Config.params c).k,
      φ (symAt (encodeBuf c sym) i) * φ (alphaPow m) ^ ((Config.params c).n - 1 - i) =
        φ (symAt sym i) * φ (alphaPow m) ^ ((Config.params c).n - 1 - i) := fun i hi => by
    rw [symAt_encodeBuf_data c sym (Finset.mem_range.mp hi)]
  have hparity : ∀ j ∈ Finset.range (Config.params c).t2,
      φ (symAt (encodeBuf c sym) ((Config.params c).k + j)) *
        φ (alphaPow m) ^ ((Config.params c).n - 1 - ((Config.params c).k + j)) =
      φ (parity c sym j) * φ (alphaPow m) ^ ((Config.params c).t2 - 1 - j) := fun j hj => by
    have hexp : (Config.params c).n - 1 - ((Config.params c).k + j) = (Config.params c).t2 - 1 - j := by
      have := params_n_eq c
      omega
    rw [symAt_encodeBuf_parity c sym (Finset.mem_range.mp hj), hexp]
  rw [← hφ.eq_zero_iff, hφ.syndromeSum_slots, params_n_eq c, Finset.sum_range_add, ← params_n_eq c,
    Finset.sum_congr rfl hdata, Finset.sum_congr rfl hparity, sum_parity hφ c sym h1 hm, CharTwo.add_self_eq_zero]

/-! ### Linearity (R237) -/

theorem getElem_addBuf (x y : SymBuf) (i : Fin 36) : (addBuf x y)[i] = gfAdd x[i] y[i] :=
  Vector.getElem_ofFn i.isLt

theorem symAt_addBuf (x y : SymBuf) (i : Nat) : symAt (addBuf x y) i = gfAdd (symAt x i) (symAt y i) := by
  by_cases hi : i < 36
  · rw [symAt_of_lt _ hi, symAt_of_lt _ hi, symAt_of_lt _ hi]
    exact getElem_addBuf x y ⟨i, hi⟩
  · simp [symAt, hi, gfAdd]

theorem parity_addBuf (c : Code) (x y : SymBuf) (j : Nat) :
    parity c (addBuf x y) j = gfAdd (parity c x j) (parity c y j) := by
  simp only [parity, symAt_addBuf, gfMul_gfAdd, gfSum_gfAdd]

theorem encodeBuf_addBuf (c : Code) (x y : SymBuf) :
    encodeBuf c (addBuf x y) = addBuf (encodeBuf c x) (encodeBuf c y) := by
  refine Vector.ext fun i hi => ?_
  have hslot : (encodeBuf c (addBuf x y))[(⟨i, hi⟩ : Fin 36)] =
      gfAdd (encodeBuf c x)[(⟨i, hi⟩ : Fin 36)] (encodeBuf c y)[(⟨i, hi⟩ : Fin 36)] := by
    by_cases h : (Config.params c).k ≤ i ∧ i < (Config.params c).n
    · rw [encodeBuf_parity c _ _ h.1 h.2, encodeBuf_parity c _ _ h.1 h.2, encodeBuf_parity c _ _ h.1 h.2, parity_addBuf]
    · rw [encodeBuf_other c _ _ h, encodeBuf_other c _ _ h, encodeBuf_other c _ _ h, getElem_addBuf]
  exact hslot.trans (getElem_addBuf _ _ ⟨i, hi⟩).symm

/-! ### RS.ENC (R236) -/

theorem exec_rsEnc (c : Code) (s : State) :
    exec (.rsEnc c) s = .next { s with sym := encodeBuf c s.sym, result := 0, status := statusOk } := by
  rw [exec, execRsEnc, okWith_eq, State.setSym]

theorem sym_of_exec_rsEnc {c : Code} {s t : State} (h : exec (.rsEnc c) s = .next t) : t.sym = encodeBuf c s.sym := by
  obtain rfl := Host.Outcome.next.inj h
  rfl

end Sys2Proof.Machine
end

section
/-! SUPPORT. What the corrections of an error list do to the buffer (spec/43_rs.md R238, R240, R246). -/

namespace Sys2Proof.Machine

open Sys2Proof

/-! ### The entries at one position -/

/-- The value `v` with every entry listed at position `p` added to it. -/
def addListed (es : List ErrEntry) (p : Nat) (v : Elem) : Elem :=
  es.foldl (fun v e => if e.pos.toNat = p then gfAdd v e.mag else v) v

theorem addListed_cons (e : ErrEntry) (es : List ErrEntry) (p : Nat) (v : Elem) :
    addListed (e :: es) p v = addListed es p (if e.pos.toNat = p then gfAdd v e.mag else v) := rfl

theorem addListed_of_notListed {es : List ErrEntry} {p : Nat} (h : ∀ e ∈ es, e.pos.toNat ≠ p) (v : Elem) :
    addListed es p v = v := by
  induction es with
  | nil => rfl
  | cons e es ih =>
    obtain ⟨he, hes⟩ := List.forall_mem_cons.mp h
    rw [addListed_cons, if_neg he, ih hes]

/-- Where the positions ascend, one entry at most is added. -/
theorem addListed_of_mem {es : List ErrEntry} (hasc : es.Pairwise fun a b => a.pos.toNat < b.pos.toNat)
    {pos : BitVec 6} {mag : Elem} (he : ⟨pos, mag⟩ ∈ es) (v : Elem) : addListed es pos.toNat v = gfAdd v mag := by
  induction es with
  | nil => cases he
  | cons a es ih =>
    obtain ⟨ha, hes⟩ := List.pairwise_cons.mp hasc
    rw [addListed_cons]
    rcases List.mem_cons.mp he with rfl | hmem
    · rw [if_pos rfl]
      exact addListed_of_notListed (fun b hb => (ha b hb).ne') _
    · rw [if_neg (ha _ hmem).ne, ih hes hmem]

/-! ### The corrected buffers -/

theorem coeff_applyCorrections (es : List ErrEntry) {p : Nat} (hp : p < 36) (r : PolyReg) :
    coeff (applyCorrections r es) p = addListed es p (coeff r p) := by
  induction es generalizing r with
  | nil => rfl
  | cons e es ih =>
    rw [applyCorrections, List.foldl_cons, ← applyCorrections, ih, addListed_cons]
    congr 1
    by_cases he : e.pos.toNat < 36
    · rw [coeff_setCoeff r he]
      by_cases h : e.pos.toNat = p
      · rw [if_pos h.symm, if_pos h, h]
      · rw [if_neg (Ne.symm h), if_neg h]
    · rw [setCoeff, dif_neg he, if_neg (by omega)]

/-- A data slot after a successful decode (R240). -/
theorem correctBuf_data (c : Code) (sym : SymBuf) (es : List ErrEntry) (i : Fin 36) (hi : i.val < (Config.params c).k) :
    (correctBuf c sym es)[i] = addListed es ((Config.params c).n - 1 - i.val) sym[i] := by
  have hn := params_n_eq c
  have hn36 := params_n_le c
  have hback : (Config.params c).n - 1 - ((Config.params c).n - 1 - i.val) = i.val := by omega
  rw [Fin.getElem_fin, correctBuf, Vector.getElem_ofFn, if_pos hi, coeff_applyCorrections _ (by omega),
    coeff_wordPoly c sym (by omega), hback, symAt_of_lt _ i.isLt]
  rfl

/-- A symbol of the whole corrected word, by its degree (R246). -/
theorem coeff_wordPoly_correctedWord (c : Code) (sym : SymBuf) (es : List ErrEntry) {p : Nat}
    (hp : p < (Config.params c).n) :
    coeff (wordPoly c (correctedWord c sym es)) p = addListed es p (coeff (wordPoly c sym) p) := by
  have hn36 := params_n_le c
  have hpos (e : ErrEntry) :
      e.pos.toNat + ((Config.params c).n - 1 - p) + 1 = (Config.params c).n ↔ e.pos.toNat = p := by omega
  rw [coeff_wordPoly c _ hp, coeff_wordPoly c _ hp, symAt_of_lt _ (by omega), symAt_of_lt _ (by omega), correctedWord,
    Vector.getElem_ofFn, addListed]
  simp only [hpos]
  rfl

theorem correctedWord_nil (c : Code) (sym : SymBuf) : correctedWord c sym [] = sym :=
  Vector.ext fun _ hi => Vector.getElem_ofFn hi

/-! ### The entries of a locator's roots -/

theorem corrections_pairwise {c : Code} {sigma : PolyReg} {d : Nat} (h : deg sigma = some d) (syn : PolyReg) :
    (corrections c syn sigma).Pairwise fun a b => a.pos.toNat < b.pos.toNat := by
  obtain ⟨-, -, hasc⟩ := legalEntries_chien h (forneyMag (evaluator syn sigma (Config.params c).t2) sigma)
  exact hasc

theorem mem_corrections {c : Code} {syn sigma : PolyReg} {e : ErrEntry} (he : e ∈ corrections c syn sigma) :
    e.pos.toNat ∈ chien sigma := by
  obtain ⟨p, hp, rfl⟩ := List.mem_map.mp he
  rwa [toNat_pos_of_mem_chien hp]

/-- At a root position the corrections add the root's magnitude, and elsewhere nothing. -/
theorem addListed_corrections {c : Code} {syn sigma : PolyReg} {d : Nat} (h : deg sigma = some d) (p : Nat) (v : Elem) :
    addListed (corrections c syn sigma) p v =
      gfAdd v (if p ∈ chien sigma then forneyMag (evaluator syn sigma (Config.params c).t2) sigma p else 0) := by
  by_cases hp : p ∈ chien sigma
  · rw [if_pos hp, ← addListed_of_mem (corrections_pairwise h syn) (List.mem_map.mpr ⟨p, hp, rfl⟩) v,
      toNat_pos_of_mem_chien hp]
  · rw [if_neg hp, addListed_of_notListed fun e he (heq : e.pos.toNat = p) => hp (heq ▸ mem_corrections he)]
    exact BitVec.xor_zero.symm

/-- The valid entries of a list just written are the list (R205). -/
theorem errEntries_of_written {t : State} {l : List ErrEntry} (hlen : l.length ≤ 36)
    (hcnt : t.errCnt = BitVec.ofNat 6 l.length)
    (hlist : t.errList = Vector.ofFn fun j : Fin 36 => l.getD j.val ⟨0, 0⟩) : t.errEntries = l := by
  have hnat : t.errCnt.toNat = l.length := by
    rw [hcnt, BitVec.toNat_ofNat]
    omega
  rw [State.errEntries, hnat, hlist]
  refine List.ext_getElem (by simpa using hlen) fun i h1 h2 => ?_
  rw [List.getElem_take, Vector.getElem_toList, Vector.getElem_ofFn, List.getD_eq_getElem _ _ h2]

end Sys2Proof.Machine
end

section
/-! SUPPORT. The checks of RS.DEC one by one (spec/43_rs.md R238, R243, R244), the outcome of the buffer each leads to,
and the state each outcome leaves. -/

namespace Sys2Proof.Machine

open Sys2Proof

/-! ### The checks -/

theorem decodeBuf_clean {c : Code} {sym : SymBuf} (h : IsCodeword c sym) : decodeBuf c sym = .clean :=
  if_pos ((allZero_syndromes_iff c sym).mpr h)

theorem isCodeword_of_decodeBuf_clean {c : Code} {sym : SymBuf} (h : decodeBuf c sym = .clean) : IsCodeword c sym := by
  by_contra hword
  unfold decodeBuf at h
  simp only at h
  rw [if_neg ((allZero_syndromes_iff c sym).not.mpr hword)] at h
  split at h
  · cases h
  split_ifs at h

section
variable {c : Code} {sym : SymBuf} {b : BmState} (hb : b = bm (wordSyndromes c sym)) (hword : ¬ IsCodeword c sym)

include hb hword

/-- A locator of another degree than its length, or too long a one (R243). -/
theorem decodeBuf_locatorInvalid (h : deg b.sigma ≠ some b.len ∨ (Config.params c).t < b.len) :
    decodeBuf c sym = .failed .locatorInvalid := by
  subst hb
  unfold decodeBuf
  simp only
  rw [if_neg ((allZero_syndromes_iff c sym).not.mpr hword)]
  split
  · rfl
  next d hd =>
    rw [hd] at h
    exact if_pos (h.imp_left fun hne heq => hne (congrArg some heq))

variable (hdeg : deg b.sigma = some b.len) (hlen : b.len ≤ (Config.params c).t)

include hdeg hlen

/-- With a valid locator the outcome is decided by its roots. -/
theorem decodeBuf_of_valid_locator :
    decodeBuf c sym =
      if (chien b.sigma).length ≠ b.len then .failed .rootMismatch
      else if (chien b.sigma).any fun p => forneyDen b.sigma p == 0 then .failed .forneyZero
      else if (chien b.sigma).any fun p => decide ((Config.params c).n ≤ p) then .failed .positionOob
      else .corrected b.len (corrections c (synPoly (wordSyndromes c sym)) b.sigma) := by
  subst hb
  unfold decodeBuf
  simp only
  rw [if_neg ((allZero_syndromes_iff c sym).not.mpr hword), hdeg]
  exact if_neg (not_or.mpr ⟨not_not.mpr rfl, Nat.not_lt.mpr hlen⟩)

theorem decodeBuf_rootMismatch (h : (chien b.sigma).length ≠ b.len) : decodeBuf c sym = .failed .rootMismatch := by
  rw [decodeBuf_of_valid_locator hb hword hdeg hlen, if_pos h]

variable (hroots : (chien b.sigma).length = b.len)

include hroots

/-- With as many roots as the degree no denominator is 0, and the positions decide. -/
theorem decodeBuf_of_roots :
    decodeBuf c sym =
      if (chien b.sigma).any fun p => decide ((Config.params c).n ≤ p) then .failed .positionOob
      else .corrected b.len (corrections c (synPoly (wordSyndromes c sym)) b.sigma) := by
  rw [decodeBuf_of_valid_locator hb hword hdeg hlen, if_neg (not_not.mpr hroots), if_neg]
  rw [← hroots] at hdeg
  simpa only [List.any_eq_true, beq_iff_eq, not_exists, not_and] using fun p hp => forneyDen_ne_zero hdeg hp

theorem decodeBuf_positionOob (h : ∃ p ∈ chien b.sigma, (Config.params c).n ≤ p) :
    decodeBuf c sym = .failed .positionOob := by
  rw [decodeBuf_of_roots hb hword hdeg hlen hroots, if_pos]
  simpa only [List.any_eq_true, decide_eq_true_eq] using h

theorem decodeBuf_corrects (h : ∀ p ∈ chien b.sigma, p < (Config.params c).n) :
    decodeBuf c sym = .corrected b.len (corrections c (synPoly (wordSyndromes c sym)) b.sigma) := by
  rw [decodeBuf_of_roots hb hword hdeg hlen hroots, if_neg]
  simpa only [List.any_eq_true, decide_eq_true_eq, not_exists, not_and, Nat.not_le] using h

end

/-! ### A decode that corrects -/

/-- The magnitude of R198 at a position, for the syndromes of a buffer and a locator. -/
def magnitudeAt (c : Code) (sym : SymBuf) (b : BmState) (p : Nat) : Elem := forneyMag (wordEvaluator c sym b) b.sigma p

/-- What a decode that corrects has found: a locator `b` of the syndromes with all its roots in the word, and the list
`es` of their corrections. -/
structure Corrects (c : Code) (sym : SymBuf) (b : BmState) (es : List ErrEntry) : Prop where
  locator : b = bm (wordSyndromes c sym)
  degree : deg b.sigma = some b.len
  roots : (chien b.sigma).length = b.len
  count_pos : 1 ≤ b.len
  count_le : b.len ≤ (Config.params c).t
  pos_lt : ∀ p ∈ chien b.sigma, p < (Config.params c).n
  entries : es = corrections c (synPoly (wordSyndromes c sym)) b.sigma

theorem corrects_of_decodeBuf {c : Code} {sym : SymBuf} {d : Nat} {es : List ErrEntry}
    (h : decodeBuf c sym = .corrected d es) : ∃ b, Corrects c sym b es ∧ d = b.len := by
  obtain ⟨hzero, hdeg, hlen, hle, hroots, -, hpos, hes⟩ := decodeBuf_corrected h
  refine ⟨_, ⟨rfl, hlen ▸ hdeg, hroots.trans hlen, Nat.one_le_iff_ne_zero.mpr fun h0 => ?_, hle, hpos, hes⟩, hlen⟩
  have hall := allZero_of_len_bm_eq_zero (by rw [length_syndromes]; exact params_t2_le c) h0
  exact Bool.false_ne_true (hzero.symm.trans hall)

section
variable {c : Code} {sym : SymBuf} {b : BmState} {es : List ErrEntry} (h : Corrects c sym b es)

include h

theorem Corrects.length_entries : es.length = b.len := by
  rw [h.entries, length_corrections, h.roots]

theorem Corrects.length_le : es.length ≤ 8 := by
  have ht : (Config.params c).t ≤ 8 := by cases c <;> decide
  exact h.length_entries.trans_le (h.count_le.trans ht)

theorem Corrects.legalEntries : LegalEntries es := by
  rw [h.entries]
  exact legalEntries_chien h.degree _

theorem Corrects.pairwise_entries : es.Pairwise fun a b => a.pos.toNat < b.pos.toNat := by
  obtain ⟨-, -, hasc⟩ := h.legalEntries
  exact hasc

theorem Corrects.pos_entry_lt {e : ErrEntry} (he : e ∈ es) : e.pos.toNat < (Config.params c).n := by
  rw [h.entries] at he
  exact h.pos_lt _ (mem_corrections he)

/-- At a root position the entries add the root's magnitude, and elsewhere nothing. -/
theorem Corrects.addListed (p : Nat) (v : Elem) :
    addListed es p v = gfAdd v (if p ∈ chien b.sigma then magnitudeAt c sym b p else 0) := by
  rw [h.entries, addListed_corrections h.degree]
  rfl

end

/-! ### The states RS.DEC leaves (R238, R240, R241) -/

theorem exec_rsDec_clean {c : Code} {s : State} (h : decodeBuf c s.sym = .clean) :
    exec (.rsDec c) s = .next { s with
      errList := Vector.replicate 36 ⟨0, 0⟩, errCnt := 0, result := 0, status := statusOkSynZero } := by
  rw [exec, execRsDec, h]
  simp only [writeErrList_nil]
  rfl

theorem exec_rsDec_failed {c : Code} {s : State} {f : FailCode} (h : decodeBuf c s.sym = .failed f) :
    exec (.rsDec c) s = .next { s with
      errList := Vector.replicate 36 ⟨0, 0⟩, errCnt := 0, result := 0, status := statusFail f } := by
  rw [exec, execRsDec, h]
  simp only [decFail, writeErrList_nil]
  rfl

/-- The state a decode that corrects leaves (R240). -/
def correctedState (c : Code) (s : State) (d : Nat) (es : List ErrEntry) : State :=
  { s with
    sym := correctBuf c s.sym es, errList := Vector.ofFn fun j : Fin 36 => es.getD j.val ⟨0, 0⟩
    errCnt := BitVec.ofNat 6 es.length, result := BitVec.ofNat 32 d, status := statusOk }

theorem exec_rsDec_corrected {c : Code} {s : State} {d : Nat} {es : List ErrEntry}
    (h : decodeBuf c s.sym = .corrected d es) : exec (.rsDec c) s = .next (correctedState c s d es) := by
  rw [exec, execRsDec, h]
  simp only [okWith, ok, setStatus_setResult_writeErrList, State.setSym, correctedState]

theorem statusOK_statusFail (f : FailCode) : statusOK (statusFail f) = false := by cases f <;> decide

/-- RS.DEC reports OK only where it finds a codeword or corrects. -/
theorem corrects_of_statusOK {c : Code} {s t : State} (h : exec (.rsDec c) s = .next t)
    (hok : statusOK t.status = true) :
    IsCodeword c s.sym ∧ t.errCnt = 0 ∧ t.status = statusOkSynZero ∨
      ∃ b es, Corrects c s.sym b es ∧ t = correctedState c s b.len es := by
  cases hbuf : decodeBuf c s.sym with
  | clean =>
    obtain rfl := Host.Outcome.next.inj ((exec_rsDec_clean hbuf).symm.trans h)
    exact .inl ⟨isCodeword_of_decodeBuf_clean hbuf, rfl, rfl⟩
  | failed f =>
    obtain rfl := Host.Outcome.next.inj ((exec_rsDec_failed hbuf).symm.trans h)
    exact absurd ((statusOK_statusFail f).symm.trans hok) Bool.false_ne_true
  | corrected d es =>
    obtain ⟨b, hb, rfl⟩ := corrects_of_decodeBuf hbuf
    exact .inr ⟨b, es, hb, Host.Outcome.next.inj (h.symm.trans (exec_rsDec_corrected hbuf))⟩

/-- RS.DEC ends with STATUS 1 only where it corrects. -/
theorem corrects_of_exec_rsDec {c : Code} {s t : State} (h : exec (.rsDec c) s = .next t) (hst : t.status = statusOk) :
    ∃ b es, Corrects c s.sym b es ∧ t = correctedState c s b.len es := by
  rcases corrects_of_statusOK h (by rw [hst]; decide) with ⟨_, _, hzero⟩ | hb
  · exact absurd (hzero.symm.trans hst) (by decide)
  · exact hb

section
variable {c : Code} {s t : State} {b : BmState} {es : List ErrEntry} (h : Corrects c s.sym b es)
  (ht : t = correctedState c s b.len es)

include h ht

theorem Corrects.toNat_errCnt : t.errCnt.toNat = b.len := by
  have := h.length_le
  have := h.length_entries
  rw [ht, correctedState, BitVec.toNat_ofNat]
  omega

theorem Corrects.result_eq : t.result = zext t.errCnt := by
  have := h.length_le
  rw [ht, correctedState, zext, ← h.length_entries, BitVec.setWidth_ofNat_of_le_of_lt (by decide) (by omega)]

theorem Corrects.errList_mem {j : Fin 36} (hj : j.val < t.errCnt.toNat) : t.errList[j] ∈ es := by
  rw [h.toNat_errCnt ht, ← h.length_entries] at hj
  rw [ht, correctedState, Fin.getElem_fin, Vector.getElem_ofFn, List.getD_eq_getElem _ _ hj]
  exact List.getElem_mem hj

theorem Corrects.exists_errList {e : ErrEntry} (he : e ∈ es) :
    ∃ j : Fin 36, j.val < t.errCnt.toNat ∧ t.errList[j] = e := by
  have := h.length_le
  obtain ⟨j, hj, rfl⟩ := List.mem_iff_getElem.mp he
  refine ⟨⟨j, by omega⟩, by rwa [h.toNat_errCnt ht, ← h.length_entries], ?_⟩
  rw [ht, correctedState, Fin.getElem_fin, Vector.getElem_ofFn, List.getD_eq_getElem _ _ hj]

theorem Corrects.errListLegal : errListLegal t := by
  refine errListLegal_of_same (errListLegal_writeErrList h.legalEntries s) ?_ ?_
  · rw [ht, correctedState, writeErrList_eq]
  · rw [ht, correctedState, writeErrList_eq]

theorem Corrects.errEntries : t.errEntries = es := by
  have := h.length_le
  exact errEntries_of_written (by omega) (by rw [ht, correctedState]) (by rw [ht, correctedState])

/-- A slot of the corrected buffer whose position is listed (R240). -/
theorem Corrects.sym_listed {i j : Fin 36} (hi : i.val < (Config.params c).k) (hj : j.val < t.errCnt.toNat)
    (hpos : t.errList[j].pos.toNat = (Config.params c).n - 1 - i.val) : t.sym[i] = s.sym[i] ^^^ t.errList[j].mag := by
  have hsym : t.sym = correctBuf c s.sym es := by rw [ht, correctedState]
  rw [hsym, correctBuf_data c s.sym es i hi, ← hpos]
  exact addListed_of_mem h.pairwise_entries (h.errList_mem ht hj) s.sym[i]

/-- Any other slot (R240). -/
theorem Corrects.sym_other {i : Fin 36} (hi : (Config.params c).k ≤ i.val ∨
    ∀ j : Fin 36, j.val < t.errCnt.toNat → t.errList[j].pos.toNat ≠ (Config.params c).n - 1 - i.val) :
    t.sym[i] = s.sym[i] := by
  have hsym : t.sym = correctBuf c s.sym es := by rw [ht, correctedState]
  rw [hsym]
  rcases Nat.lt_or_ge i.val (Config.params c).k with hik | hik
  · rw [correctBuf_data c s.sym es i hik]
    refine addListed_of_notListed (fun e he => ?_) s.sym[i]
    obtain ⟨j, hj, rfl⟩ := h.exists_errList ht he
    exact hi.resolve_left (by omega) j hj
  · exact correctBuf_other c s.sym es i hik

end

end Sys2Proof.Machine
end

section
/-! SUPPORT. RS.DEC on a word with errors (spec/42_bmcf.md R199, spec/43_rs.md R243, R245, R246): what it corrects is an
error pattern whose syndromes are the received ones, and up to t errors it finds the pattern that happened. -/

namespace Sys2Proof.Machine

open Sys2Proof Polynomial

/-! ### Positions as locator values -/

theorem card_toFinset_chien (sigma : PolyReg) : (chien sigma).toFinset.card = (chien sigma).length :=
  List.toFinset_card_of_nodup ((chien_pairwise sigma).imp Nat.ne_of_lt)

section
variable {F : Type} [Field F] {φ : Elem → F} (hφ : FieldView φ)

include hφ

theorem FieldView.alphaPow_injOn_positions {A : Finset Nat} (hA : ∀ p ∈ A, p < 63) :
    Set.InjOn (fun p => φ (alphaPow p)) A := hφ.alphaPow_injOn.mono fun p hp => hA p hp

/-- The roots of the locator of some positions are those positions (R195). -/
theorem mem_chien_of_errorLocator {sigma : PolyReg} {A : Finset Nat} (hA : ∀ p ∈ A, p < 63)
    (h : toPolynomial φ sigma.toList = errorLocator A fun p => φ (alphaPow p)) {p : Nat} : p ∈ chien sigma ↔ p ∈ A := by
  rw [mem_chien, ← hφ.eq_zero_iff, ← eval_toPolynomial_toList hφ, h, eval_errorLocator, hφ.alphaNeg]
  constructor
  · rintro ⟨hp, hzero⟩
    obtain ⟨q, hq, hqp⟩ := Finset.prod_eq_zero_iff.mp hzero
    have := mul_eq_one_iff_eq_inv₀ (inv_ne_zero (hφ.alphaPow_ne_zero p)) |>.mp (sub_eq_zero.mp hqp).symm
    rw [inv_inv] at this
    rwa [← hφ.alphaPow_injOn (hA q hq) hp this]
  · intro hp
    refine ⟨hA p hp, Finset.prod_eq_zero hp ?_⟩
    rw [mul_inv_cancel₀ (hφ.alphaPow_ne_zero p), sub_self]

/-- A locator with constant coefficient 1 and as many root positions as its degree is the locator of those positions. -/
theorem toPolynomial_eq_errorLocator_chien {sigma : PolyReg} (h0 : coeff sigma 0 = 1)
    (h : deg sigma = some (chien sigma).length) :
    toPolynomial φ sigma.toList = errorLocator (chien sigma).toFinset fun p => φ (alphaPow p) := by
  refine eq_errorLocator_of_roots (fun p _ => hφ.alphaPow_ne_zero p)
    (hφ.alphaPow_injOn_positions fun p hp => (mem_chien.mp (List.mem_toFinset.mp hp)).1) ?_ ?_ fun p hp => ?_
  · rw [coeff_toPolynomial_toList hφ, h0, hφ.one]
  · rw [card_toFinset_chien]
    exact natDegree_toPolynomial_le hφ h
  · rw [← hφ.alphaNeg, eval_toPolynomial_toList hφ, (mem_chien.mp (List.mem_toFinset.mp hp)).2, hφ.zero]

/-- The magnitude of R198 times the derivative's value is the evaluator's value. -/
theorem map_forneyMag_mul {omega sigma : PolyReg} {p : Nat} (h : forneyDen sigma p ≠ 0) :
    φ (forneyMag omega sigma p) * (derivative (toPolynomial φ sigma.toList)).eval (φ (alphaPow p))⁻¹ =
      (toPolynomial φ omega.toList).eval (φ (alphaPow p))⁻¹ := by
  rw [← hφ.alphaNeg, ← toPolynomial_deriv hφ, eval_toPolynomial_toList hφ, eval_toPolynomial_toList hφ, ← hφ.mul]
  exact congrArg φ (gfMul_forneyMag omega h)

/-! ### Codewords -/

/-- A buffer is a codeword exactly if its syndromes are the zero polynomial. -/
theorem isCodeword_iff_toPolynomial (c : Code) (sym : SymBuf) :
    IsCodeword c sym ↔ toPolynomial φ (wordSyndromes c sym) = 0 := by
  rw [← allZero_syndromes_iff, allZero_iff_getD, Polynomial.ext_iff]
  simp only [coeff_toPolynomial hφ, Polynomial.coeff_zero, hφ.eq_zero_iff]
  exact ⟨fun h i => if hi : i < (wordSyndromes c sym).length then h i hi else
    List.getD_eq_default _ _ (Nat.not_lt.mp hi), fun h i _ => h i⟩

end

/-! ### Words that differ by an error pattern -/

/-- The word in `y` is the word in `x` with the errors `e` added at the positions `A`. -/
structure AddsErrors (c : Code) (x y : SymBuf) (A : Finset Nat) (e : Nat → Elem) : Prop where
  pos_lt : ∀ p ∈ A, p < (Config.params c).n
  symbol : ∀ p < (Config.params c).n,
    coeff (wordPoly c y) p = gfAdd (coeff (wordPoly c x) p) (if p ∈ A then e p else 0)

section
variable {c : Code} {x y : SymBuf} {A : Finset Nat} {e : Nat → Elem} (h : AddsErrors c x y A e)

include h

theorem AddsErrors.pos_lt_order {p : Nat} (hp : p ∈ A) : p < 63 :=
  (h.pos_lt p hp).trans_le ((params_n_le c).trans (by decide))

/-- The syndromes of the sum are the sum of the syndromes (R191). -/
theorem AddsErrors.toPolynomial_syndromes {F : Type} [Field F] {φ : Elem → F} (hφ : FieldView φ) :
    toPolynomial φ (wordSyndromes c y) =
      toPolynomial φ (wordSyndromes c x) +
        errorSyndromes A (fun p => φ (alphaPow p)) (fun p => φ (e p)) (Config.params c).t2 := by
  have hsub : A ⊆ Finset.range (Config.params c).n := fun p hp => Finset.mem_range.mpr (h.pos_lt p hp)
  ext k
  rw [toPolynomial_wordSyndromes hφ, toPolynomial_wordSyndromes hφ, coeff_add]
  simp only [coeff_errorSyndromes]
  split
  · have hA : ∑ p ∈ A, φ (e p) * φ (alphaPow p) ^ (k + 1) =
        ∑ p ∈ Finset.range (Config.params c).n, φ (if p ∈ A then e p else 0) * φ (alphaPow p) ^ (k + 1) :=
      (Finset.sum_congr rfl fun p hp => by rw [if_pos hp]).trans
        (Finset.sum_subset hsub fun p _ hp => by rw [if_neg hp, hφ.zero, zero_mul])
    rw [hA, ← Finset.sum_add_distrib]
    exact Finset.sum_congr rfl fun p hp => by rw [h.symbol p (Finset.mem_range.mp hp), hφ.add, add_mul]
  · rw [add_zero]

end

/-! ### What a decode that corrects adds (R243, R246) -/

section
variable {F : Type} [Field F] {φ : Elem → F} (hφ : FieldView φ)

include hφ

/-- The syndromes of a buffer, its locator and R197's evaluator in the key equation. -/
theorem keyEq_syndromes (c : Code) (sym : SymBuf) {b : BmState} (hb : b = bm (wordSyndromes c sym)) :
    KeyEq (Config.params c).t2 (toPolynomial φ (wordSyndromes c sym)) (toPolynomial φ b.sigma.toList)
      (toPolynomial φ (wordEvaluator c sym b).toList) b.len := by
  have ht2 := params_t2_le c
  have h := keyEq_bm hφ (s := wordSyndromes c sym) (by rw [length_syndromes]; omega)
  rwa [length_syndromes, ← hb] at h

/-- No solution of the key equation for a buffer's syndromes is shorter than the loop's. -/
theorem len_le_of_keyEq_syndromes {c : Code} {sym : SymBuf} {b : BmState} (hb : b = bm (wordSyndromes c sym))
    {Q Ω : F[X]} {M : Nat} (h : KeyEq (Config.params c).t2 (toPolynomial φ (wordSyndromes c sym)) Q Ω M) :
    b.len ≤ M := by
  have ht2 := params_t2_le c
  rw [← length_syndromes (Config.params c) (wordPoly c sym)] at h
  rw [hb]
  exact len_bm_le_of_keyEq hφ (by rw [length_syndromes]; omega) h

end

section
variable {c : Code} {sym : SymBuf} {b : BmState} {es : List ErrEntry} (h : Corrects c sym b es)

include h

/-- The corrected word is the received one with the magnitudes added at the root positions. -/
theorem Corrects.addsErrors :
    AddsErrors c sym (correctedWord c sym es) (chien b.sigma).toFinset (magnitudeAt c sym b) where
  pos_lt p hp := h.pos_lt p (List.mem_toFinset.mp hp)
  symbol p hp := by
    rw [coeff_wordPoly_correctedWord c sym es hp, h.addListed]
    simp only [List.mem_toFinset]

/-- The magnitudes at the root positions have the received syndromes. -/
theorem Corrects.toPolynomial_syndromes {F : Type} [Field F] {φ : Elem → F} (hφ : FieldView φ) :
    toPolynomial φ (wordSyndromes c sym) =
      errorSyndromes (chien b.sigma).toFinset (fun p => φ (alphaPow p)) (fun p => φ (magnitudeAt c sym b p))
        (Config.params c).t2 := by
  have := hφ.charTwo
  have hdeg : deg b.sigma = some (chien b.sigma).length := by rw [h.roots, h.degree]
  have hkey := keyEq_syndromes hφ c sym h.locator
  have hcard : (chien b.sigma).toFinset.card = b.len := (card_toFinset_chien b.sigma).trans h.roots
  have h0 : coeff b.sigma 0 = 1 := hφ.injective <| by
    rw [← coeff_toPolynomial_toList hφ, hkey.constant, hφ.one]
  have hsigma := toPolynomial_eq_errorLocator_chien hφ h0 hdeg
  rw [hsigma, ← hcard] at hkey
  have hdvd := hkey.dvd_sub_errorSyndromes (e := fun p => φ (magnitudeAt c sym b p))
    (fun p _ => hφ.alphaPow_ne_zero p)
    (hφ.alphaPow_injOn_positions fun p hp => h.addsErrors.pos_lt_order hp) fun p hp => by
      rw [CharTwo.neg_eq, ← hsigma]
      exact (map_forneyMag_mul hφ (forneyDen_ne_zero hdeg (List.mem_toFinset.mp hp))).symm
  rw [toPolynomial_wordSyndromes hφ] at hdvd ⊢
  exact errorSyndromes_eq_of_dvd_sub hdvd

/-- No success leaves a word that is not a codeword: what it adds cancels the received syndromes (R246). -/
theorem Corrects.isCodeword_correctedWord : IsCodeword c (correctedWord c sym es) := by
  obtain ⟨F, _, φ, hφ⟩ := exists_fieldView
  have := hφ.charTwo
  rw [isCodeword_iff_toPolynomial hφ, h.addsErrors.toPolynomial_syndromes hφ, ← h.toPolynomial_syndromes hφ]
  ext k
  rw [coeff_add, CharTwo.add_self_eq_zero, Polynomial.coeff_zero]

end

/-! ### Up to t errors (R199, R245) -/

section
variable {c : Code} {word sym : SymBuf} {A : Finset Nat} {e : Nat → Elem} (hword : IsCodeword c word)
  (h : AddsErrors c word sym A e)

include hword h

/-- Only the errors of a codeword show in its syndromes. -/
theorem AddsErrors.syndromes_of_codeword {F : Type} [Field F] {φ : Elem → F} (hφ : FieldView φ) :
    toPolynomial φ (wordSyndromes c sym) =
      errorSyndromes A (fun p => φ (alphaPow p)) (fun p => φ (e p)) (Config.params c).t2 := by
  rw [h.toPolynomial_syndromes hφ, (isCodeword_iff_toPolynomial hφ c word).mp hword, zero_add]

variable {b : BmState} (hb : b = bm (wordSyndromes c sym))

include hb

/-- The loop's length is at most the number of errors: their own locator is as long. -/
theorem AddsErrors.len_le : b.len ≤ A.card := by
  obtain ⟨F, _, φ, hφ⟩ := exists_fieldView
  exact len_le_of_keyEq_syndromes hφ hb (by rw [h.syndromes_of_codeword hword hφ]; exact keyEq_errorLocator _)

variable (he : ∀ p ∈ A, e p ≠ 0) (hcard : 2 * A.card ≤ (Config.params c).t2)

include he hcard

/-- The loop finds the locator and the evaluator of the errors. -/
theorem AddsErrors.locator_eq {F : Type} [Field F] {φ : Elem → F} (hφ : FieldView φ) :
    toPolynomial φ b.sigma.toList = errorLocator A (fun p => φ (alphaPow p)) ∧
      toPolynomial φ (wordEvaluator c sym b).toList = errorEvaluator A (fun p => φ (alphaPow p)) fun p => φ (e p) := by
  have hkey := keyEq_syndromes hφ c sym hb
  rw [h.syndromes_of_codeword hword hφ] at hkey
  exact hkey.eq_errorLocator (fun p _ => hφ.alphaPow_ne_zero p)
    (hφ.alphaPow_injOn_positions fun p hp => h.pos_lt_order hp) (fun p hp => hφ.eq_zero_iff.not.mpr (he p hp))
    (h.len_le hword hb) hcard

/-- The search finds the positions of the errors. -/
theorem AddsErrors.mem_chien_iff {p : Nat} : p ∈ chien b.sigma ↔ p ∈ A := by
  obtain ⟨F, _, φ, hφ⟩ := exists_fieldView
  exact mem_chien_of_errorLocator hφ (fun p hp => h.pos_lt_order hp) (h.locator_eq hword hb he hcard hφ).1

theorem AddsErrors.length_chien : (chien b.sigma).length = A.card := by
  rw [← card_toFinset_chien]
  congr 1
  ext p
  rw [List.mem_toFinset, h.mem_chien_iff hword hb he hcard]

/-- Length, degree and number of the errors are the same. -/
theorem AddsErrors.deg_locator : b.len = A.card ∧ deg b.sigma = some A.card := by
  obtain ⟨F, _, φ, hφ⟩ := exists_fieldView
  have hlen := h.len_le hword hb
  have hkey := keyEq_syndromes hφ c sym hb
  have h0 : coeff b.sigma 0 ≠ 0 := fun h0 => by
    have := hkey.constant
    rw [coeff_toPolynomial_toList hφ, h0, hφ.zero] at this
    exact zero_ne_one this
  obtain ⟨d, hd⟩ := exists_deg_of_coeff_ne_zero h0
  have hroots := length_chien_le_deg hd
  rw [h.length_chien hword hb he hcard] at hroots
  have hdlen : d ≤ b.len := by
    by_contra! hlt
    refine (deg_eq_some.mp hd).1 (hφ.eq_zero_iff.mp ?_)
    rw [← coeff_toPolynomial_toList hφ]
    exact natDegree_le_iff_coeff_eq_zero.mp hkey.natDegree_le d hlt
  obtain rfl : d = A.card := by omega
  exact ⟨by omega, hd⟩

/-- The magnitudes are the errors (R198, R199). -/
theorem AddsErrors.magnitudeAt_eq {p : Nat} (hp : p ∈ A) : magnitudeAt c sym b p = e p := by
  obtain ⟨F, _, φ, hφ⟩ := exists_fieldView
  have := hφ.charTwo
  have hx : ∀ p ∈ A, φ (alphaPow p) ≠ 0 := fun p _ => hφ.alphaPow_ne_zero p
  have hinj := hφ.alphaPow_injOn_positions fun p hp => h.pos_lt_order hp
  have hdeg : deg b.sigma = some (chien b.sigma).length := by
    rw [h.length_chien hword hb he hcard]
    exact (h.deg_locator hword hb he hcard).2
  obtain ⟨hsigma, homega⟩ := h.locator_eq hword hb he hcard hφ
  have hmag := map_forneyMag_mul hφ (omega := wordEvaluator c sym b)
    (forneyDen_ne_zero hdeg ((h.mem_chien_iff hword hb he hcard).mpr hp))
  rw [homega, hsigma, eval_errorEvaluator_eq_mul_derivative hx hp, CharTwo.neg_eq] at hmag
  exact hφ.injective (mul_right_cancel₀ (eval_derivative_errorLocator_ne_zero hx hinj hp) hmag)

/-- RS.DEC corrects the errors, if there are any. -/
theorem AddsErrors.corrects (hne : 1 ≤ A.card) :
    decodeBuf c sym = .corrected A.card (corrections c (synPoly (wordSyndromes c sym)) b.sigma) := by
  obtain ⟨F, _, φ, hφ⟩ := exists_fieldView
  obtain ⟨hlen, hdeg⟩ := h.deg_locator hword hb he hcard
  have hnot : ¬ IsCodeword c sym := fun hsym => by
    have hzero := (isCodeword_iff_toPolynomial hφ c sym).mp hsym
    have := len_le_of_keyEq_syndromes hφ hb (Q := 1) (Ω := 0) (M := 0) (by rw [hzero]; exact keyEq_zero _)
    omega
  have ht : b.len ≤ (Config.params c).t := by
    rw [CodeParams.t, hlen]
    omega
  rw [← hlen] at hdeg ⊢
  exact decodeBuf_corrects hb hnot hdeg ht ((h.length_chien hword hb he hcard).trans hlen.symm) fun p hp =>
    h.pos_lt p ((h.mem_chien_iff hword hb he hcard).mp hp)

end

end Sys2Proof.Machine
end

section
/-! SUPPORT. The symbols in which two buffers differ as an error pattern, and the buffer a decode of it leaves
(spec/43_rs.md R245). -/

namespace Sys2Proof.Machine

open Sys2Proof

/-- A slot of the code as the symbol at its degree (R232). -/
theorem getElem_eq_coeff_wordPoly (c : Code) (sym : SymBuf) (i : Fin 36) (hi : i.val < (Config.params c).n) :
    sym[i] = coeff (wordPoly c sym) ((Config.params c).n - 1 - i.val) := by
  have hback : (Config.params c).n - 1 - ((Config.params c).n - 1 - i.val) = i.val := by omega
  rw [coeff_wordPoly c sym (by omega), hback, symAt_of_lt _ i.isLt]
  rfl

/-- The degrees at which two words differ. -/
def changedPositions (c : Code) (x y : SymBuf) : Finset Nat :=
  (Finset.range (Config.params c).n).filter fun p => coeff (wordPoly c x) p ≠ coeff (wordPoly c y) p

/-- The difference of two words at a degree. -/
def changeAt (c : Code) (x y : SymBuf) (p : Nat) : Elem := gfAdd (coeff (wordPoly c x) p) (coeff (wordPoly c y) p)

theorem card_changedPositions (c : Code) (x y : SymBuf) : (changedPositions c x y).card = changedSymbols c x y := by
  have hn36 := params_n_le c
  rw [changedSymbols, ← List.toFinset_card_of_nodup ((List.nodup_finRange 36).filter _)]
  refine (Finset.card_bij (fun i _ => (Config.params c).n - 1 - i.val) (fun i hi => ?_) (fun i hi j hj hij => ?_)
    fun p hp => ?_).symm
  · simp only [List.mem_toFinset, List.mem_filter, decide_eq_true_eq] at hi
    obtain ⟨-, hi, hne⟩ := hi
    rw [changedPositions, Finset.mem_filter, Finset.mem_range, ← getElem_eq_coeff_wordPoly c x i hi,
      ← getElem_eq_coeff_wordPoly c y i hi]
    exact ⟨by omega, hne⟩
  · simp only [List.mem_toFinset, List.mem_filter, decide_eq_true_eq] at hi hj
    omega
  · obtain ⟨hp, hne⟩ := Finset.mem_filter.mp hp
    have hp := Finset.mem_range.mp hp
    have hback : (Config.params c).n - 1 - ((Config.params c).n - 1 - p) = p := by omega
    refine ⟨⟨(Config.params c).n - 1 - p, by omega⟩, ?_, hback⟩
    simp only [List.mem_toFinset, List.mem_filter, List.mem_finRange, decide_eq_true_eq, true_and]
    rw [getElem_eq_coeff_wordPoly c x _ (by simp only; omega), getElem_eq_coeff_wordPoly c y _ (by simp only; omega)]
    simp only [hback]
    exact ⟨by omega, hne⟩

theorem gfAdd_gfAdd_cancel (a b : Elem) : gfAdd a (gfAdd a b) = b := by
  rw [gfAdd, gfAdd, ← BitVec.xor_assoc, BitVec.xor_self, BitVec.zero_xor]

theorem gfAdd_gfAdd_cancel_right (a b : Elem) : gfAdd (gfAdd a b) b = a := by
  rw [gfAdd, gfAdd, BitVec.xor_assoc, BitVec.xor_self, BitVec.xor_zero]

theorem changeAt_ne_zero {c : Code} {x y : SymBuf} {p : Nat} (hp : p ∈ changedPositions c x y) : changeAt c x y p ≠ 0 :=
  fun h => (Finset.mem_filter.mp hp).2 (BitVec.xor_eq_zero_iff.mp h)

/-- A word is any other with their difference added. -/
theorem addsErrors_changeAt (c : Code) (x y : SymBuf) : AddsErrors c x y (changedPositions c x y) (changeAt c x y) where
  pos_lt p hp := Finset.mem_range.mp (Finset.mem_filter.mp hp).1
  symbol p hp := by
    by_cases h : p ∈ changedPositions c x y
    · rw [if_pos h, changeAt, gfAdd_gfAdd_cancel]
    · rw [if_neg h]
      have heq : coeff (wordPoly c x) p = coeff (wordPoly c y) p := by
        simpa [changedPositions, hp] using h
      rw [heq]
      exact BitVec.xor_zero.symm

/-- Words with no change between them have the same data. -/
theorem getElem_eq_of_changedSymbols_eq_zero {c : Code} {x y : SymBuf} (h : changedSymbols c x y = 0) (i : Fin 36)
    (hi : i.val < (Config.params c).n) : y[i] = x[i] := by
  rw [← card_changedPositions, Finset.card_eq_zero] at h
  rw [getElem_eq_coeff_wordPoly c y i hi, getElem_eq_coeff_wordPoly c x i hi,
    (addsErrors_changeAt c x y).symbol _ (by omega), h]
  exact BitVec.xor_zero

/-- No change leaves a codeword one. -/
theorem isCodeword_of_changedSymbols_eq_zero {c : Code} {x y : SymBuf} (hx : IsCodeword c x)
    (h : changedSymbols c x y = 0) : IsCodeword c y := by
  obtain ⟨F, _, φ, hφ⟩ := exists_fieldView
  rw [← card_changedPositions, Finset.card_eq_zero] at h
  rw [isCodeword_iff_toPolynomial hφ, (addsErrors_changeAt c x y).syndromes_of_codeword hx hφ, h, errorSyndromes,
    Finset.sum_empty]

/-- Where the entries are the difference of two words, the corrected buffer has the other word's data. -/
theorem Corrects.getElem_correctBuf {c : Code} {word sym : SymBuf} {b : BmState} {es : List ErrEntry}
    (h : Corrects c sym b es) (hpos : ∀ p, p ∈ chien b.sigma ↔ p ∈ changedPositions c word sym)
    (hmag : ∀ p ∈ changedPositions c word sym, magnitudeAt c sym b p = changeAt c word sym p) (i : Fin 36)
    (hi : i.val < (Config.params c).k) : (correctBuf c sym es)[i] = word[i] := by
  have hn := params_n_eq c
  have hp : (Config.params c).n - 1 - i.val < (Config.params c).n := by omega
  rw [correctBuf_data c sym es i hi, getElem_eq_coeff_wordPoly c sym i (by omega),
    getElem_eq_coeff_wordPoly c word i (by omega), h.addListed, (addsErrors_changeAt c word sym).symbol _ hp]
  by_cases hA : (Config.params c).n - 1 - i.val ∈ changedPositions c word sym
  · rw [if_pos hA, if_pos ((hpos _).mpr hA), ← hmag _ hA]
    exact gfAdd_gfAdd_cancel_right _ _
  · rw [if_neg hA, if_neg ((hpos _).not.mpr hA)]
    exact BitVec.xor_zero.trans BitVec.xor_zero

/-- RS.DEC corrects a codeword with 1 to t changed symbols (R199, R245). -/
theorem exec_rsDec_of_changedSymbols {c : Code} {s : State} {word : SymBuf} (hword : IsCodeword c word)
    (h1 : 1 ≤ changedSymbols c word s.sym) (ht : changedSymbols c word s.sym ≤ (Config.params c).t2 / 2) :
    ∃ es : List ErrEntry, exec (.rsDec c) s = .next (correctedState c s (changedSymbols c word s.sym) es) ∧
      es.length = changedSymbols c word s.sym ∧
      ∀ i : Fin 36, i.val < (Config.params c).k → (correctBuf c s.sym es)[i] = word[i] := by
  have h := addsErrors_changeAt c word s.sym
  have hcount := card_changedPositions c word s.sym
  have hne : ∀ p ∈ changedPositions c word s.sym, changeAt c word s.sym p ≠ 0 := fun p hp => changeAt_ne_zero hp
  have hcard : 2 * (changedPositions c word s.sym).card ≤ (Config.params c).t2 := by omega
  have hbuf := h.corrects hword rfl hne hcard (by omega)
  obtain ⟨b, hb, hlen⟩ := corrects_of_decodeBuf hbuf
  rw [hcount] at hbuf hlen
  exact ⟨_, exec_rsDec_corrected hbuf, hb.length_entries.trans hlen.symm, hb.getElem_correctBuf
    (fun p => h.mem_chien_iff hword hb.locator hne hcard) fun p hp => h.magnitudeAt_eq hword hb.locator hne hcard hp⟩

end Sys2Proof.Machine
end

section
/-! SUPPORT. The slots SYM[n..35] in the codec commands (spec/43_rs.md R231): buffers that agree below n have the same
word, and their codec results agree below n. -/

namespace Sys2Proof.Machine

open Sys2Proof

section
variable {c : Code} {x y : SymBuf} (h : ∀ i : Fin 36, i.val < (Config.params c).n → y[i] = x[i])

include h

theorem symAt_congr {i : Nat} (hi : i < (Config.params c).n) : symAt y i = symAt x i := by
  have hn36 := params_n_le c
  rw [symAt_of_lt _ (by omega), symAt_of_lt _ (by omega)]
  exact h ⟨i, by omega⟩ hi

theorem wordPoly_congr : wordPoly c y = wordPoly c x :=
  congrArg polyOf <| funext fun p => by
    split
    · exact symAt_congr h (by omega)
    · rfl

theorem decodeBuf_congr : decodeBuf c y = decodeBuf c x := by
  unfold decodeBuf
  rw [wordPoly_congr h]

theorem isCodeword_congr : IsCodeword c y ↔ IsCodeword c x := by
  rw [← allZero_syndromes_iff, ← allZero_syndromes_iff, wordPoly_congr h]

theorem encodeBuf_congr (i : Fin 36) (hi : i.val < (Config.params c).n) : (encodeBuf c y)[i] = (encodeBuf c x)[i] := by
  have hn := params_n_eq c
  rcases Nat.lt_or_ge i.val (Config.params c).k with hk | hk
  · rw [encodeBuf_other c _ _ (by omega), encodeBuf_other c _ _ (by omega), h i hi]
  · rw [encodeBuf_parity c _ _ hk hi, encodeBuf_parity c _ _ hk hi]
    exact gfSum_congr fun j hj => by rw [symAt_congr h (by omega)]

theorem correctBuf_congr (es : List ErrEntry) (i : Fin 36) (hi : i.val < (Config.params c).n) :
    (correctBuf c y es)[i] = (correctBuf c x es)[i] := by
  rcases Nat.lt_or_ge i.val (Config.params c).k with hk | hk
  · rw [correctBuf_data c _ _ _ hk, correctBuf_data c _ _ _ hk, h i hi]
  · rw [correctBuf_other c _ _ _ hk, correctBuf_other c _ _ _ hk, h i hi]

end

/-- From `s`, and from `s` with another buffer, the command ends in states that differ only in SYM, there only from n
on, with those slots kept (R231). -/
def UnusedSlotsKept (c : Code) (i : Instr) (s : State) (other : SymBuf) : Prop :=
  ∃ t u, exec i s = .next t ∧ exec i { s with sym := other } = .next u ∧ u = { t with sym := u.sym } ∧
    (∀ x : Fin 36, x.val < (Config.params c).n → u.sym[x] = t.sym[x]) ∧
    ∀ x : Fin 36, (Config.params c).n ≤ x.val → t.sym[x] = s.sym[x] ∧ u.sym[x] = other[x]

section
variable {c : Code} {s : State} {other : SymBuf} (h : ∀ x : Fin 36, x.val < (Config.params c).n → other[x] = s.sym[x])

include h

/-- A command that writes no slot and does the same with either buffer keeps the unused ones. -/
theorem unusedSlotsKept_of_sym_eq {i : Instr} {t : State} (ht : exec i s = .next t) (hsym : t.sym = s.sym)
    (hu : exec i { s with sym := other } = .next { t with sym := other }) : UnusedSlotsKept c i s other :=
  ⟨t, _, ht, hu, rfl, fun x hx => by rw [hsym, h x hx], fun x _ => ⟨by rw [hsym], rfl⟩⟩

theorem unusedSlotsKept_rsEnc : UnusedSlotsKept c (.rsEnc c) s other :=
  ⟨_, _, exec_rsEnc c s, exec_rsEnc c _, rfl, encodeBuf_congr h, fun x hx =>
    ⟨encodeBuf_other c _ x (by omega), encodeBuf_other c _ x (by omega)⟩⟩

theorem unusedSlotsKept_rsSynd (rd : RegNo) : UnusedSlotsKept c (.rsSynd c rd) s other := by
  by_cases hc : IsCodeword c s.sym
  · refine unusedSlotsKept_of_sym_eq h (exec_rsSynd_codeword hc) rfl ?_
    rw [exec_rsSynd_codeword (s := { s with sym := other }) ((isCodeword_congr h).mpr hc), wordPoly_congr h]
    rfl
  · refine unusedSlotsKept_of_sym_eq h (exec_rsSynd_noCodeword hc) rfl ?_
    rw [exec_rsSynd_noCodeword (s := { s with sym := other }) ((isCodeword_congr h).not.mpr hc), wordPoly_congr h]
    rfl

theorem unusedSlotsKept_rsDec : UnusedSlotsKept c (.rsDec c) s other := by
  have hn := params_n_eq c
  cases hbuf : decodeBuf c s.sym with
  | clean =>
    exact unusedSlotsKept_of_sym_eq h (exec_rsDec_clean hbuf) rfl (exec_rsDec_clean ((decodeBuf_congr h).trans hbuf))
  | failed f =>
    exact unusedSlotsKept_of_sym_eq h (exec_rsDec_failed hbuf) rfl (exec_rsDec_failed ((decodeBuf_congr h).trans hbuf))
  | corrected d es =>
    exact ⟨_, _, exec_rsDec_corrected hbuf,
      exec_rsDec_corrected (s := { s with sym := other }) ((decodeBuf_congr h).trans hbuf), rfl, correctBuf_congr h es,
      fun x hx => ⟨correctBuf_other c _ es x (by omega), correctBuf_other c _ es x (by omega)⟩⟩

end

end Sys2Proof.Machine
end

section
/-! SUPPORT. The statements on the codec (spec/43_rs.md), each from the lemmas above. -/

namespace Sys2Proof.Machine

open Sys2Proof

/-- Settles O49: a column holds the coefficients of a remainder modulo g, and x^(n-1-i) differs from it by a multiple of
g. -/
theorem generatorColumnsAreTheRemainders : Obligations.GeneratorColumnsAreTheRemainders := by
  intro c i m hi h1 hm
  obtain ⟨F, _, φ, hφ⟩ := exists_fieldView
  apply hφ.injective
  rw [hφ.sum, hφ.pow, ← sum_genEntry hφ c hi h1 hm]
  exact Finset.sum_congr rfl fun j _ => by rw [hφ.mul, hφ.pow]

/-- Settles O50: the parity slots and the others by the slots of the encoded buffer. -/
theorem rsEncWritesTheParity : Obligations.RsEncWritesTheParity := by
  intro c s
  refine ⟨by simp only [encode, place_codeBits], _, exec_rsEnc c s, rfl, fun x => ⟨fun h1 h2 => ?_, fun h => ?_⟩⟩
  · exact encodeBuf_parity c s.sym x h1 h2
  · exact encodeBuf_other c s.sym x (by omega)

/-- Settles O51: at a root of g the parity has the value of the data's degrees, so each syndrome is 0. -/
theorem encodedBufferIsACodeword : Obligations.EncodedBufferIsACodeword := by
  refine ⟨fun c rd s t h => ?_, encodeBuf_addBuf⟩
  have hcode : IsCodeword c t.sym := sym_of_exec_rsEnc h ▸ isCodeword_encodeBuf c s.sym
  exact ⟨hcode, _, exec_rsSynd_codeword hcode, rfl, rfl⟩

/-- Settles O52: an encoded buffer is a codeword, so RS.DEC stops at its first check. -/
theorem decodeAfterEncodeChangesNothing : Obligations.DecodeAfterEncodeChangesNothing := by
  intro c s t h
  exact exec_rsDec_clean (decodeBuf_clean (sym_of_exec_rsEnc h ▸ isCodeword_encodeBuf c s.sym))

/-- Settles O53: each check decides only where those before it pass, and no denominator is 0 at a simple root. -/
theorem rsDecChecksInOrder : Obligations.RsDecChecksInOrder := by
  intro c s
  refine ⟨by simp only [encode, place_codeBits], ?_⟩
  intro q syn b cleared
  refine ⟨fun hword => ?_, fun hword hloc => ?_, fun hword hdeg hlen => ⟨fun hroots => ?_, fun hroots =>
    ⟨fun _ hpos => ?_, fun _ hpos => ?_⟩⟩⟩
  · exact exec_rsDec_clean (decodeBuf_clean hword)
  · exact exec_rsDec_failed (decodeBuf_locatorInvalid rfl hword hloc)
  · exact exec_rsDec_failed (decodeBuf_rootMismatch rfl hword hdeg hlen hroots)
  · exact exec_rsDec_failed (decodeBuf_positionOob rfl hword hdeg hlen hroots hpos)
  · exact ⟨_, exec_rsDec_corrected (decodeBuf_corrects rfl hword hdeg hlen hroots hpos), rfl, rfl⟩

/-- Settles O54: the list is legal as every list written, and a slot's position is that of one entry at most. -/
theorem rsDecAppliesTheListedCorrections : Obligations.RsDecAppliesTheListedCorrections := by
  intro c s t h hst
  obtain ⟨b, es, hb, ht⟩ := corrects_of_exec_rsDec h hst
  have hcnt := hb.toNat_errCnt ht
  obtain ⟨-, hlegal⟩ := hb.errListLegal ht
  refine ⟨by rw [ht, correctedState], by rw [hcnt]; exact hb.count_pos, by rw [hcnt]; exact hb.count_le,
    hb.result_eq ht, fun j hj => ?_, fun j hj => hb.pos_entry_lt (hb.errList_mem ht hj), fun i j hij hj => ?_, fun i =>
    ⟨fun j hi hj hpos => hb.sym_listed ht hi hj hpos, fun hi => hb.sym_other ht hi⟩⟩
  · obtain ⟨hzero, -, -⟩ := hlegal j
    exact hzero hj
  · obtain ⟨-, -, hasc⟩ := hlegal j
    exact hasc i hij hj

/-- Settles O56: one error is within the radius of every code. -/
theorem singleErrorIsCorrected : Obligations.SingleErrorIsCorrected := by
  intro c s word hword h1
  have hradius : 1 ≤ (Config.params c).t2 / 2 := by cases c <;> decide
  obtain ⟨es, hexec, hlen, hdata⟩ := exec_rsDec_of_changedSymbols hword h1.ge (h1.trans_le hradius)
  rw [h1] at hexec hlen
  refine ⟨_, hexec, rfl, rfl, ?_, hdata⟩
  rw [correctedState, hlen]
  rfl

/-- Settles O57: the loop finds the shortest locator of the syndromes, which is the locator of the changed symbols, and
the quotients are the changes. -/
theorem errorsUpToTheRadiusAreCorrected : Obligations.ErrorsUpToTheRadiusAreCorrected := by
  intro c s word hword ht
  have hn := params_n_eq c
  rcases Nat.eq_zero_or_pos (changedSymbols c word s.sym) with h0 | h1
  · refine ⟨_, exec_rsDec_clean (decodeBuf_clean (isCodeword_of_changedSymbols_eq_zero hword h0)),
      (by decide : statusOK statusOkSynZero = true), ?_, ?_,
      fun i hi => getElem_eq_of_changedSymbols_eq_zero h0 i (by omega)⟩
    · rw [h0]
      rfl
    · rw [h0]
      rfl
  · have ht2 := params_t2_le c
    obtain ⟨es, hexec, hlen, hdata⟩ := exec_rsDec_of_changedSymbols hword h1 ht
    refine ⟨_, hexec, (by decide : statusOK statusOk = true), rfl, ?_, hdata⟩
    rw [correctedState, hlen, BitVec.toNat_ofNat]
    omega

/-- Settles O58: the corrections have the received word's syndromes, so adding them leaves none. -/
theorem successfulDecodeYieldsACodeword : Obligations.SuccessfulDecodeYieldsACodeword := by
  intro c s t h hok
  rcases corrects_of_statusOK h hok with ⟨hword, hcnt, _⟩ | ⟨b, es, hb, ht⟩
  · rw [State.errEntries, hcnt]
    exact (correctedWord_nil c s.sym).symm ▸ hword
  · rw [hb.errEntries ht]
    exact hb.isCodeword_correctedWord

/-- Settles O60: the commands read the buffer through the word's symbols only. -/
theorem unusedSlotsTakeNoPart : Obligations.UnusedSlotsTakeNoPart := by
  rintro c rd i s other (rfl | rfl | rfl) h
  · exact unusedSlotsKept_rsEnc h
  · exact unusedSlotsKept_rsDec h
  · exact unusedSlotsKept_rsSynd h rd

end Sys2Proof.Machine
end

section
/-! SUPPORT. The statement on the control command (spec/44_control.md), from the lemmas above. -/

namespace Sys2Proof.Machine

open Sys2Proof

/-- Settles O25: NOP is the shared successful ending with RESULT 0, and that ending writes RESULT and STATUS only. -/
theorem nopOnlyReportsOk : Obligations.NopOnlyReportsOk := by
  intro s
  refine ⟨by rw [encode], ?_⟩
  calc exec .nop s = .next (okWith 0 s) := by rw [exec, execNop]
    _ = .next { s with result := 0#32, status := 0x00000001#32 } := congrArg _ (okWith_eq 0 s)

end Sys2Proof.Machine
end

section
/-! SUPPORT. That every command and every access to an engine out of reset answers a next state, what no command writes
(spec/10_state.md R37), and what no access changes of the host's side. -/

namespace Sys2Proof.Machine

open Sys2Proof

/-! ### What no command writes -/

/-- The level of `rst_n` and the accesses still to come are as before. -/
structure SameHostSide (s t : State) : Prop where
  rstN : t.rstN = s.rstN
  pending : t.pending = s.pending

theorem SameHostSide.trans {s u t : State} (h : SameHostSide s u) (h' : SameHostSide u t) : SameHostSide s t :=
  ⟨h'.rstN.trans h.rstN, h'.pending.trans h.pending⟩

/-- What no command writes is as before: CTRL, CMD, CMDCOUNT, the bus outputs and the host's side (R37). -/
structure SameControl (s t : State) : Prop extends SameHostSide s t where
  fie : t.fie = s.fie
  cmd : t.cmd = s.cmd
  cmdCount : t.cmdCount = s.cmdCount
  bus : t.bus = s.bus

theorem DataWrite.sameControl {i : Instr} {s u : State} (h : DataWrite i s u) : SameControl s u := by
  cases h with
  | nothing | poly _ _ _ | sym _ _ | magnitudes _ _ _ _ => exact ⟨⟨rfl, rfl⟩, rfl, rfl, rfl, rfl⟩
  | errList _ _ _ _ | correct _ _ _ _ _ _ =>
    rw [writeErrList_eq]
    exact ⟨⟨rfl, rfl⟩, rfl, rfl, rfl, rfl⟩

theorem CommandEnd.sameControl {i : Instr} {s t : State} (h : CommandEnd i s t) : SameControl s t := by
  cases h with
  | faulted k =>
    rw [commandFault_eq]
    exact ⟨⟨rfl, rfl⟩, rfl, rfl, rfl, rfl⟩
  | done u hu w st =>
    obtain ⟨⟨hrst, hpend⟩, hfie, hcmd, hcnt, hbus⟩ := hu.sameControl
    exact ⟨⟨hrst, hpend⟩, hfie, hcmd, hcnt, hbus⟩

/-! ### Every command and every access answers -/

/-- No command is refused and none stops the engine (R270, R273). -/
theorem exists_next_of_exec (i : Instr) (s : State) : ∃ t, exec i s = .next t := by
  cases i with
  | polyDeg ra =>
    rw [exec, execPolyDeg]
    split <;> exact ⟨_, rfl⟩
  | rsDec c =>
    rw [exec, execRsDec]
    split <;> exact ⟨_, rfl⟩
  | rsChien ra =>
    rw [exec, execRsChien]
    split <;> exact ⟨_, rfl⟩
  | _ => exact ⟨_, rfl⟩

theorem sameHostSide_busFault (k : FaultKind) (off : Offset) (s : State) : SameHostSide s (busFault k off s) := by
  rw [busFault_eq]
  exact ⟨rfl, rfl⟩

theorem sameHostSide_writeCtrl (w : Word) (s : State) : SameHostSide s (writeCtrl w s) := by
  cases h : w.getLsbD 1
  · rw [writeCtrl_fie h]
    exact ⟨rfl, rfl⟩
  · rw [writeCtrl_reset h]
    exact ⟨rfl, rfl⟩

theorem sameHostSide_hostRead (off : Offset) (s : State) : SameHostSide s (hostRead off s) := by
  rcases hostRead_cases off s with ⟨b, hb⟩ | hb <;> rw [hb]
  · exact ⟨rfl, rfl⟩
  · exact (sameHostSide_busFault .busErr off s).trans ⟨rfl, rfl⟩

theorem exists_next_of_issueCommand (w : Word) (s : State) : ∃ t, issueCommand w s = .next t ∧ SameHostSide s t := by
  have hrecord : SameHostSide s (s.recordCommand w) := ⟨rfl, rfl⟩
  rcases issueCommand_cases w s with ⟨i, -, he⟩ | ⟨e, -, he⟩ <;> rw [he]
  · obtain ⟨t, ht⟩ := exists_next_of_exec i (s.recordCommand w)
    exact ⟨t, ht, hrecord.trans (commandEnd_of_exec ht).sameControl.toSameHostSide⟩
  · rw [raiseFault_eq]
    exact ⟨_, rfl, rfl, rfl⟩

/-- Every write answers, whatever its offset and its word (R75, R273). -/
theorem exists_next_of_hostWrite (off : Offset) (w : Word) (s : State) :
    ∃ t, hostWrite off w s = .next t ∧ SameHostSide s t := by
  have hbus : SameHostSide s (s.setBus .writeDone) := ⟨rfl, rfl⟩
  rcases hostWrite_cases off w s with
    hc | hc | ⟨-, hc⟩ | ⟨-, hc⟩ | ⟨-, hc⟩ | ⟨i, -, -, hc⟩ | ⟨r, i, -, -, hc⟩ <;> rw [hc]
  · exact ⟨_, rfl, hbus.trans (sameHostSide_busFault .busErr off _)⟩
  · exact ⟨_, rfl, hbus.trans (sameHostSide_busFault .range off _)⟩
  · exact ⟨_, rfl, hbus.trans (sameHostSide_writeCtrl w _)⟩
  · obtain ⟨t, ht, hsame⟩ := exists_next_of_issueCommand w (s.setBus .writeDone)
    exact ⟨t, ht, hbus.trans hsame⟩
  all_goals exact ⟨_, rfl, rfl, rfl⟩

/-! ### The host's protocol (R312 (e)) -/

/-- An access leaves the accesses after it to judge at the same level of the pin. -/
theorem SameHostSide.protocolKept {s t : State} {rest : List HostEvent} (h : SameHostSide (takeEvent rest s) t) :
    t.protocolKept = hostKeepsProtocol s.rstN rest := by
  rw [State.protocolKept, h.rstN, h.pending, takeEvent]

/-- After a change of the pin the rest is judged at its new level (R300). -/
theorem protocolKept_drivePin (level : Bool) (rest : List HostEvent) (s : State) :
    (drivePin level (takeEvent rest s)).protocolKept = hostKeepsProtocol level rest := by
  rw [drivePin_eq]
  split
  · next h =>
    obtain ⟨hlevel, hrst⟩ := h
    rw [State.protocolKept, hrst, hlevel, takeEvent]
  · rfl

end Sys2Proof.Machine
end

section
/-! SUPPORT. The statements on outcomes, faults and the host's protocol (spec/60_exceptions.md), each from the lemmas
above. -/

namespace Sys2Proof.Machine

open Sys2Proof

/-- Settles O15: each command answers, and neither of its two ends writes CTRL, CMD, CMDCOUNT or the model's own
fields. -/
theorem everyCommandEndsInANextState : Obligations.EveryCommandEndsInANextState := by
  intro i s
  obtain ⟨t, ht⟩ := exists_next_of_exec i s
  obtain ⟨⟨hrst, hpend⟩, hfie, hcmd, hcnt, hbus⟩ := (commandEnd_of_exec ht).sameControl
  exact ⟨t, ht, hfie, hcmd, hcnt, hrst, hbus, hpend⟩

/-- Settles O17: of a command's two ends only the fault leaves FAULTED; the other leaves FIE and the fault registers, of
which IRQ is a function. -/
theorem onlyFaultsTouchTheFaultRegisters : Obligations.OnlyFaultsTouchTheFaultRegisters := by
  intro i s t h
  cases commandEnd_of_exec h with
  | faulted k hk =>
    have hbit : faultMask k ∈ [0b000010#6, 0b000100#6, 0b001000#6] := List.mem_map_of_mem (f := faultMask) hk
    have hst : statusFAULTED statusFaulted = true := by decide
    rw [commandFault_eq]
    exact ⟨fun _ => ⟨⟨faultMask k, hbit, rfl⟩, faultedState_irq hbit s⟩,
      fun hclear => absurd (hclear.symm.trans hst) Bool.false_ne_true⟩
  | done u hu w st _ hst =>
    obtain ⟨hfault, hinfo⟩ := hu.sameFaults
    refine ⟨fun hfaulted => absurd (hst.symm.trans hfaulted) Bool.false_ne_true, fun _ => ⟨hfault, hinfo, ?_⟩⟩
    show u.irq = s.irq
    rw [State.irq, State.irq, hu.sameControl.fie, hfault]

/-- Settles O21: the engine waits or the pin is driven, which always answers; else the protocol has `rst_n` high at the
access, which is the host's, and leaves the rest to judge at the same level. -/
theorem protocolKeepingHostIsNeverRefused : Obligations.ProtocolKeepingHostIsNeverRefused := by
  intro s hs
  cases hp : s.pending with
  | nil => exact ⟨_, step_idle hp, hs⟩
  | cons e rest =>
    have hkeeps : hostKeepsProtocol s.rstN (e :: rest) = true := hp ▸ hs
    cases e with
    | resetPin level => exact ⟨_, step_resetPin hp, (protocolKept_drivePin level rest s).trans hkeeps⟩
    | otherMaster off => cases hkeeps
    | read off =>
      obtain ⟨hr, hrest⟩ := Bool.and_eq_true_iff.mp hkeeps
      exact ⟨_, step_read hp hr, (sameHostSide_hostRead off (takeEvent rest s)).protocolKept.trans hrest⟩
    | write off w =>
      obtain ⟨hr, hrest⟩ := Bool.and_eq_true_iff.mp hkeeps
      obtain ⟨t, ht, hsame⟩ := exists_next_of_hostWrite off w (takeEvent rest s)
      exact ⟨t, (step_write hp hr).trans ht, hsame.protocolKept.trans hrest⟩

end Sys2Proof.Machine
end

section
/-! SUPPORT. What the cells of the window hold at reset (spec/70_reset_and_hazards.md R302), and the accesses a step refuses
(R300, spec/20_memory.md R84). -/

namespace Sys2Proof.Machine

open Sys2Proof

/-! ### The reset values (R302) -/

theorem reset_sym_getElem (i : Fin 36) : State.reset.sym[i] = 0 := Vector.getElem_replicate i.isLt

theorem reset_errList_getElem (j : Fin 36) : State.reset.errList[j] = ⟨0, 0⟩ :=
  Vector.getElem_replicate j.isLt

theorem reset_poly (r : RegNo) : State.reset.poly r = Vector.replicate 36 0 := Vector.getElem_replicate r.isLt

theorem reset_coeff_getElem (r : RegNo) (i : Fin 36) : (State.reset.poly r)[i] = 0 := by
  rw [reset_poly]
  exact Vector.getElem_replicate i.isLt

theorem reset_irq : State.reset.irq = false := rfl

/-! ### The accesses a step refuses -/

theorem step_read_inReset {s : State} {off : Offset} {rest : List HostEvent} (h : s.pending = .read off :: rest)
    (hr : s.rstN = false) : step s = .refused .accessInReset := by
  rw [step_event h, hostEvent, takeEvent, if_neg (Bool.eq_false_iff.mp hr)]

theorem step_write_inReset {s : State} {off : Offset} {w : Word} {rest : List HostEvent}
    (h : s.pending = .write off w :: rest) (hr : s.rstN = false) : step s = .refused .accessInReset := by
  rw [step_event h, hostEvent, takeEvent, if_neg (Bool.eq_false_iff.mp hr)]

theorem step_otherMaster {s : State} {off : Offset} {rest : List HostEvent} (h : s.pending = .otherMaster off :: rest) :
    step s = .refused .secondMaster := by
  rw [step_event h, hostEvent]

/-! ### The pin (R300) -/

/-- A change that does not leave the pin high leaves the reset state at the pin's new level, the outputs idle. -/
theorem drivePin_takeEvent_resets {level : Bool} {s : State} (h : ¬ (level = true ∧ s.rstN = true))
    (rest : List HostEvent) :
    drivePin level (takeEvent rest s) = { State.reset with rstN := level, pending := rest } :=
  (drivePin_eq level (takeEvent rest s)).trans (if_neg h)

/-- A pin that stays high changes nothing but the outputs. -/
theorem drivePin_takeEvent_staysHigh {s : State} (h : s.rstN = true) (rest : List HostEvent) :
    drivePin true (takeEvent rest s) = takeEvent rest s :=
  (drivePin_eq true (takeEvent rest s)).trans (if_pos ⟨rfl, h⟩)

end Sys2Proof.Machine
end

section
/-! SUPPORT. The statements on reset and refused accesses (spec/70_reset_and_hazards.md), each from the lemmas above. -/

namespace Sys2Proof.Machine

open Sys2Proof

/-- Settles O8: the identity words are constants, the registers are 0, and so is every slot of the three memories. -/
theorem resetCellsReadTheirResetValues : Obligations.ResetCellsReadTheirResetValues := by
  refine ⟨reset_irq, fun cell => ?_⟩
  cases cell with
  | sym i =>
    show zext State.reset.sym[i] = 0#32
    rw [reset_sym_getElem]
    rfl
  | errEntry j =>
    show entryWord State.reset.errList[j] = 0#32
    rw [reset_errList_getElem]
    rfl
  | coeff r i =>
    show zext (State.reset.poly r)[i] = 0#32
    rw [reset_coeff_getElem]
    rfl
  | _ => rfl

/-- Settles O10: a pin that is low before or after the event resets, and a refused access never reaches its cell. -/
theorem resetPinResetsAndForbiddenAccessIsRefused : Obligations.ResetPinResetsAndForbiddenAccessIsRefused := by
  intro s rest
  refine ⟨fun hp => ?low, fun hr hp => ?release, fun hr hp => ?staysHigh, step_idle,
    fun _ hr hp => step_read_inReset hp hr, fun _ _ hr hp => step_write_inReset hp hr, fun _ => step_otherMaster⟩
  case low => rw [step_resetPin hp, drivePin_takeEvent_resets fun ⟨hlevel, _⟩ => Bool.false_ne_true hlevel]
  case release =>
    rw [step_resetPin hp, drivePin_takeEvent_resets fun ⟨_, hhigh⟩ => Bool.false_ne_true (hr.symm.trans hhigh)]
    rfl
  case staysHigh => rw [step_resetPin hp, drivePin_takeEvent_staysHigh hr, takeEvent]

/-- Settles O24: STATUS is the word before the first command, the error list is the empty one, and nothing is pending. -/
theorem resetMeetsTheInvariants : Obligations.ResetMeetsTheInvariants :=
  have hstatus : statusLegal 0 = true := by decide
  have hpending : hostKeepsProtocol true [] = true := by rw [hostKeepsProtocol]
  ⟨hstatus, errListLegal_reset, hpending⟩

end Sys2Proof.Machine
end
